-- ==== Sys2Proof/Word.lean ====
section
/-! DEFINITION. The machine's one value type, `int64` (rules R11, R12, R20 of spec/), and the exact-to-`int64`
conversion every arithmetic rule goes through.

R59 and R13: a cell is an abstract integer. No rule slices its bits, and it is not a byte string. -/

namespace Sys2Proof

/-- The least `int64`, -2^63 (R11 `CELL_WIDTH`, R12). -/
abbrev minInt64 : Int := -9223372036854775808

/-- The greatest `int64`, 2^63-1 (R11 `CELL_WIDTH`, R12). -/
abbrev maxInt64 : Int := 9223372036854775807

/-- The greatest legal address and the greatest legal `pc`, 2^63-1 (R11 `ADDRESS_RANGE`, R21, R51). -/
abbrev maxAddr : Nat := 9223372036854775807

/-- An `int64`: an integer v with -2^63 <= v <= 2^63-1 (R12). The range is part of the type, so no out-of-range value
can stand in a cell, in `rb`, in a channel or in a capability's answer. -/
abbrev Word := { v : Int // minInt64 ≤ v ∧ v ≤ maxInt64 }

/-- The cell value 0, which every cell never stored to reads as (R55). -/
def Word.zero : Word := ⟨0, by decide⟩

/-- A literal `int64`. -/
def word (v : Int) (h : minInt64 ≤ v ∧ v ≤ maxInt64 := by decide) : Word := ⟨v, h⟩

/-- R12: "converts a result back to `int64` only after checking its range". Nothing wraps. -/
def Word.ofInt? (v : Int) : Option Word :=
  if h : minInt64 ≤ v ∧ v ≤ maxInt64 then some ⟨v, h⟩ else none

/-- The `int64` whose two's-complement pattern of 64 bits is `n mod 2^64`. No rule of the machine reads a pattern of
bits: this serves only the host's numbering of an instruction's bits (`decodeTableWord`, `withFetchWord`). PRESUMED
(notes/assumptions/11.md). -/
def Word.ofBits (n : Nat) : Word :=
  if h : n % 18446744073709551616 < 9223372036854775808 then
    ⟨((n % 18446744073709551616 : Nat) : Int), by
      simp only [minInt64, maxInt64]; omega⟩
  else
    ⟨((n % 18446744073709551616 : Nat) : Int) - 18446744073709551616, by
      simp only [minInt64, maxInt64]; omega⟩

end Sys2Proof
end

