-- ==== Sys2Proof/Config.lean ====
section
/-! DEFINITION. What one implementation fixes (R11: the OPEN parameters) and the free values: what the spec leaves to the
host side of a capability or to the scheduler, as constants with no body. -/

namespace Sys2Proof

/-- R11 `READ_ON_CLOSED`: what a receive on an empty channel whose sender is gone does (R325, 90_conflicts.md C3). -/
inductive ReadOnClosed where
  | zero    -- it returns 0 (the default)
  | block   -- it blocks forever
deriving DecidableEq, Repr

/-- R11: "A model takes each OPEN parameter as an argument." The arguments stand in `State.cfg`, so a statement about
every state holds for every value of them. No step changes them. -/
structure Config where
  /-- `MEM_LIMIT`: none is unbounded (R56). -/
  memLimit : Option Nat
  /-- `READ_ON_CLOSED`. -/
  readOnClosed : ReadOnClosed
  /-- `N_STAGES`, the number of stages a ring is launched with. -/
  nStages : Nat
deriving DecidableEq, Repr

/-- R11: the defaults, `MEM_LIMIT` unset and `READ_ON_CLOSED` = `Zero`; D22: `N_STAGES` default 5. -/
def Config.standard : Config := { memLimit := none, readOnClosed := .zero, nStages := 5 }

/-- R11 `INITIAL_FEEDBACK`. -/
def initialFeedback : Word := Word.zero

/-- R28 to R31: one capability call with what passed between the executor and the host side. -/
inductive CapEvent where
  | shouldHalt (b : Bool)
  | read (v : Word)
  | write (v : Word)
  | finished
deriving DecidableEq, Repr

/-- FREE VALUE (U10, R330). What a stateful controller answers to `CapShouldHalt()` after the given calls, once the
answers written in its state have run out. notes/assumptions/4.md. -/
opaque Config.controllerHalts : List CapEvent → Bool

/-- FREE VALUE (U9, R330, R333). What a stateful controller answers to `CapRead()` after the given calls, once the answers
written in its state have run out; none is "stays blocked", and it stays so, since only calls change the host state (R32).
notes/assumptions/4.md. -/
opaque Config.controllerReads : List CapEvent → Option Word

/-- FREE VALUE (U11, R345). The stage that moves next after the given number of turns, once the choices written in the
state have run out. notes/assumptions/5.md. -/
opaque Config.nextStage : Nat → Nat

end Sys2Proof
end

