-- ==== Sys2Proof/Syntax.lean ====
section
/-! DEFINITION. The ten instructions (R3, R95), their modes (R84), lengths and destination slots (R82), and the faults an
executor can raise (R300, codes 1 to 8), which the decoder and the operations both name. -/

namespace Sys2Proof

/-- R84: the addressing mode of one parameter. -/
inductive Mode where
  | pos   -- digit 0, Position
  | imm   -- digit 1, Immediate
  | rel   -- digit 2, Relative
deriving DecidableEq, Repr

/-- R95: the ten legal opcodes. -/
inductive Opcode where
  | add | mul | inp | out | jnz | jz | lt | eq | arb | halt
deriving DecidableEq, Repr

/-- R80, R90: what the decoder reads from an instruction word, `(opcode: int, modes: [Mode; 3])`. It always holds three
modes; an instruction uses as many as it has parameters (90_conflicts.md C11). -/
structure Decoded where
  op : Opcode
  m1 : Mode
  m2 : Mode
  m3 : Mode
deriving DecidableEq, Repr

/-- One constructor per row of spec/opcode_table.json, with the modes of the parameters the row uses, in parameter
order. The parameter words are cells of memory that the instruction fetches while it runs (R81, R116), so they are no
part of the syntax. -/
inductive Instr where
  | add (m1 m2 m3 : Mode)   -- R140: src1, src2, dst
  | mul (m1 m2 m3 : Mode)   -- R141: src1, src2, dst
  | inp (m1 : Mode)         -- R150: dst
  | out (m1 : Mode)         -- R151: src
  | jnz (m1 m2 : Mode)      -- R160: cond, target
  | jz  (m1 m2 : Mode)      -- R161: cond, target
  | lt  (m1 m2 m3 : Mode)   -- R170: src1, src2, dst
  | eq  (m1 m2 m3 : Mode)   -- R171: src1, src2, dst
  | arb (m1 : Mode)         -- R180: src
  | halt                    -- R190
deriving DecidableEq, Repr

/-- R95: the opcode of an instruction. -/
def Instr.opcode : Instr → Opcode
  | .add _ _ _ => .add
  | .mul _ _ _ => .mul
  | .inp _ => .inp
  | .out _ => .out
  | .jnz _ _ => .jnz
  | .jz _ _ => .jz
  | .lt _ _ _ => .lt
  | .eq _ _ _ => .eq
  | .arb _ => .arb
  | .halt => .halt

/-- R82: the length of an instruction in cells, which depends on the opcode alone (R83). -/
def Opcode.length : Opcode → Nat
  | .add => 4
  | .mul => 4
  | .inp => 2
  | .out => 2
  | .jnz => 3
  | .jz => 3
  | .lt => 4
  | .eq => 4
  | .arb => 2
  | .halt => 1

/-- R82: the number of parameters of an opcode. -/
def Opcode.params : Opcode → Nat
  | .add => 3
  | .mul => 3
  | .inp => 1
  | .out => 1
  | .jnz => 2
  | .jz => 2
  | .lt => 3
  | .eq => 3
  | .arb => 1
  | .halt => 0

/-- R82: the destination parameter of an opcode, if it writes memory. -/
def Opcode.destSlot : Opcode → Option Nat
  | .add => some 3
  | .mul => some 3
  | .inp => some 1
  | .out => none
  | .jnz => none
  | .jz => none
  | .lt => some 3
  | .eq => some 3
  | .arb => none
  | .halt => none

/-- The mode of an instruction's destination parameter, if it has one (R82). -/
def Instr.destMode : Instr → Option Mode
  | .add _ _ m3 => some m3
  | .mul _ _ m3 => some m3
  | .inp m1 => some m1
  | .out _ => none
  | .jnz _ _ => none
  | .jz _ _ => none
  | .lt _ _ m3 => some m3
  | .eq _ _ m3 => some m3
  | .arb _ => none
  | .halt => none

/-- R300, codes 1 to 8: the faults of an executor, with the information each records. The `pc` that "each also records"
stands beside the fault where it is recorded (`RunState.faulted`). An address is recorded as the integer it was formed as. -/
inductive ExecFault where
  | unknownOpcode (v : Int)              -- 1: R90, R91, R92
  | illegalWriteMode (k : Nat)           -- 2: R89
  | illegalModeDigit (k d : Nat)         -- 3: R86
  | negativeAddress (a : Int)            -- 4: R52, R53, R57, R162
  | addressOverflow (a : Int)            -- 5: R52, R53, R57, R118
  | arithmeticOverflow (r : Int)         -- 6: R140, R141, R180
  | memoryExhausted (a : Int)            -- 7: R52, R53
  | inputExhausted                       -- 8: R321
deriving DecidableEq, Repr

end Sys2Proof
end

