-- ==== Sys2Proof/Machine/State.lean ====
section
/-! DEFINITION. Everything the spec gives the machine, as plain data: the executor (R20 to R24), the host side of its
capability (R32, R320, R325, R327, R330), the stages and channels of the ring (R35 to R37), the orchestrator's job
(R341, R351, R353), the parameters (R11), and the reset state (R38, R400). -/

namespace Sys2Proof.Machine

/-- R20: the memory tape. `cells` lists the cells that hold something other than 0, at strictly rising addresses; every
other cell reads 0 (R55). `len` is the memory length. `Memory.wf` (Machine/Ops.lean) is the canonical form. R59: the unit
of memory is the cell, an abstract integer, so an entry pairs an address with an `int64` and not with a byte. -/
structure Memory where
  cells : List (Nat × Word)
  len : Nat
deriving DecidableEq, Repr

/-- R23: the run state; a fault is held with the `pc` of the instruction that raised it (R300). -/
inductive RunState where
  | running
  | halted
  | faulted (f : ExecFault) (pc : Nat)
deriving DecidableEq, Repr

/-- R20 to R24, R27: the state of one executor. There are no general registers and no flags (R25, R26). -/
structure Executor where
  mem : Memory
  /-- R21: the cursor; `pc <= 2^63-1` is part of the invariant (R127). -/
  pc : Nat
  /-- R22: the relative base. -/
  rb : Word
  run : RunState
  /-- R24: whether `CapOnFinished()` has been called in this run. -/
  finished : Bool
deriving DecidableEq, Repr

/-- R35: a channel, oldest value first. -/
structure Channel where
  queue : List Word
  senderConnected : Bool
  receiverAlive : Bool
deriving DecidableEq, Repr

/-- R330: the host side of a stateful controller, as seen through its four calls. `history` is every call so far, oldest
first: whatever external state a controller has is a function of it. `halts` and `reads` hold the answers the host side will
give next, oldest first (a read answered none stays blocked, R333); when they run out, the answers are free values. Only calls
change any of the three (R32). notes/assumptions/4.md. -/
structure Controller where
  halts : List Bool
  reads : List (Option Word)
  history : List CapEvent
deriving DecidableEq, Repr

/-- R5, R32: the host state of a capability, per policy. The policy is "selected at construction time". -/
inductive Capability where
  /-- R320: buffered replay, its input queue and its output list. -/
  | replay (inq outl : List Word)
  /-- R327: channel-connected stage, the last value it wrote. Its channels stand in the stages (R37). -/
  | stage (lastWritten : Option Word)
  /-- R330: stateful controller. -/
  | controller (c : Controller)
deriving DecidableEq, Repr

/-- R37: the orchestrator's join status of a stage. -/
inductive JoinStatus where
  | running
  | joined
deriving DecidableEq, Repr

/-- R37: stage i, with its executor, its capability and channel i, on which it receives (R340). Each channel has exactly
one receiver-owner (R35), so it is stored with that stage; the sender's side reaches it through the ring. -/
structure Stage where
  exe : Executor
  cap : Capability
  inbound : Channel
  join : JoinStatus
deriving DecidableEq, Repr

/-- R342: the launch premise that does not hold. -/
inductive LaunchPremise where
  | noStages            -- N < 1
  | phaseCount          -- the number of phases is not N
  | phasesNotDistinct   -- the phases are not distinct
deriving DecidableEq, Repr

/-- R300: what a run, a pipeline or a chain ends with when it does not end normally. All are SAFE: the run reports the fault
and nothing else (R39, R301). -/
inductive Fault where
  /-- Codes 1 to 8, raised by an executor's instruction, fetch or decode, with the `pc` of the instruction; reported by
  `step` once the executor's run state is Faulted (R123, R301) in a run (R323) or a chain (R351). Safe. -/
  | executor (f : ExecFault) (pc : Nat)
  /-- Code 9, raised by the orchestrator at the join when the result cell holds none (R346). Safe. -/
  | noResult
  /-- Code 10, raised by the chain when stage i emitted n values, n not 1 (R352). Safe. -/
  | chainOutputCount (i n : Nat)
  /-- Code 11, raised by the orchestrator at the join when stage i is the least faulted stage (R347). Safe. -/
  | stageFaulted (i : Nat) (f : ExecFault) (pc : Nat)
  /-- Code 12, raised by the orchestrator before it launches anything (R342). Safe. -/
  | badLaunch (reason : LaunchPremise)
deriving DecidableEq, Repr

/-- What the model has no meaning for. No meaning of this model answers with it. -/
inductive Refusal where
  /-- Raised by an arm of `exec` whose instruction has no meaning yet. Safe. No arm is left so. -/
  | notModelled (mnemonic : String)
deriving DecidableEq, Repr

/-- R353: what a search evaluates for each permutation. -/
inductive Evaluation where
  | chain
  | ring
deriving DecidableEq, Repr

/-- R353: a search over the caller's permutations: those not evaluated yet, in the caller's order, and the greatest result
so far. -/
structure Search where
  kind : Evaluation
  pending : List (List Word)
  best : Option Word
deriving DecidableEq, Repr

/-- How a job ended. -/
inductive JobResult where
  /-- R346, R351, R353: the result. -/
  | value (v : Word)
  /-- A search over no permutation at all has no maximum. notes/assumptions/9.md. -/
  | noMaximum
  /-- R301, R346, R347, R352, R353. -/
  | fault (f : Fault)
deriving DecidableEq, Repr

/-- R400, R341, R351, R353: what the caller started, and how far it is. -/
inductive Job where
  /-- One run of one executor with its capability (R323, R400). -/
  | run
  /-- The orchestrator is about to check the premises, seed and launch (R404). -/
  | launchRing (phases : List Word)
  /-- The stages of the ring run, and the orchestrator joins them (R345, R346). -/
  | ring
  /-- The chain is about to start with these phases (R351). -/
  | launchChain (phases : List Word)
  /-- Stage `i` of the chain runs, started with `signal`; `rest` holds the phases of the stages after it (R351). -/
  | chain (i : Nat) (signal : Word) (rest : List Word)
  /-- The search is about to evaluate its next permutation (R353). -/
  | nextEvaluation
  /-- The job has ended; no step leaves it. -/
  | done (r : JobResult)
deriving DecidableEq, Repr

/-- The state of the whole machine. `cur` is the stage that moves next (the only one, outside a ring); `before` and `after`
hold the stages with smaller and with greater numbers, in their order, so the number of `cur` is the length of `before`. -/
structure State where
  /-- R11: the OPEN parameters, fixed for a run. -/
  cfg : Config
  /-- R18, R403: the program the run was started from, never changed. -/
  prog : List Word
  before : List Stage
  cur : Stage
  after : List Stage
  /-- R36: the result cell. -/
  result : Option Word
  job : Job
  /-- R353: the search in progress, if there is one. -/
  search : Option Search
  /-- The model's own (R345, U11): the stages chosen to move next, in order. -/
  schedule : List Nat
  /-- The model's own: how many turns of a ring have been taken, the argument of the free value `Config.nextStage`. -/
  turns : Nat
deriving DecidableEq, Repr

/-- R38: an empty memory, `len` = 0. -/
def Memory.empty : Memory := { cells := [], len := 0 }

/-- R38: a channel with connected sender and alive receiver. -/
def Channel.fresh (queue : List Word) : Channel :=
  { queue := queue, senderConnected := true, receiverAlive := true }

/-- R38, R400: an executor at the start of a run over a given memory. -/
def Executor.start (mem : Memory) : Executor :=
  { mem := mem, pc := 0, rb := Word.zero, run := .running, finished := false }

/-- R38, R400: the start of a run of the empty program, with the default parameters and a buffered replay capability
without inputs (DESIGN CHOICE, notes/assumptions/1.md: R38 leaves the capability to the caller). A program is loaded from
outside the machine (notes/assumptions/2.md). -/
def State.reset : State :=
  { cfg := Config.standard
    prog := []
    before := []
    cur :=
      { exe := Executor.start Memory.empty
        cap := .replay [] []
        inbound := Channel.fresh []
        join := .running }
    after := []
    result := none
    job := .run
    search := none
    schedule := []
    turns := 0 }

end Sys2Proof.Machine
end

