-- ==== Sys2Proof/Machine/Flags.lean ====
section
/-! DEFINITION. The machine has no flags (R26): a comparison's result is a cell value, and overflow is a fault. Here are both:
the results of the computing instructions as values (R140, R141, R142, R170 to R172, R180). -/

namespace Sys2Proof.Machine

/-- R140, R141, R142, R180: the exact result if it is an `int64`, else `ArithmeticOverflow` with the exact result. -/
def exactResult (r : Int) : Except ExecFault Word :=
  match Word.ofInt? r with
  | some w => .ok w
  | none => .error (.arithmeticOverflow r)

/-- R172: "Both write exactly 1 or 0, as an int64." -/
def truthWord (b : Bool) : Word := if b then word 1 else word 0

/-- R140: the sum. -/
def sumResult (a b : Word) : Except ExecFault Word := exactResult (a.val + b.val)

/-- R141: the product. -/
def productResult (a b : Word) : Except ExecFault Word := exactResult (a.val * b.val)

/-- R170: 1 if a < b as signed integers, else 0. -/
def lessResult (a b : Word) : Except ExecFault Word := .ok (truthWord (decide (a.val < b.val)))

/-- R171: 1 if a = b as integers, else 0. -/
def equalResult (a b : Word) : Except ExecFault Word := .ok (truthWord (decide (a.val = b.val)))

end Sys2Proof.Machine
end

