-- ==== Sys2Proof/WellFormed.lean ====
section
/-! DEFINITION. Which instruction terms an instruction word can stand for: R89, a destination parameter is in Position or
Relative mode. A source parameter may be in any mode (R84). -/

namespace Sys2Proof

/-- R89: the mode of the destination parameter "must be Position or Relative". -/
def Mode.legalDest : Mode → Bool
  | .pos => true
  | .imm => false
  | .rel => true

/-- R89 for an instruction. -/
def Instr.wellFormed (i : Instr) : Bool :=
  match i.destMode with
  | some m => m.legalDest
  | none => true

/-- R89 for what the decoder reads from a word: parameter 3 of opcodes 1, 2, 7 and 8 and parameter 1 of opcode 3. -/
def Decoded.legalDest (d : Decoded) : Bool :=
  match d.op.destSlot with
  | some 3 => d.m3.legalDest
  | some _ => d.m1.legalDest
  | none => true

end Sys2Proof
end

