-- ==== Sys2Proof/Decode.lean ====
section
/-! DEFINITION. The decoder, from an `int64` word to an instruction or a named fault (R80 to R93), and after it the encoder,
written from R94 and the opcode map R95. -/

namespace Sys2Proof

/-- R13: `digit_j(w) = (w div 10^j) mod 10`. -/
def digit (j w : Nat) : Nat := w / 10 ^ j % 10

/-- R95: the opcode `w mod 100` selects; none is R92. -/
def Opcode.ofNat? : Nat → Option Opcode
  | 1 => some .add
  | 2 => some .mul
  | 3 => some .inp
  | 4 => some .out
  | 5 => some .jnz
  | 6 => some .jz
  | 7 => some .lt
  | 8 => some .eq
  | 9 => some .arb
  | 99 => some .halt
  | _ => none

/-- R84: "digit 0→Position, 1→Immediate, 2→Relative"; none is R86. -/
def Mode.ofDigit? : Nat → Option Mode
  | 0 => some .pos
  | 1 => some .imm
  | 2 => some .rel
  | _ => none

/-- R90 and R86: the mode of slot k from its digit. -/
def slotMode (k d : Nat) : Except ExecFault Mode :=
  match Mode.ofDigit? d with
  | some m => .ok m
  | none => .error (.illegalModeDigit k d)

/-- R90's last check, R89: the destination slot of an opcode that writes memory is not Immediate. -/
def checkDest (d : Decoded) : Except ExecFault Decoded :=
  if d.legalDest then .ok d
  else .error (.illegalWriteMode (if d.op.destSlot = some 3 then 3 else 1))

/-- R90: the checks of `decode(w)` on a word that is not negative, in their order: an unknown opcode (R92), the mode digits of
slots 1, 2 and 3 whether or not the opcode uses the slot (R86), the destination mode (R89). Digits above slot 3 are not
inspected (R87), and absent digits are 0 (R85). -/
def decodeNat (n : Nat) : Except ExecFault Decoded :=
  match Opcode.ofNat? (n % 100) with
  | none => .error (.unknownOpcode (n % 100 : Nat))
  | some op =>
    match slotMode 1 (digit 2 n), slotMode 2 (digit 3 n), slotMode 3 (digit 4 n) with
    | .ok m1, .ok m2, .ok m3 => checkDest { op := op, m1 := m1, m2 := m2, m3 := m3 }
    | .error f, _, _ => .error f
    | .ok _, .error f, _ => .error f
    | .ok _, .ok _, .error f => .error f

/-- R90: `decode(w)`; its first check is that the word is not negative (R91). -/
def decodeFields (w : Word) : Except ExecFault Decoded :=
  if w.val < 0 then .error (.unknownOpcode w.val) else decodeNat w.val.toNat

/-- R119, R88: the instruction a decoded word stands for. The modes of the slots its opcode does not use are dropped:
"They have no other effect". -/
def Decoded.toInstr (d : Decoded) : Instr :=
  match d.op with
  | .add => .add d.m1 d.m2 d.m3
  | .mul => .mul d.m1 d.m2 d.m3
  | .inp => .inp d.m1
  | .out => .out d.m1
  | .jnz => .jnz d.m1 d.m2
  | .jz => .jz d.m1 d.m2
  | .lt => .lt d.m1 d.m2 d.m3
  | .eq => .eq d.m1 d.m2 d.m3
  | .arb => .arb d.m1
  | .halt => .halt

/-- R90, R93: the decoder, total and a function of the word alone. -/
def decode (w : Word) : Except ExecFault Instr :=
  match decodeFields w with
  | .ok d => .ok d.toInstr
  | .error f => .error f

/-! ## The encoder -/

/-- R94: `d(Pos) = 0`, `d(Imm) = 1` and `d(Rel) = 2`. -/
def Mode.toDigit : Mode → Nat
  | .pos => 0
  | .imm => 1
  | .rel => 2

/-- R95: the number of an opcode. -/
def Opcode.toNat : Opcode → Nat
  | .add => 1
  | .mul => 2
  | .inp => 3
  | .out => 4
  | .jnz => 5
  | .jz => 6
  | .lt => 7
  | .eq => 8
  | .arb => 9
  | .halt => 99

theorem Mode.toDigit_le (m : Mode) : m.toDigit ≤ 2 := by cases m <;> decide

theorem Opcode.toNat_le (op : Opcode) : op.toNat ≤ 99 := by cases op <;> decide

/-- R94: `op + 100*d(m_1) + 1000*d(m_2) + 10000*d(m_3)`. -/
def Decoded.canonicalNat (d : Decoded) : Nat :=
  d.op.toNat + 100 * d.m1.toDigit + 1000 * d.m2.toDigit + 10000 * d.m3.toDigit

theorem Decoded.canonicalNat_le (d : Decoded) : d.canonicalNat ≤ 22299 := by
  have h := d.op.toNat_le
  have h1 := d.m1.toDigit_le
  have h2 := d.m2.toDigit_le
  have h3 := d.m3.toDigit_le
  simp only [Decoded.canonicalNat]
  omega

/-- R94: the canonical word for `(op, m_1, m_2, m_3)`. -/
def Decoded.canonicalWord (d : Decoded) : Word :=
  ⟨(d.canonicalNat : Int), by
    have h := d.canonicalNat_le
    simp only [minInt64, maxInt64]
    omega⟩

/-- The decoded form of an instruction whose unused slots are Position, the digit 0 (R85). -/
def Instr.toDecoded : Instr → Decoded
  | .add m1 m2 m3 => { op := .add, m1 := m1, m2 := m2, m3 := m3 }
  | .mul m1 m2 m3 => { op := .mul, m1 := m1, m2 := m2, m3 := m3 }
  | .inp m1 => { op := .inp, m1 := m1, m2 := .pos, m3 := .pos }
  | .out m1 => { op := .out, m1 := m1, m2 := .pos, m3 := .pos }
  | .jnz m1 m2 => { op := .jnz, m1 := m1, m2 := m2, m3 := .pos }
  | .jz m1 m2 => { op := .jz, m1 := m1, m2 := m2, m3 := .pos }
  | .lt m1 m2 m3 => { op := .lt, m1 := m1, m2 := m2, m3 := m3 }
  | .eq m1 m2 m3 => { op := .eq, m1 := m1, m2 := m2, m3 := m3 }
  | .arb m1 => { op := .arb, m1 := m1, m2 := .pos, m3 := .pos }
  | .halt => { op := .halt, m1 := .pos, m2 := .pos, m3 := .pos }

/-- The instruction word of an instruction: its canonical word (R94). The words after it are its parameter words, which are
any `int64` each (R81, R97). -/
def encode (i : Instr) : Word := i.toDecoded.canonicalWord

/-! ## The host's numbering of an instruction's bits -/

/-- Cell `k` of an instruction whose bits are `w`, with 64 bits a cell and the first cell's least significant bit as bit 0.
The bits above `nbits` are 0. notes/assumptions/11.md. -/
def tableCell (nbits w k : Nat) : Word := Word.ofBits (w % 2 ^ nbits / 2 ^ (64 * k))

/-- The instruction the decoder reads from an instruction whose bits are `w`. Only the first cell is the instruction word
(R80); the others are parameter words. -/
def decodeTableWord (nbits w : Nat) : Option Instr :=
  match decode (tableCell nbits w 0) with
  | .ok i => some i
  | .error _ => none

end Sys2Proof
end

