-- ==== Sys2Proof/Machine/Capability.lean ====
section
/-! DEFINITION. The four capability calls (R28 to R31) under the three policies (R320 to R332), and the channels they go
through (R325, R340). R331: no call reads or writes the executor's memory, `pc` or `rb`. -/

namespace Sys2Proof.Machine

/-! ## Stages and channels -/

/-- R37: the number of the stage in focus. -/
def State.stageIndex (s : State) : Nat := s.before.length

/-- R340: all stages in their order. -/
def State.stages (s : State) : List Stage := s.before ++ s.cur :: s.after

/-- R340: the number of stages. -/
def State.stageCount (s : State) : Nat := s.before.length + 1 + s.after.length

/-- R340: change the outbound channel of the stage in focus, which is the inbound channel of stage (i+1) mod N: the stage
after it, or stage 0 for the last one, or its own for N = 1. -/
def State.mapOutbound (f : Channel → Channel) (s : State) : State :=
  match s.after with
  | next :: rest => { s with after := { next with inbound := f next.inbound } :: rest }
  | [] =>
    match s.before with
    | first :: rest => { s with before := { first with inbound := f first.inbound } :: rest }
    | [] => { s with cur := { s.cur with inbound := f s.cur.inbound } }

/-- R340: the outbound channel of the stage in focus. -/
def State.outbound (s : State) : Channel :=
  match s.after with
  | next :: _ => next.inbound
  | [] =>
    match s.before with
    | first :: _ => first.inbound
    | [] => s.cur.inbound

/-- R340: change the inbound channel of the stage in focus. -/
def State.mapInbound (f : Channel → Channel) (s : State) : State :=
  { s with cur := { s.cur with inbound := f s.cur.inbound } }

/-- R325 `send`: it never blocks, and drops the value when the receiver has gone. -/
def Channel.send (v : Word) (ch : Channel) : Channel :=
  if ch.receiverAlive then { ch with queue := ch.queue ++ [v] } else ch

/-- R325 `receive`: what it does on a channel. -/
inductive Receive where
  | value (v : Word) (ch : Channel)
  | blocked
deriving DecidableEq, Repr

/-- R325 `receive`: the oldest value; on an empty channel it blocks while the sender is connected, and for a sender that is
gone `READ_ON_CLOSED` decides. Blocking forever is blocking at every step. -/
def Channel.receive (onClosed : ReadOnClosed) (ch : Channel) : Receive :=
  match ch.queue with
  | v :: rest => .value v { ch with queue := rest }
  | [] =>
    if ch.senderConnected then .blocked
    else
      match onClosed with
      | .zero => .value Word.zero ch
      | .block => .blocked

/-! ## The four calls -/

/-- Replace the host state of the capability in focus. -/
def State.setCap (s : State) (c : Capability) : State := { s with cur := { s.cur with cap := c } }

/-- R330: the controller's answer to `CapShouldHalt()`, and the controller after the call. -/
def Controller.answerHalt (c : Controller) : Bool × Controller :=
  match c.halts with
  | b :: rest => (b, { c with halts := rest, history := c.history ++ [.shouldHalt b] })
  | [] =>
    (Config.controllerHalts c.history,
      { c with history := c.history ++ [.shouldHalt (Config.controllerHalts c.history)] })

/-- R330, R333: the controller's answer to `CapRead()`; none is "stays blocked". -/
def Controller.pendingRead (c : Controller) : Option Word :=
  match c.reads with
  | r :: _ => r
  | [] => Config.controllerReads c.history

/-- R330: the controller after it has answered `CapRead()` with `v`. -/
def Controller.afterRead (v : Word) (c : Controller) : Controller :=
  { c with reads := c.reads.drop 1, history := c.history ++ [.read v] }

/-- R330: the controller after a call that returns nothing. -/
def Controller.note (e : CapEvent) (c : Controller) : Controller :=
  { c with history := c.history ++ [e] }

/-- R30: `CapShouldHalt()`. R320, R329: buffered replay and channel-connected stage answer false. -/
def capShouldHalt (s : State) : Bool × State :=
  match s.cur.cap with
  | .replay _ _ => (false, s)
  | .stage _ => (false, s)
  | .controller c => (c.answerHalt.1, s.setCap (.controller c.answerHalt.2))

/-- R28: what `CapRead()` answers. -/
inductive ReadAnswer where
  | value (v : Word) (s : State)   -- an `int64`, and the state after the call
  | blocked                        -- the call cannot answer yet (R125)
  | exhausted                      -- `InputExhausted` (R321)
deriving DecidableEq, Repr

/-- R28: `CapRead()`. R321: buffered replay gives the head of its queue and fails on an empty one. R326: a
channel-connected stage receives on its inbound channel. R330: a controller answers what it answers. -/
def capRead (s : State) : ReadAnswer :=
  match s.cur.cap with
  | .replay (v :: rest) outl => .value v (s.setCap (.replay rest outl))
  | .replay [] _ => .exhausted
  | .stage _ =>
    match s.cur.inbound.receive s.cfg.readOnClosed with
    | .value v ch => .value v (s.mapInbound fun _ => ch)
    | .blocked => .blocked
  | .controller c =>
    match c.pendingRead with
    | some v => .value v (s.setCap (.controller (c.afterRead v)))
    | none => .blocked

/-- R29: `CapWrite(v)`. R322: buffered replay appends. R327: a channel-connected stage records `v` as the last value
written, delivered or not, and sends it. -/
def capWrite (v : Word) (s : State) : State :=
  match s.cur.cap with
  | .replay inq outl => s.setCap (.replay inq (outl ++ [v]))
  | .stage _ => (s.setCap (.stage (some v))).mapOutbound (Channel.send v)
  | .controller c => s.setCap (.controller (c.note (.write v)))

/-- R31: `CapOnFinished()`. R320, R332: nothing for buffered replay. R329: nothing for a channel-connected stage but the
final one, which writes the last value it wrote to the result cell. -/
def capOnFinished (s : State) : State :=
  match s.cur.cap with
  | .replay _ _ => s
  | .stage last => if s.after = [] then { s with result := last } else s
  | .controller c => s.setCap (.controller (c.note .finished))

/-- R328: when a stage's run ends, its inbound receiver is no longer alive and its outbound sender no longer connected. The
other policies own no channel. -/
def releaseEndpoints (s : State) : State :=
  match s.cur.cap with
  | .stage _ =>
    (s.mapInbound fun ch => { ch with receiverAlive := false }).mapOutbound
      fun ch => { ch with senderConnected := false }
  | .replay _ _ => s
  | .controller _ => s

end Sys2Proof.Machine
end

