-- ==== Sys2Proof/Machine/Ops.lean ====
section
/-! DEFINITION. The operations every instruction goes through: the registers (R15), the memory primitives (R52, R53, R57), the
advance of `pc` (R118), and the end of a run, by a halt (R120) and by a fault (R123). -/

namespace Sys2Proof.Machine

/-! ## Registers -/

/-- R20: the memory of the executor in focus. -/
abbrev State.mem (s : State) : Memory := s.cur.exe.mem

/-- R21: the cursor of the executor in focus. -/
abbrev State.pc (s : State) : Nat := s.cur.exe.pc

/-- R22: the relative base of the executor in focus. -/
abbrev State.rb (s : State) : Word := s.cur.exe.rb

/-- R23: the run state of the executor in focus. -/
abbrev State.run (s : State) : RunState := s.cur.exe.run

/-- R24: the finished latch of the executor in focus. -/
abbrev State.finished (s : State) : Bool := s.cur.exe.finished

def State.setMem (s : State) (m : Memory) : State :=
  { s with cur := { s.cur with exe := { s.cur.exe with mem := m } } }

def State.setPc (s : State) (pc : Nat) : State :=
  { s with cur := { s.cur with exe := { s.cur.exe with pc := pc } } }

def State.setRb (s : State) (rb : Word) : State :=
  { s with cur := { s.cur with exe := { s.cur.exe with rb := rb } } }

def State.setRun (s : State) (r : RunState) : State :=
  { s with cur := { s.cur with exe := { s.cur.exe with run := r } } }

def State.setFinished (s : State) (b : Bool) : State :=
  { s with cur := { s.cur with exe := { s.cur.exe with finished := b } } }

/-! ## The memory tape -/

/-- The value a list of cells gives an address; R55: 0 where none is listed. -/
def cellsRead : List (Nat × Word) → Nat → Word
  | [], _ => Word.zero
  | (k, v) :: rest, a => if k = a then v else cellsRead rest a

/-- Store into a sorted list of cells, keeping it sorted and free of zeros. -/
def cellsWrite : List (Nat × Word) → Nat → Word → List (Nat × Word)
  | [], a, v => if v = Word.zero then [] else [(a, v)]
  | (k, x) :: rest, a, v =>
    if a < k then (if v = Word.zero then (k, x) :: rest else (a, v) :: (k, x) :: rest)
    else if k = a then (if v = Word.zero then rest else (a, v) :: rest)
    else (k, x) :: cellsWrite rest a v

/-- The contents of cell `a` (R14 `mem[a]`). -/
def Memory.read (m : Memory) (a : Nat) : Word := cellsRead m.cells a

/-- R52, R53, R54: growth "up to and including that index", in the one place both reads and writes use. The cells grown over
are not listed, so they read 0. -/
def Memory.grow (m : Memory) (a : Nat) : Memory := { m with len := max m.len (a + 1) }

/-- R53: the store, with its growth. -/
def Memory.write (m : Memory) (a : Nat) (v : Word) : Memory :=
  { cells := cellsWrite m.cells a v, len := max m.len (a + 1) }

/-- The cells of a program from index `i` on that do not hold 0. -/
def programCells : Nat → List Word → List (Nat × Word)
  | _, [] => []
  | i, v :: rest => if v = Word.zero then programCells (i + 1) rest else (i, v) :: programCells (i + 1) rest

/-- R38, R400: a memory that is a copy of the program. -/
def Memory.ofProgram (prog : List Word) : Memory :=
  { cells := programCells 0 prog, len := prog.length }

/-- Cells at strictly rising addresses from `low` on, below `len`, none of them holding 0. -/
def cellsWf (len : Nat) : Nat → List (Nat × Word) → Bool
  | _, [] => true
  | low, (k, v) :: rest => decide (low ≤ k) && decide (k < len) && decide (v ≠ Word.zero) && cellsWf len (k + 1) rest

/-- The canonical form of a memory: equal memories are equal data. R51 bounds its length. -/
def Memory.wf (m : Memory) : Bool := cellsWf m.len 0 m.cells && decide (m.len ≤ maxAddr + 1)

/-! ## Attempts -/

/-- The result of an operation inside an instruction: it goes on with a value, or the first fault stops the instruction
(R116). Either way the state holds what has happened so far. -/
inductive Attempt (α : Type) where
  | ok (a : α) (s : State)
  | fault (f : ExecFault) (s : State)
deriving DecidableEq, Repr

/-- R116: "The first fault raised stops the instruction." -/
def Attempt.andThen {α β : Type} (x : Attempt α) (k : α → State → Attempt β) : Attempt β :=
  match x with
  | .ok a s => k a s
  | .fault f s => .fault f s

/-- Go on with a checked value, or fault. -/
def attempt {α : Type} (x : Except ExecFault α) (s : State) : Attempt α :=
  match x with
  | .ok a => .ok a s
  | .error f => .fault f s

/-! ## Addresses and accesses -/

/-- R51, R52, R57: an address is an integer in [0, 2^63-1]. -/
def legalAddress (a : Int) : Except ExecFault Nat :=
  if a < 0 then .error (.negativeAddress a)
  else if a > maxInt64 then .error (.addressOverflow a)
  else .ok a.toNat

/-- R52, R53, R56: the checks at the top of both memory primitives. -/
def accessCheck (cfg : Config) (a : Int) : Except ExecFault Nat :=
  match legalAddress a with
  | .error f => .error f
  | .ok n =>
    match cfg.memLimit with
    | none => .ok n
    | some limit => if limit ≤ n then .error (.memoryExhausted a) else .ok n

/-- R52: `MemRead(a, 1)`. -/
def memRead (a : Int) (s : State) : Attempt Word :=
  match accessCheck s.cfg a with
  | .error f => .fault f s
  | .ok n => .ok (s.mem.read n) (s.setMem (s.mem.grow n))

/-- R53: `MemWrite(a, 1, v)`. -/
def memWrite (a : Int) (v : Word) (s : State) : Attempt Unit :=
  match accessCheck s.cfg a with
  | .error f => .fault f s
  | .ok n => .ok () (s.setMem (s.mem.write n v))

/-- R118: the `pc` after an instruction of length `len` that does not jump. -/
def nextPc (len : Nat) (s : State) : Except ExecFault Nat :=
  if s.pc + len ≤ maxAddr then .ok (s.pc + len) else .error (.addressOverflow ((s.pc + len : Nat) : Int))

/-- R118: advance. -/
def advance (len : Nat) (s : State) : Attempt Unit :=
  (attempt (nextPc len s) s).andThen fun pc s => .ok () (s.setPc pc)

/-- R116 steps 4 and 5: the single memory write, then the advance. Their checks come in R302's order (7, then 8), and a
fault of either leaves the memory unwritten (R303; notes/assumptions/7.md). -/
def storeAndAdvance (d : Nat) (v : Word) (len : Nat) (s : State) : Attempt Unit :=
  (memWrite d v s).andThen fun _ stored =>
    (attempt (nextPc len s) s).andThen fun pc _ => .ok () (stored.setPc pc)

/-- R116 steps 4 and 5 for the relative base (R180), with R303 as in `storeAndAdvance`. -/
def rebaseAndAdvance (rb : Word) (len : Nat) (s : State) : Attempt Unit :=
  (attempt (nextPc len s) s).andThen fun pc s => .ok () ((s.setRb rb).setPc pc)

/-- R160, R162: a taken jump. -/
def jumpTo (t : Word) (s : State) : Attempt Unit :=
  if t.val < 0 then .fault (.negativeAddress t.val) s else .ok () (s.setPc t.val.toNat)

/-! ## The end of a run -/

/-- R120: the Halted transition, for opcode 99 and for a true `CapShouldHalt()`: the run state, then `CapOnFinished()`, then
the latch. R328: a stage's endpoints are released in the same step. `pc` is unchanged. -/
def enterHalted (s : State) : State :=
  releaseEndpoints ((capOnFinished (s.setRun .halted)).setFinished true)

/-- R123: fault `f` ends the run: the run state holds it with the `pc` of the instruction (R300). There is no trap entry: no
state is saved and no handler runs (R304), and `CapOnFinished()` is not called (R122). R328: a stage's endpoints are
released in the same step. -/
def enterFaulted (f : ExecFault) (s : State) : State :=
  releaseEndpoints (s.setRun (.faulted f s.pc))

/-- The state an instruction leaves: it completed, or a fault ended the run. -/
def settled (x : Attempt Unit) : State :=
  match x with
  | .ok _ s => s
  | .fault f s => enterFaulted f s

/-- An instruction's outcome. Taking a fault is a next state, as R123 says: the step after it answers with the fault. -/
def settle (x : Attempt Unit) : Host.Outcome State Fault Refusal := .next (settled x)

end Sys2Proof.Machine
end

