-- ==== Sys2Proof/Machine/Operands.lean ====
section
/-! DEFINITION. The operands of an instruction: address formation (R57), a source operand's value in each mode (R112 to R114)
and a destination's address (R115), with the growth their reads cause. After them the same operands as pure functions of
memory, modes, `pc` and `rb` (R128), in which statements are written. -/

namespace Sys2Proof.Machine

/-- R57: `EA(mode, P(k))`. The sum is exact. R58, R89: Immediate mode has no address; as a destination it is illegal, which the
decoder has already refused. -/
def effectiveAddress (k : Nat) (m : Mode) (p rb : Word) : Except ExecFault Nat :=
  match m with
  | .pos => legalAddress p.val
  | .rel => legalAddress (rb.val + p.val)
  | .imm => .error (.illegalWriteMode k)

/-- R16, R111: `P(k) := MemRead(pc + k, 1)`. -/
def paramWord (k : Nat) (s : State) : Attempt Word := memRead ((s.pc + k : Nat) : Int) s

/-- R112 to R114: `val(k)`. The parameter word is fetched and at once resolved (R116). -/
def sourceOperand (k : Nat) (m : Mode) (s : State) : Attempt Word :=
  (paramWord k s).andThen fun p s =>
    match m with
    | .imm => .ok p s
    | .pos => (attempt (effectiveAddress k .pos p s.rb) s).andThen fun a s => memRead (a : Int) s
    | .rel => (attempt (effectiveAddress k .rel p s.rb) s).andThen fun a s => memRead (a : Int) s

/-- R115: `addr(k)`. It "reads no memory beyond the fetch of `P(k)`". -/
def destOperand (k : Nat) (m : Mode) (s : State) : Attempt Nat :=
  (paramWord k s).andThen fun p s => attempt (effectiveAddress k m p s.rb) s

/-! ## The same operands as pure functions (R128) -/

/-- The value `MemRead(a, 1)` gives, without the growth. -/
def peek (s : State) (a : Int) : Except ExecFault Word :=
  match accessCheck s.cfg a with
  | .error f => .error f
  | .ok n => .ok (s.mem.read n)

/-- `val(k)` without the growth (R112 to R114). -/
def operandValue (k : Nat) (m : Mode) (s : State) : Except ExecFault Word :=
  match peek s ((s.pc + k : Nat) : Int) with
  | .error f => .error f
  | .ok p =>
    match m with
    | .imm => .ok p
    | .pos => peek s p.val
    | .rel => peek s (s.rb.val + p.val)

/-- `addr(k)` without the growth (R115). -/
def operandAddress (k : Nat) (m : Mode) (s : State) : Except ExecFault Nat :=
  match peek s ((s.pc + k : Nat) : Int) with
  | .error f => .error f
  | .ok p => effectiveAddress k m p s.rb

/-- The greatest cell the read of source operand `k` touches: its parameter word, and the cell it names. Memory grows up to
and including it. -/
def sourceReach (k : Nat) (m : Mode) (s : State) : Nat :=
  match m with
  | .imm => s.pc + k
  | .pos => max (s.pc + k) (s.mem.read (s.pc + k)).val.toNat
  | .rel => max (s.pc + k) (s.rb.val + (s.mem.read (s.pc + k)).val).toNat

end Sys2Proof.Machine
end

