-- ==== Sys2Proof/Machine/Arithmetic.lean ====
section
/-! DEFINITION. ADD and MUL (spec/41_arithmetic.md), over the shape the four three-operand instructions share. -/

namespace Sys2Proof.Machine

/-- R116 for an instruction with two sources and a destination, length 4: `a := val(1); b := val(2); d := addr(3)`, the
result, the write, the advance. -/
def computeInto (f : Word → Word → Except ExecFault Word) (m1 m2 m3 : Mode) (s : State) : Attempt Unit :=
  (sourceOperand 1 m1 s).andThen fun a s =>
    (sourceOperand 2 m2 s).andThen fun b s =>
      (destOperand 3 m3 s).andThen fun d s =>
        (attempt (f a b) s).andThen fun r s => storeAndAdvance d r 4 s

/-- R140: ADD. -/
def execAdd (m1 m2 m3 : Mode) (s : State) : Host.Outcome State Fault Refusal :=
  settle (computeInto sumResult m1 m2 m3 s)

/-- R141: MUL. -/
def execMul (m1 m2 m3 : Mode) (s : State) : Host.Outcome State Fault Refusal :=
  settle (computeInto productResult m1 m2 m3 s)

end Sys2Proof.Machine
end

