-- ==== Sys2Proof/Machine/Compare.lean ====
section
/-! DEFINITION. LT and EQ (spec/44_compare.md). -/

namespace Sys2Proof.Machine

/-- R170: LT. -/
def execLt (m1 m2 m3 : Mode) (s : State) : Host.Outcome State Fault Refusal :=
  settle (computeInto lessResult m1 m2 m3 s)

/-- R171: EQ. -/
def execEq (m1 m2 m3 : Mode) (s : State) : Host.Outcome State Fault Refusal :=
  settle (computeInto equalResult m1 m2 m3 s)

end Sys2Proof.Machine
end

