-- ==== Sys2Proof/Machine/Halt.lean ====
section
/-! DEFINITION. HALT (spec/46_halt.md). -/

namespace Sys2Proof.Machine

/-- R190: HALT. It fetches no parameter and leaves `pc` unchanged. -/
def execHalt (s : State) : Host.Outcome State Fault Refusal := .next (enterHalted s)

end Sys2Proof.Machine
end

