-- ==== Sys2Proof/Machine/InputOutput.lean ====
section
/-! DEFINITION. IN and OUT (spec/42_io.md), each with exactly one capability call (R152). -/

namespace Sys2Proof.Machine

/-- R150: IN. The address comes before the call, the call before the write. An instruction whose `CapRead()` cannot answer
yet is not taken: the executor is held with its state as before (R125). -/
def execInp (m1 : Mode) (s : State) : Host.Outcome State Fault Refusal :=
  match destOperand 1 m1 s with
  | .fault f s1 => .next (enterFaulted f s1)
  | .ok d s1 =>
    match capRead s1 with
    | .value v s2 => settle (storeAndAdvance d v 2 s2)
    | .blocked => .next s
    | .exhausted => .next (enterFaulted .inputExhausted s1)

/-- R151: OUT. -/
def execOut (m1 : Mode) (s : State) : Host.Outcome State Fault Refusal :=
  settle ((sourceOperand 1 m1 s).andThen fun v s => advance 2 (capWrite v s))

end Sys2Proof.Machine
end

