-- ==== Sys2Proof/Machine/Jumps.lean ====
section
/-! DEFINITION. JNZ and JZ (spec/43_jumps.md). Both operands are read whether or not the jump is taken. -/

namespace Sys2Proof.Machine

/-- R160, R161: `c := val(1); t := val(2)`, then the jump to t if the condition holds of c, else the advance by 3. -/
def jumpWhen (taken : Word → Bool) (m1 m2 : Mode) (s : State) : Attempt Unit :=
  (sourceOperand 1 m1 s).andThen fun c s =>
    (sourceOperand 2 m2 s).andThen fun t s => if taken c then jumpTo t s else advance 3 s

/-- R160: JNZ, taken for any nonzero value, negative ones included. -/
def execJnz (m1 m2 : Mode) (s : State) : Host.Outcome State Fault Refusal :=
  settle (jumpWhen (fun c => decide (c.val ≠ 0)) m1 m2 s)

/-- R161: JZ. -/
def execJz (m1 m2 : Mode) (s : State) : Host.Outcome State Fault Refusal :=
  settle (jumpWhen (fun c => decide (c.val = 0)) m1 m2 s)

end Sys2Proof.Machine
end

