-- ==== Sys2Proof/Machine/RelativeBase.lean ====
section
/-! DEFINITION. ARB (spec/45_relative_base.md). -/

namespace Sys2Proof.Machine

/-- R180: ARB. The operand is read with the old `rb`. -/
def execArb (m1 : Mode) (s : State) : Host.Outcome State Fault Refusal :=
  settle ((sourceOperand 1 m1 s).andThen fun v s =>
    (attempt (sumResult s.rb v) s).andThen fun r s => rebaseAndAdvance r 2 s)

end Sys2Proof.Machine
end

