-- ==== Sys2Proof/Machine/Fetch.lean ====
section
/-! DEFINITION. The part of an executor's step before dispatch (R110, R111, R125): the should_halt check, the wait, the fetch and
the decode. -/

namespace Sys2Proof.Machine

/-- R111: `w := MemRead(pc, 1)`, then `decode(w)`. -/
def fetch (s : State) : Attempt Instr :=
  (memRead (s.pc : Int) s).andThen fun w s => attempt (decode w) s

/-- Whether `CapRead()` could not answer now. -/
def readBlocked (s : State) : Bool :=
  match capRead s with
  | .value _ _ => false
  | .blocked => true
  | .exhausted => false

/-- R125, R310: whether the executor waits, that is, whether the step is not enabled: its instruction is an IN that faults
neither at its fetch nor at its address, and the read cannot answer. -/
def waits (s : State) : Bool :=
  match fetch s with
  | .fault _ _ => false
  | .ok i s1 =>
    match i with
    | .inp m1 =>
      match destOperand 1 m1 s1 with
      | .ok _ s2 => readBlocked s2
      | .fault _ _ => false
    | .add _ _ _ => false
    | .mul _ _ _ => false
    | .out _ => false
    | .jnz _ _ => false
    | .jz _ _ => false
    | .lt _ _ _ => false
    | .eq _ _ _ => false
    | .arb _ => false
    | .halt => false

/-- What a step of an executor comes to before an instruction is executed. -/
inductive Begin where
  /-- R119: the step goes on to execute this instruction. -/
  | execute (i : Instr) (s : State)
  /-- The step is over: the run halted (R110), faulted (R111, R123), or is held (R125). -/
  | over (s : State)
deriving DecidableEq, Repr

/-- R110, R111, R125: the step of a Running executor up to the dispatch. A true `CapShouldHalt()` halts the run before
anything is fetched. A step that waits is not taken: the executor and its host side keep the state they had before the
step, since only calls change a host state (R32), and the should_halt check of such a step is not made
(notes/assumptions/16.md). -/
def beginStep (s : State) : Begin :=
  let s1 := (capShouldHalt s).2
  if (capShouldHalt s).1 then .over (enterHalted s1)
  else if waits s1 then .over s
  else
    match fetch s1 with
    | .ok i s2 => .execute i s2
    | .fault f s2 => .over (enterFaulted f s2)

/-- The instruction's cells, as the host numbers its bits, stored at `pc` and after it (`withFetchWord`). The longest
instruction has four cells (R82). -/
def storeFetchWord (s : State) (nbits w : Nat) : State :=
  let m0 := s.mem.write s.pc (tableCell nbits w 0)
  let m1 := m0.write (s.pc + 1) (tableCell nbits w 1)
  let m2 := m1.write (s.pc + 2) (tableCell nbits w 2)
  s.setMem (m2.write (s.pc + 3) (tableCell nbits w 3))

end Sys2Proof.Machine
end

