-- ==== Sys2Proof/Machine/Boot.lean ====
section
/-! DEFINITION. The start of a run (R400): from a program and a capability the caller has built. -/

namespace Sys2Proof.Machine

/-- R400: a stage with a new executor over its own copy of the program (R403). -/
def Stage.start (prog : List Word) (cap : Capability) (inbound : Channel) : Stage :=
  { exe := Executor.start (Memory.ofProgram prog), cap := cap, inbound := inbound, join := .running }

/-- R400: put a run of one executor, from reset, in the place of whatever ran before. Nothing of it carries over (R403). -/
def State.startRun (cap : Capability) (s : State) : State :=
  { s with before := [], cur := Stage.start s.prog cap (Channel.fresh []), after := [], result := none }

/-- R400: the machine at the start of a job over a program, with its parameters. -/
def State.start (cfg : Config) (prog : List Word) (cap : Capability) (job : Job) : State :=
  { cfg := cfg
    prog := prog
    before := []
    cur := Stage.start prog cap (Channel.fresh [])
    after := []
    result := none
    job := job
    search := none
    schedule := []
    turns := 0 }

/-- R323: `run(program, inputs)` at its start. -/
def State.startReplay (cfg : Config) (prog inputs : List Word) : State :=
  State.start cfg prog (.replay inputs []) .run

/-- R323: the outputs of a run under buffered replay. -/
def State.outputs (s : State) : List Word :=
  match s.cur.cap with
  | .replay _ outl => outl
  | .stage _ => []
  | .controller _ => []

end Sys2Proof.Machine
end

