-- ==== Sys2Proof/Machine/Pipeline.lean ====
section
/-! DEFINITION. The orchestrator of the ring (R340 to R348, R404), the sequential chain (R351, R352) and the search over
permutations (R353): what the machine does between the steps of its executors. -/

namespace Sys2Proof.Machine

/-! ## Which stage moves next -/

/-- Put stage `k` in focus; a number that names no stage leaves the focus where it is. -/
def State.focus (k : Nat) (s : State) : State :=
  match s.stages.drop k with
  | chosen :: rest => { s with before := s.stages.take k, cur := chosen, after := rest }
  | [] => s

/-- R345: the choice of the stage that moves next is free: it is the next one written in `schedule`, and a free value when
none is written. -/
def State.nextTurn (s : State) : State :=
  match s.schedule with
  | k :: rest => { s.focus (k % s.stageCount) with schedule := rest, turns := s.turns + 1 }
  | [] => { s.focus (Config.nextStage s.turns % s.stageCount) with turns := s.turns + 1 }

/-! ## The end of a job -/

/-- The greater of the best result so far and a new one (R353: "a pure reduction (maximum)"). -/
def better (best : Option Word) (v : Word) : Word :=
  match best with
  | none => v
  | some b => if b.val < v.val then v else b

/-- A job ends with a result. R353: inside a search, a value goes into the maximum and the search goes on, and a fault is the
search's. -/
def finishJob (r : JobResult) (s : State) : State :=
  match s.search with
  | none => { s with job := .done r }
  | some sr =>
    match r with
    | .value v => { s with search := some { sr with best := some (better sr.best v) }, job := .nextEvaluation }
    | .noMaximum => { s with search := none, job := .done .noMaximum }
    | .fault f => { s with search := none, job := .done (.fault f) }

/-! ## The ring -/

/-- R342: the first launch premise that does not hold, if one does not. DESIGN CHOICE (notes/assumptions/21.md): where several do
not hold the spec gives no order among them; they are checked as N < 1, then the number of phases, then their
distinctness, and the rule's "N distinct int64 values" is recorded as the latter two. -/
def launchPremise (n : Nat) (phases : List Word) : Option LaunchPremise :=
  if n < 1 then some .noStages
  else if phases.length ≠ n then some .phaseCount
  else if phases.Nodup then none
  else some .phasesNotDistinct

/-- R343: a stage with its phase setting in its inbound channel, and R344: its own executor over a private copy of the
program. -/
def seededStage (prog : List Word) (queue : List Word) : Stage :=
  Stage.start prog (.stage none) (Channel.fresh queue)

/-- R404, R342 to R344: check the premises, create and seed the channels (channel 0 gets the initial feedback too), launch
the stages. -/
def launchRing (phases : List Word) (s : State) : State :=
  match launchPremise s.cfg.nStages phases with
  | some reason => finishJob (.fault (.badLaunch reason)) s
  | none =>
    match phases with
    | [] => finishJob (.fault (.badLaunch .noStages)) s
    | p0 :: rest =>
      State.nextTurn
        { s with
          before := []
          cur := seededStage s.prog [p0, initialFeedback]
          after := rest.map fun p => seededStage s.prog [p]
          result := none
          job := .ring }

/-- R346: whether a stage's run has ended, in Halted or Faulted. -/
def Stage.ended (st : Stage) : Bool :=
  match st.exe.run with
  | .running => false
  | .halted => true
  | .faulted _ _ => true

/-- R37: a stage that the orchestrator has joined. -/
def Stage.joined (st : Stage) : Stage := { st with join := .joined }

/-- R346: the orchestrator joins the stage in focus, whose run has ended. -/
def joinStage (s : State) : State := { s with cur := s.cur.joined }

/-- R346: whether every stage has ended, which is what the orchestrator waits for. -/
def allEnded (s : State) : Bool := s.stages.all Stage.ended

/-- R346: the join of all stages. -/
def joinAll (s : State) : State :=
  { s with before := s.before.map Stage.joined, cur := s.cur.joined, after := s.after.map Stage.joined }

/-- R347: the least faulted stage from stage `i` on, with its fault. -/
def firstFault : Nat → List Stage → Option Fault
  | _, [] => none
  | i, st :: rest =>
    match st.exe.run with
    | .faulted f pc => some (.stageFaulted i f pc)
    | .running => firstFault (i + 1) rest
    | .halted => firstFault (i + 1) rest

/-- R346, R347: the outcome of the ring, read at the join of all stages. -/
def ringResult (s : State) : JobResult :=
  match firstFault 0 s.stages with
  | some f => .fault f
  | none =>
    match s.result with
    | some v => .value v
    | none => .fault .noResult

/-! ## The chain -/

/-- R351: go on to the stage with the first of these phases, or return the signal. -/
def chainFrom (i : Nat) (signal : Word) (phases : List Word) (s : State) : State :=
  match phases with
  | [] => finishJob (.value signal) s
  | p :: rest => { s.startRun (.replay [p, signal] []) with job := .chain i signal rest }

/-- R351, R352: stage `i` has halted: its single output is the next signal. -/
def chainNext (i : Nat) (rest : List Word) (s : State) : State :=
  match s.outputs with
  | [v] => chainFrom (i + 1) v rest s
  | outs => finishJob (.fault (.chainOutputCount i outs.length)) s

/-! ## The search -/

/-- R353: start a search over the caller's permutations. -/
def State.startSearch (cfg : Config) (prog : List Word) (kind : Evaluation) (perms : List (List Word)) : State :=
  { State.start cfg prog (.replay [] []) .nextEvaluation with
    search := some { kind := kind, pending := perms, best := none } }

/-- R353: evaluate the next permutation, or end with the maximum. -/
def nextEvaluation (s : State) : State :=
  match s.search with
  | none => { s with job := .done .noMaximum }
  | some sr =>
    match sr.pending with
    | p :: rest =>
      { s with
        search := some { sr with pending := rest }
        job :=
          match sr.kind with
          | .chain => .launchChain p
          | .ring => .launchRing p }
    | [] =>
      { s with
        search := none
        job :=
          match sr.best with
          | some v => .done (.value v)
          | none => .done .noMaximum }

/-! ## The machine's next move -/

/-- What moves next. -/
inductive Move where
  /-- The executor in focus takes a step. -/
  | executor
  /-- The orchestrator, or the chain or the search, moves; or nothing is left to do and the state stays. -/
  | host (s : State)
  /-- The job has ended with a fault, which is all that is reported (R301, R39). -/
  | stop (f : Fault)
deriving DecidableEq, Repr

/-- Which agent moves (R341): an executor only while it is Running (R110, R23). In a ring whose stages have all ended the orchestrator
moves, whatever stage is in focus and whatever the schedule says: it joins them all and reads the result (R346). Before
that, a turn of a stage that has ended only joins it (notes/assumptions/12.md). -/
def nextMove (s : State) : Move :=
  match s.job with
  | .run =>
    match s.run with
    | .running => .executor
    | .halted => .host s
    | .faulted f pc => .stop (.executor f pc)
  | .launchRing phases => .host (launchRing phases s)
  | .ring =>
    if allEnded s then .host (finishJob (ringResult s) (joinAll s))
    else
      match s.run with
      | .running => .executor
      | .halted => .host (joinStage s).nextTurn
      | .faulted _ _ => .host (joinStage s).nextTurn
  | .launchChain phases => .host (chainFrom 0 Word.zero phases s)
  | .chain i _ rest =>
    match s.run with
    | .running => .executor
    | .halted => .host (chainNext i rest s)
    | .faulted f pc => .host (finishJob (.fault (.executor f pc)) s)
  | .nextEvaluation => .host (nextEvaluation s)
  | .done r =>
    match r with
    | .value _ => .host s
    | .noMaximum => .host s
    | .fault f => .stop f

/-- R345: after an executor's step in a ring, the next stage is chosen. -/
def afterTurn (s : State) : State :=
  match s.job with
  | .ring => s.nextTurn
  | .run => s
  | .launchRing _ => s
  | .launchChain _ => s
  | .chain _ _ _ => s
  | .nextEvaluation => s
  | .done _ => s

/-- Go on after the next state of an outcome. -/
def thenNext (x : Host.Outcome State Fault Refusal) (k : State → State) : Host.Outcome State Fault Refusal :=
  match x with
  | .next s => .next (k s)
  | .fault f => .fault f
  | .refused r => .refused r

end Sys2Proof.Machine
end

