-- ==== Sys2Proof/Machine/Step.lean ====
section
/-! DEFINITION. One step of the machine: the executor in focus takes its step (R110, R111, R119, R124), or the orchestrator, the
chain or the search moves. -/

namespace Sys2Proof.Machine

/-- R124: the step of a Running executor. -/
def executorStep (s : State) : Host.Outcome State Fault Refusal :=
  match beginStep s with
  | .execute i s1 => exec i s1
  | .over s1 => .next s1

/-- One step. A state whose job has ended normally stays (R23: "no step leaves them"); one that has ended with a fault
answers with that fault. -/
def step (s : State) : Host.Outcome State Fault Refusal :=
  match nextMove s with
  | .executor => thenNext (executorStep s) afterTurn
  | .host s1 => .next s1
  | .stop f => .fault f

/-- The state with an instruction, given by its bits, at the place the next step fetches from: the cells at `pc` and after it.
A program comes to run by being loaded from outside the machine (R7, R400); notes/assumptions/2.md. -/
def State.withFetchWord (s : State) (nbits w : Nat) : State := storeFetchWord s nbits w

end Sys2Proof.Machine
end

