-- ==== Sys2Proof/Machine/Assembler.lean ====
section
/-! DEFINITION. The spec's own assembler notation (R99, R100), as data: operand forms, lines with labels, the pseudo-instructions and
the cells they assemble to. Labels are numbers here. -/

namespace Sys2Proof.Machine

/-- R99: "A label stands for its address and may appear as the a of `[a]` or the v of `#v`." -/
inductive AsmRef where
  | value (v : Word)
  | label (l : Nat)
deriving DecidableEq, Repr

/-- R99: `[a]`, `#v` and `[rb+o]`. -/
inductive AsmOperand where
  | pos (a : AsmRef)
  | imm (v : AsmRef)
  | rel (o : Word)
deriving DecidableEq, Repr

/-- R99, R100: the body of a line. Operands stand in parameter order, the destination last. -/
inductive AsmBody where
  | op (o : Opcode) (operands : List AsmOperand)
  | data (cells : List Word)
  | jmp (t : AsmOperand)
  | mov (s d : AsmOperand)
deriving DecidableEq, Repr

/-- R99: a line, with its label if it has one. -/
structure AsmLine where
  label : Option Nat
  body : AsmBody
deriving DecidableEq, Repr

/-- R100: `JMP t` expands to `JNZ #1, t`, and `MOV s, d` to `ADD s, #0, d`. -/
def AsmBody.expand (b : AsmBody) : AsmBody :=
  match b with
  | .op o operands => .op o operands
  | .data cells => .data cells
  | .jmp t => .op .jnz [.imm (.value (word 1)), t]
  | .mov s d => .op .add [s, .imm (.value (word 0)), d]

/-- R81: how many cells a line takes. -/
def AsmBody.size (b : AsmBody) : Nat :=
  match b.expand with
  | .op _ operands => operands.length + 1
  | .data cells => cells.length
  | .jmp _ => 3
  | .mov _ _ => 4

/-- R99: the mode an operand form encodes. -/
def AsmOperand.mode : AsmOperand → Mode
  | .pos _ => .pos
  | .imm _ => .imm
  | .rel _ => .rel

/-- The address of every label, with the first line at address `at0`. -/
def labelTable : Nat → List AsmLine → List (Nat × Nat)
  | _, [] => []
  | at0, line :: rest =>
    match line.label with
    | some l => (l, at0) :: labelTable (at0 + line.body.size) rest
    | none => labelTable (at0 + line.body.size) rest

/-- The word a reference stands for. -/
def AsmRef.resolve (table : List (Nat × Nat)) (r : AsmRef) : Option Word :=
  match r with
  | .value v => some v
  | .label l =>
    match table.find? fun e => e.1 == l with
    | some e => Word.ofInt? (e.2 : Int)
    | none => none

/-- R99: the parameter word of an operand. -/
def AsmOperand.paramWord (table : List (Nat × Nat)) (o : AsmOperand) : Option Word :=
  match o with
  | .pos a => a.resolve table
  | .imm v => v.resolve table
  | .rel o => some o

/-- All the words of a list of operands, if each has one. -/
def paramWords (table : List (Nat × Nat)) : List AsmOperand → Option (List Word)
  | [] => some []
  | o :: rest =>
    match o.paramWord table, paramWords table rest with
    | some w, some ws => some (w :: ws)
    | some _, none => none
    | none, _ => none

/-- R99: "An instruction is encoded by rule R94 followed by its parameter words." The number of operands is the opcode's
(R82), and the destination is not Immediate (R89). -/
def encodeOp (table : List (Nat × Nat)) (o : Opcode) (operands : List AsmOperand) : Option (List Word) :=
  let slot := fun k => ((operands[k]?).map AsmOperand.mode).getD .pos
  let d : Decoded := { op := o, m1 := slot 0, m2 := slot 1, m3 := slot 2 }
  if operands.length = o.params ∧ d.legalDest = true then
    match paramWords table operands with
    | some ws => some (d.canonicalWord :: ws)
    | none => none
  else none

/-- The cells of one line. -/
def AsmBody.cells (table : List (Nat × Nat)) (b : AsmBody) : Option (List Word) :=
  match b.expand with
  | .op o operands => encodeOp table o operands
  | .data cells => some cells
  | .jmp _ => none
  | .mov _ _ => none

/-- The cells of lines under a table of labels. -/
def assembleWith (table : List (Nat × Nat)) : List AsmLine → Option (List Word)
  | [] => some []
  | line :: rest =>
    match line.body.cells table, assembleWith table rest with
    | some ws, some more => some (ws ++ more)
    | some _, none => none
    | none, _ => none

/-- R99, R100: a program from its lines, loaded at address 0 (R63). -/
def assemble (lines : List AsmLine) : Option (List Word) := assembleWith (labelTable 0 lines) lines

end Sys2Proof.Machine
end

