-- ==== Sys2Proof/Machine/HostSystem.lean ====
section
/-! DEFINITION. A stateful controller as R330 takes it: "a host transition system: a state type S, an initial state, and four
functions over S that a claim quantifies over or fixes". The machine's own state holds no function: one step under a host
system is one step of the machine whose controller is given the answers of the host system, after which the host system
makes the calls that step made. -/

namespace Sys2Proof.Machine

/-- R330, R28 to R31: the four functions. A read that answers none stays blocked (R333). -/
structure HostSystem (S : Type) where
  read : S → Option (Word × S)
  write : Word → S → S
  shouldHalt : S → Bool × S
  onFinished : S → S

/-- The controller that gives, for one step, the answers of a host system in state `h`: its answer to the should_halt check,
and then its answer to a read, should the step read (R116: the read comes after the check). -/
def HostSystem.answers {S : Type} (H : HostSystem S) (h : S) : Controller :=
  { halts := [(H.shouldHalt h).1]
    reads := [(H.read (H.shouldHalt h).2).map Prod.fst]
    history := [] }

/-- The host system after one call. -/
def HostSystem.call {S : Type} (H : HostSystem S) (h : S) (e : CapEvent) : S :=
  match e with
  | .shouldHalt _ => (H.shouldHalt h).2
  | .read _ =>
    match H.read h with
    | some (_, h1) => h1
    | none => h
  | .write v => H.write v h
  | .finished => H.onFinished h

/-- The host system after the calls recorded in a capability. -/
def HostSystem.afterCalls {S : Type} (H : HostSystem S) (h : S) (c : Capability) : S :=
  match c with
  | .controller c => c.history.foldl H.call h
  | .replay _ _ => h
  | .stage _ => h

/-- R330: one step of a run under a host system. -/
def HostSystem.step {S : Type} (H : HostSystem S) (h : S) (s : State) : Host.Outcome (S × State) Fault Refusal :=
  match Sys2Proof.Machine.step (s.setCap (.controller (H.answers h))) with
  | .next t => .next (H.afterCalls h t.cur.cap, t)
  | .fault f => .fault f
  | .refused r => .refused r

/-- R320 to R322: the buffered replay policy as a host system over its input queue and output list, for as long as the queue
is not empty (on an empty one the policy raises `InputExhausted`, which a host system cannot). -/
def HostSystem.bufferedReplay : HostSystem (List Word × List Word) :=
  { read := fun h =>
      match h.1 with
      | v :: rest => some (v, (rest, h.2))
      | [] => none
    write := fun v h => (h.1, h.2 ++ [v])
    shouldHalt := fun h => (false, h)
    onFinished := fun h => h }

end Sys2Proof.Machine
end

