-- ==== Sys2Proof/Machine/Observe.lean ====
section
/-! DEFINITION. What the caller sees: the observation of a run (R39), the run to its end under fuel (R412), the simple invocation
(R323), and the results of the ring, the chain and the search (R346, R351, R353). -/

namespace Sys2Proof.Machine

/-- R39: the final `mem[0..len-1]`. -/
def Memory.contents (m : Memory) : List Word := (List.range m.len).map m.read

/-- R32: the host state of a capability, per policy: "an input queue, an output list, a channel endpoint or external controller
state". A channel-connected stage owns the receiver endpoint of its inbound channel, with the values it has not received, and
the sender endpoint of its outbound one (R35). -/
inductive HostState where
  /-- R320. -/
  | replay (inq outl : List Word)
  /-- R35, R327: the last value written, the queue and the `alive` flag of the inbound channel, and the `connected` flag of the
  outbound one. -/
  | stage (lastWritten : Option Word) (queue : List Word) (receiverAlive senderConnected : Bool)
  /-- R330. -/
  | controller (c : Controller)
deriving DecidableEq, Repr

/-- R32: the host state of the capability in focus. -/
def State.hostState (s : State) : HostState :=
  match s.cur.cap with
  | .replay inq outl => .replay inq outl
  | .stage last => .stage last s.cur.inbound.queue s.cur.inbound.receiverAlive s.outbound.senderConnected
  | .controller c => .controller c

/-- R39: the caller's observation of a run that has ended. A faulted run is observed by its outcome alone. -/
inductive Observation where
  | halted (cells : List Word) (host : HostState)
  | faulted (f : ExecFault) (pc : Nat)
deriving DecidableEq, Repr

/-- R39: the observation of the run in focus, none while it goes on. The run of stage k of a ring is observed in `s.focus k`. -/
def observe (s : State) : Option Observation :=
  match s.run with
  | .running => none
  | .halted => some (.halted s.mem.contents s.hostState)
  | .faulted f pc => some (.faulted f pc)

/-- R23, R346: whether the job has ended normally, so that the state stays as it is. -/
def endedNormally (s : State) : Bool :=
  match s.job with
  | .run => decide (s.run = .halted)
  | .done (.value _) => true
  | .done .noMaximum => true
  | .done (.fault _) => false
  | .launchRing _ => false
  | .ring => false
  | .launchChain _ => false
  | .chain _ _ _ => false
  | .nextEvaluation => false

/-- R124, R412: steps until the job ends, under fuel: the final state, or the fault; none when the fuel runs out, which "is
not an end of run". -/
def runToEnd : Nat → State → Option (Except Fault State)
  | 0, s => if endedNormally s then some (.ok s) else none
  | fuel + 1, s =>
    if endedNormally s then some (.ok s)
    else
      match step s with
      | .next t => runToEnd fuel t
      | .fault f => some (.error f)
      | .refused _ => none

/-- The result of a finished job. -/
def jobValue (s : State) : Option Word :=
  match s.job with
  | .done (.value v) => some v
  | .done .noMaximum => none
  | .done (.fault _) => none
  | .run => none
  | .launchRing _ => none
  | .ring => none
  | .launchChain _ => none
  | .chain _ _ _ => none
  | .nextEvaluation => none

/-- The outcome of a run to its end, read off its final state. -/
def outcomeOf {α : Type} (read : State → α) (x : Option (Except Fault State)) : Option (Except Fault α) :=
  match x with
  | some (.ok t) => some (.ok (read t))
  | some (.error f) => some (.error f)
  | none => none

/-- R323: `run(program, inputs) -> outputs`; a faulted run returns the fault and no outputs. -/
def simpleRun (fuel : Nat) (cfg : Config) (prog inputs : List Word) : Option (Except Fault (List Word)) :=
  outcomeOf State.outputs (runToEnd fuel (State.startReplay cfg prog inputs))

/-- R340 to R347: the ring with these phase settings, under a schedule. -/
def ringRun (fuel : Nat) (cfg : Config) (prog phases : List Word) (schedule : List Nat) :
    Option (Except Fault (Option Word)) :=
  outcomeOf jobValue
    (runToEnd fuel { State.start cfg prog (.replay [] []) (.launchRing phases) with schedule := schedule })

/-- R351: `chain(prog, phase[0..N-1])`. -/
def chainRun (fuel : Nat) (cfg : Config) (prog phases : List Word) : Option (Except Fault (Option Word)) :=
  outcomeOf jobValue (runToEnd fuel (State.start cfg prog (.replay [] []) (.launchChain phases)))

/-- R353: the search over the caller's permutations. -/
def searchRun (fuel : Nat) (cfg : Config) (prog : List Word) (kind : Evaluation) (perms : List (List Word)) :
    Option (Except Fault (Option Word)) :=
  outcomeOf jobValue (runToEnd fuel (State.startSearch cfg prog kind perms))

end Sys2Proof.Machine
end

