-- ==== Sys2Proof/Safety.lean ====
section
/-! DEFINITION. What counts as a safe run, and the words statements are made of: completing and faulting (R116, R123, R303), the
invariants (R127, R328, R121), deadlock (R348), hang (R412) and weak fairness (R345). -/

namespace Sys2Proof.Machine

/-! ## Completing and faulting -/

/-- The registers, the memory, the capability and everything else after an instruction that stores `v` to cell `d`, having
grown memory to cell `reach` by its reads, and goes on at `pc`. -/
def State.storing (s : State) (reach d : Nat) (v : Word) (pc : Nat) : State :=
  (s.setMem ((s.mem.grow reach).write d v)).setPc pc

/-- The same for an instruction that stores nothing. -/
def State.goingOn (s : State) (reach pc : Nat) : State := (s.setMem (s.mem.grow reach)).setPc pc

/-- The state with another executor in focus, and the same host side. -/
def State.setExe (s : State) (e : Executor) : State := { s with cur := { s.cur with exe := e } }

/-- R303: what a faulting instruction leaves: no memory write, no `rb` write, no `pc` write. -/
def SameExecutor (s t : State) : Prop :=
  t.pc = s.pc ∧ t.rb = s.rb ∧ t.finished = s.finished ∧ ∀ a, t.mem.read a = s.mem.read a

/-- R123, R300, R303, R122: instruction `i` ends the run with fault `f`. -/
def FaultsWith (i : Instr) (s : State) (f : ExecFault) : Prop :=
  ∃ t, exec i s = .next t ∧ t.run = .faulted f s.pc ∧ SameExecutor s t

/-- The greatest cell touched by the reads of a three-operand instruction (R116, R117). -/
def reach3 (m1 m2 : Mode) (s : State) : Nat :=
  max (sourceReach 1 m1 s) (max (sourceReach 2 m2 s) (s.pc + 3))

/-- The greatest cell touched by the reads of a jump (R116, R117). -/
def reach2 (m1 m2 : Mode) (s : State) : Nat := max (sourceReach 1 m1 s) (sourceReach 2 m2 s)

/-- R302, items 4 to 8, for the instructions with two sources and a destination: the first fault, or the destination and the
value stored. -/
def computeOutcome (f : Word → Word → Except ExecFault Word) (m1 m2 m3 : Mode) (s : State) :
    Except ExecFault (Nat × Word) :=
  match operandValue 1 m1 s with
  | .error e => .error e
  | .ok a =>
    match operandValue 2 m2 s with
    | .error e => .error e
    | .ok b =>
      match operandAddress 3 m3 s with
      | .error e => .error e
      | .ok d =>
        match f a b with
        | .error e => .error e
        | .ok r =>
          match accessCheck s.cfg (d : Int) with
          | .error e => .error e
          | .ok _ =>
            match nextPc 4 s with
            | .error e => .error e
            | .ok _ => .ok (d, r)

/-! ## Accesses and capability calls -/

/-- One access to memory: a read of a cell (none) or a write of a value. -/
def Memory.access (m : Memory) (x : Nat × Option Word) : Memory :=
  match x.2 with
  | none => m.grow x.1
  | some v => m.write x.1 v

/-- The answer a policy gives to a read in a state: R321 the head of the input queue, R326 and R325 what the inbound channel
gives, R330 the controller's answer. -/
def answerOf (s : State) : Option Word :=
  match s.cur.cap with
  | .replay inq _ => inq.head?
  | .stage _ =>
    match s.cur.inbound.queue with
    | v :: _ => some v
    | [] =>
      if s.cur.inbound.senderConnected = false ∧ s.cfg.readOnClosed = .zero then some Word.zero else none
  | .controller c => c.pendingRead

/-- The state after a read was answered with `v`: the answer is taken from where it came from, and nothing else changes. -/
def answered (v : Word) (s : State) : State :=
  match s.cur.cap with
  | .replay inq outl => s.setCap (.replay inq.tail outl)
  | .stage _ => s.mapInbound fun ch => { ch with queue := ch.queue.tail }
  | .controller c => s.setCap (.controller (c.afterRead v))

/-- The state after a value was written, policy by policy: R322 appends it to the output list; R327 records it and sends it on
the outbound channel, which drops it when its receiver is gone (R325); R330 hands it to the controller. -/
def emitted (v : Word) (s : State) : State :=
  match s.cur.cap with
  | .replay inq outl => s.setCap (.replay inq (outl ++ [v]))
  | .stage _ =>
    (s.setCap (.stage (some v))).mapOutbound fun ch =>
      if ch.receiverAlive = true then { ch with queue := ch.queue ++ [v] } else ch
  | .controller c => s.setCap (.controller { c with history := c.history ++ [.write v] })

/-- The host sides of all stages, in their order: the capability's state and the queue of the inbound channel. -/
def State.hostSides (s : State) : List (Capability × List Word) := s.stages.map fun st => (st.cap, st.inbound.queue)

/-! ## Invariants -/

/-- R127 for one executor started from a program: memory in its canonical form, `0 <= pc <= 2^63-1`, `len >= length(prog)`,
and `finished` exactly in Halted (R24, R121, R122). That `rb` is an `int64` is part of its type. -/
def Executor.inv (prog : List Word) (e : Executor) : Prop :=
  e.mem.wf = true ∧ e.pc ≤ maxAddr ∧ prog.length ≤ e.mem.len ∧ (e.finished = true ↔ e.run = .halted)

/-- R127 for every executor of the machine. -/
def State.Inv (s : State) : Prop := ∀ st ∈ s.stages, st.exe.inv s.prog

/-- R35, R37, R328, R329, R346 for stage `i` of a ring whose stages are `all`, with the given result cell. Its capability is
the channel-connected policy; its receiver is alive exactly while it has not ended; it is joined only when it has ended; the
sender of its channel is connected exactly while stage (i-1) mod N has not ended; and the result cell holds what the final
stage last wrote once that stage has halted, and none before. -/
def StageInv (all : List Stage) (result : Option Word) (i : Nat) (st : Stage) : Prop :=
  (∃ last, st.cap = .stage last) ∧
  st.inbound.receiverAlive = !st.ended ∧
  (st.join = .joined → st.ended = true) ∧
  (∀ pred, all[(i + all.length - 1) % all.length]? = some pred → st.inbound.senderConnected = !pred.ended) ∧
  (i + 1 = all.length →
    ∀ last, st.cap = .stage last → result = if st.exe.run = .halted then last else none)

/-- The invariant of a launched ring. -/
def State.RingInv (s : State) : Prop :=
  s.job = .ring → ∀ i st, s.stages[i]? = some st → StageInv s.stages s.result i st

/-- R121, R122: a controller is told that the run has finished exactly once, by the last call of a run that halts, and never
by a run that has not halted. -/
def State.FinishedLast (s : State) : Prop :=
  ∀ c, s.cur.cap = .controller c →
    (s.run ≠ .halted → CapEvent.finished ∉ c.history) ∧
    (s.run = .halted → ∃ calls, c.history = calls ++ [.finished] ∧ CapEvent.finished ∉ calls)

/-! ## Waiting, deadlock, hang, fairness -/

/-- R310: the executor in focus is blocked in a read of its channel. -/
def State.channelWait (s : State) : Prop :=
  s.run = .running ∧ (∃ last, s.cur.cap = .stage last) ∧ waits s = true

/-- R348: some stage of the ring has not ended, and every stage that has not ended is blocked. -/
def State.Deadlocked (s : State) : Prop :=
  s.job = .ring ∧
  (∃ st ∈ s.stages, st.ended = false) ∧
  ∀ k st, s.stages[k]? = some st → st.ended = false → (s.focus k).channelWait

/-- The executors and capabilities of all stages, in their order: what a stage's own steps change. -/
def State.executors (s : State) : List (Executor × Capability) := s.stages.map fun st => (st.exe, st.cap)

/-- The state after `n` steps, if none of them stops. -/
def stepsFrom : Nat → State → Option State
  | 0, s => some s
  | n + 1, s =>
    match step s with
    | .next t => stepsFrom n t
    | .fault _ => none
    | .refused _ => none

/-- R412: a hang: the run never halts, never faults and never blocks. -/
def State.Hangs (s : State) : Prop :=
  ∀ n, ∃ t, stepsFrom n s = some t ∧ t.run = .running ∧ waits (capShouldHalt t).2 = false

/-- A ring's run in which the stage in focus after step n is the one `choice n` names (R345). -/
def scheduledRun (choice : Nat → Nat) : Nat → State → Option State
  | 0, s => some s
  | n + 1, s =>
    match scheduledRun choice n s with
    | none => none
    | some t =>
      match step { t with schedule := [choice n] } with
      | .next u => some u
      | .fault _ => none
      | .refused _ => none

/-- Whether stage `k` is enabled: it is Running and not blocked (R345). -/
def State.enabled (k : Nat) (s : State) : Prop :=
  k < s.stageCount ∧ (s.focus k).run = .running ∧ waits (s.focus k) = false

/-- R345: weak fairness, "a stage that stays enabled eventually steps". -/
def WeaklyFair (choice : Nat → Nat) (s : State) : Prop :=
  ∀ k n, k < s.stageCount → (∀ m t, n ≤ m → scheduledRun choice m s = some t → t.enabled k) →
    ∃ m, n ≤ m ∧ choice m % s.stageCount = k

end Sys2Proof.Machine
end

