-- ==== Sys2Proof/Certificates/Slice0/Obligations.lean ====
section
/-! DEFINITION. The statements for the provers. Each says which rule of spec/ it formalises. A hypothesis is always on the state and
the operands alone; `operandValue`, `operandAddress` and `peek` are the operands as pure functions (R128), and
`State.storing`, `State.goingOn` give a whole next state, so that an equation with one of them is also the frame. -/

open Sys2Proof Sys2Proof.Machine

/-! ## Encoding -/

/-- R94. The canonical word of every legal tuple decodes back to the tuple, and the word of every well-formed instruction to the
instruction; other digits in unused slots and any digits above slot 3 decode to the same instruction; encoding what a
word decodes to gives the word back for canonical words only. -/
def Obligations.CanonicalWordsDecodeBack : Prop :=
  (∀ d : Decoded,
    d.canonicalWord.val =
      d.op.toNat + 100 * d.m1.toDigit + 1000 * d.m2.toDigit + 10000 * d.m3.toDigit) ∧
  (Mode.toDigit .pos = 0 ∧ Mode.toDigit .imm = 1 ∧ Mode.toDigit .rel = 2) ∧
  (∀ d : Decoded, d.legalDest = true → decodeFields d.canonicalWord = .ok d) ∧
  (∀ i : Instr, i.wellFormed = true → decode (encode i) = .ok i) ∧
  (∀ (i : Instr) (d : Decoded) (w : Word) (hi : Nat), i.wellFormed = true → d.toInstr = i →
    w.val = d.canonicalWord.val + 100000 * hi → decode w = .ok i) ∧
  (∃ (w w' : Word) (i : Instr), w ≠ w' ∧ decode w = .ok i ∧ decode w' = .ok i) ∧
  (∀ (w : Word) (i : Instr), decode w = .ok i →
    (encode i = w ↔ ∃ j : Instr, j.wellFormed = true ∧ encode j = w))

/-- R90, with R86, R91 and R92: the decoder's checks, in their order, and what it returns when all pass. -/
def Obligations.DecoderChecksInOrder : Prop :=
  ∀ w : Word,
    (w.val < 0 → decodeFields w = .error (.unknownOpcode w.val)) ∧
    ∀ n : Nat, w.val = n →
      (n % 100 ∉ [1, 2, 3, 4, 5, 6, 7, 8, 9, 99] → decodeFields w = .error (.unknownOpcode ((n % 100 : Nat) : Int))) ∧
      ∀ op : Opcode, op.toNat = n % 100 →
        (2 < digit 2 n → decodeFields w = .error (.illegalModeDigit 1 (digit 2 n))) ∧
        (digit 2 n ≤ 2 → 2 < digit 3 n → decodeFields w = .error (.illegalModeDigit 2 (digit 3 n))) ∧
        (digit 2 n ≤ 2 → digit 3 n ≤ 2 → 2 < digit 4 n → decodeFields w = .error (.illegalModeDigit 3 (digit 4 n))) ∧
        ∀ m1 m2 m3 : Mode, m1.toDigit = digit 2 n → m2.toDigit = digit 3 n → m3.toDigit = digit 4 n →
          (op.toNat ∈ [1, 2, 7, 8] → m3 = .imm → decodeFields w = .error (.illegalWriteMode 3)) ∧
          (op.toNat = 3 → m1 = .imm → decodeFields w = .error (.illegalWriteMode 1)) ∧
          ((op.toNat ∈ [1, 2, 7, 8] → m3 ≠ .imm) → (op.toNat = 3 → m1 ≠ .imm) →
            decodeFields w = .ok { op := op, m1 := m1, m2 := m2, m3 := m3 })

/-- R87. The digits above the third mode slot change nothing. -/
def Obligations.HighDigitsAreIgnored : Prop :=
  (∀ (w w' : Word) (hi : Nat), 0 ≤ w.val → w'.val = w.val + 100000 * hi → decodeFields w' = decodeFields w) ∧
  decodeFields (word 100099) = .ok { op := .halt, m1 := .pos, m2 := .pos, m3 := .pos }

/-- R88. A digit of a slot the opcode does not use is checked and then has no effect. -/
def Obligations.UnusedSlotsAreCheckedThenIgnored : Prop :=
  (∀ d e : Decoded, d.op = e.op → (1 ≤ d.op.params → d.m1 = e.m1) → (2 ≤ d.op.params → d.m2 = e.m2) →
    (3 ≤ d.op.params → d.m3 = e.m3) → decode d.canonicalWord = decode e.canonicalWord) ∧
  (∀ (w : Word) (n k : Nat) (op : Opcode), w.val = n → op.toNat = n % 100 → op.params < k → k ≤ 3 →
    (∀ j, 1 ≤ j → j < k → digit (j + 1) n ≤ 2) → 2 < digit (k + 1) n →
    decode w = .error (.illegalModeDigit k (digit (k + 1) n))) ∧
  decode (word 10104) = .ok (.out .imm)

/-- Words written out digit by digit from the opcode map R95 and the vectors DEC1 to DEC15 of 95_test_vectors.md. -/
def Obligations.SpecWordsDecode : Prop :=
  decode (word 1002) = .ok (.mul .pos .imm .pos) ∧
  decode (word 21107) = .ok (.lt .imm .imm .rel) ∧
  decode (word 203) = .ok (.inp .rel) ∧
  decode (word 10104) = .ok (.out .imm) ∧
  decode (word 21001) = .ok (.add .pos .imm .rel) ∧
  decode (word 1105) = .ok (.jnz .imm .imm) ∧
  decode (word 1006) = .ok (.jz .pos .imm) ∧
  decode (word 1008) = .ok (.eq .pos .imm .pos) ∧
  decode (word 109) = .ok (.arb .imm) ∧
  decode (word 22299) = .ok .halt ∧
  decode (word 11101) = .error (.illegalWriteMode 3) ∧
  decode (word 103) = .error (.illegalWriteMode 1) ∧
  decode (word 31101) = .error (.illegalModeDigit 3 3) ∧
  decode (word 1398) = .error (.unknownOpcode 98) ∧
  decode (word (-1)) = .error (.unknownOpcode (-1))

/-- R99 with R94 and R82: an instruction line encodes to an instruction word that decodes to its opcode and operand modes,
followed by one parameter word per parameter; and the example of R99. -/
def Obligations.AssembledLinesDecode : Prop :=
  (∀ (table : List (Nat × Nat)) (o : Opcode) (operands : List AsmOperand) (ws : List Word),
    encodeOp table o operands = some ws →
      ∃ w ps i, ws = w :: ps ∧ decode w = .ok i ∧ i.opcode = o ∧ i.wellFormed = true ∧
        ps.length = o.params ∧ ws.length = o.length ∧
        ∀ k x, operands[k]? = some x → ∃ d : Decoded, decodeFields w = .ok d ∧
          (k = 0 → d.m1 = x.mode) ∧ (k = 1 → d.m2 = x.mode) ∧ (k = 2 → d.m3 = x.mode)) ∧
  assemble
    [{ label := none, body := .op .add [.pos (.value (word 9)), .imm (.value (word 3)), .rel (word 2)] }] =
    some [word 21001, word 9, word 3, word 2]

/-! ## Memory -/

/-- R52. `MemRead(a, 1)`: its faults, its growth and its value. -/
def Obligations.MemReadGrowsAndReads : Prop :=
  ∀ (s : State) (a : Int), s.mem.wf = true →
    (a < 0 → memRead a s = .fault (.negativeAddress a) s) ∧
    (maxInt64 < a → memRead a s = .fault (.addressOverflow a) s) ∧
    (0 ≤ a → a ≤ maxInt64 → ∀ limit : Nat, s.cfg.memLimit = some limit → (limit : Int) ≤ a →
      memRead a s = .fault (.memoryExhausted a) s) ∧
    ∀ n : Nat, a = n → n ≤ maxAddr → (∀ limit : Nat, s.cfg.memLimit = some limit → n < limit) →
      ∃ m : Memory, memRead a s = .ok (m.read n) (s.setMem m) ∧ m.wf = true ∧
        m.len = (if n < s.mem.len then s.mem.len else n + 1) ∧
        (∀ b, b < s.mem.len → m.read b = s.mem.read b) ∧
        ∀ b, s.mem.len ≤ b → b < m.len → m.read b = Word.zero

/-- R53. `MemWrite(a, 1, v)`: its faults, its growth and its store. -/
def Obligations.MemWriteGrowsAndStores : Prop :=
  ∀ (s : State) (a : Int) (v : Word), s.mem.wf = true →
    (a < 0 → memWrite a v s = .fault (.negativeAddress a) s) ∧
    (maxInt64 < a → memWrite a v s = .fault (.addressOverflow a) s) ∧
    (0 ≤ a → a ≤ maxInt64 → ∀ limit : Nat, s.cfg.memLimit = some limit → (limit : Int) ≤ a →
      memWrite a v s = .fault (.memoryExhausted a) s) ∧
    ∀ n : Nat, a = n → n ≤ maxAddr → (∀ limit : Nat, s.cfg.memLimit = some limit → n < limit) →
      ∃ m : Memory, memWrite a v s = .ok () (s.setMem m) ∧ m.wf = true ∧
        m.len = (if n < s.mem.len then s.mem.len else n + 1) ∧
        m.read n = v ∧
        (∀ b, b < s.mem.len → b ≠ n → m.read b = s.mem.read b) ∧
        ∀ b, s.mem.len ≤ b → b < m.len → b ≠ n → m.read b = Word.zero

/-- R65 and R55. After any accesses to the memory of a program, a cell holds the value of the most recent write to it; with no
such write, the program's cell below the program's length and 0 from there on. -/
def Obligations.MostRecentWriteIsRead : Prop :=
  ∀ (prog : List Word) (xs : List (Nat × Option Word)) (a : Nat), prog.length ≤ maxAddr + 1 →
    (∀ x ∈ xs, x.1 ≤ maxAddr) →
    ((∀ x ∈ xs, x.1 = a → x.2 = none) →
      (xs.foldl Memory.access (Memory.ofProgram prog)).read a = prog[a]?.getD Word.zero) ∧
    ∀ (before after : List (Nat × Option Word)) (v : Word), xs = before ++ (a, some v) :: after →
      (∀ x ∈ after, x.1 = a → x.2 = none) → (xs.foldl Memory.access (Memory.ofProgram prog)).read a = v

/-- The canonical form of memory (the model's own, notes/assumptions/3.md): every operation keeps it, and two memories in it that
have the same length and read the same are the same data. -/
def Obligations.CanonicalMemoriesAreEqualData : Prop :=
  (∀ (m : Memory) (a : Nat) (v : Word), m.wf = true → a ≤ maxAddr → (m.grow a).wf = true ∧ (m.write a v).wf = true) ∧
  (∀ prog : List Word, prog.length ≤ maxAddr + 1 → (Memory.ofProgram prog).wf = true) ∧
  ∀ m m' : Memory, m.wf = true → m'.wf = true → m.len = m'.len → (∀ a, m.read a = m'.read a) → m = m'

/-- R54. No step of an executor shrinks its memory, and reads and writes grow it by one and the same rule. -/
def Obligations.GrowthIsMonotonic : Prop :=
  (∀ s t : State, executorStep s = .next t → s.mem.len ≤ t.mem.len) ∧
  ∀ (m : Memory) (a : Nat) (v : Word), (m.write a v).len = (m.grow a).len

/-- R69, R411. What is stored to a cell is what the next fetch of that cell decodes. -/
def Obligations.FetchSeesTheStore : Prop :=
  ∀ (s t : State) (a : Nat) (v : Word), s.mem.wf = true → memWrite (a : Int) v s = .ok () t →
    fetch (t.setPc a) = attempt (decode v) (t.setPc a)

/-! ## Operands -/

/-- R112, R113 and R114. A source operand's value in each mode; reading it changes nothing but the length of memory. -/
def Obligations.SourceOperandValues : Prop :=
  (∀ (k : Nat) (s : State) (p : Word), peek s ((s.pc + k : Nat) : Int) = .ok p →
    operandValue k .pos s = peek s p.val ∧
    operandValue k .rel s = peek s (s.rb.val + p.val) ∧
    operandValue k .imm s = .ok p) ∧
  (∀ (k : Nat) (m : Mode) (s : State) (f : ExecFault), peek s ((s.pc + k : Nat) : Int) = .error f →
    operandValue k m s = .error f) ∧
  (∀ (k : Nat) (m : Mode) (s : State) (v : Word), operandValue k m s = .ok v →
    sourceOperand k m s = .ok v (s.setMem (s.mem.grow (sourceReach k m s)))) ∧
  (∀ (k : Nat) (m : Mode) (s : State) (f : ExecFault), operandValue k m s = .error f →
    ∃ mem : Memory, sourceOperand k m s = .fault f (s.setMem mem) ∧ mem.cells = s.mem.cells ∧ s.mem.len ≤ mem.len)

/-- R57 and R115. A destination's address: the parameter word, or its exact sum with `rb`; below 0 and above 2^63-1 it
faults. Forming it reads nothing but the parameter word. -/
def Obligations.DestinationAddresses : Prop :=
  (∀ (k : Nat) (p rb : Word),
    (p.val < 0 → effectiveAddress k .pos p rb = .error (.negativeAddress p.val)) ∧
    (0 ≤ p.val → effectiveAddress k .pos p rb = .ok p.val.toNat) ∧
    (rb.val + p.val < 0 → effectiveAddress k .rel p rb = .error (.negativeAddress (rb.val + p.val))) ∧
    (maxInt64 < rb.val + p.val → effectiveAddress k .rel p rb = .error (.addressOverflow (rb.val + p.val))) ∧
    (0 ≤ rb.val + p.val → rb.val + p.val ≤ maxInt64 →
      effectiveAddress k .rel p rb = .ok (rb.val + p.val).toNat)) ∧
  (∀ (k : Nat) (m : Mode) (s : State) (p : Word), peek s ((s.pc + k : Nat) : Int) = .ok p →
    operandAddress k m s = effectiveAddress k m p s.rb) ∧
  (∀ (k : Nat) (m : Mode) (s : State) (d : Nat), operandAddress k m s = .ok d →
    destOperand k m s = .ok d (s.setMem (s.mem.grow (s.pc + k)))) ∧
  (∀ (k : Nat) (m : Mode) (s : State) (f : ExecFault), operandAddress k m s = .error f →
    ∃ mem : Memory, destOperand k m s = .fault f (s.setMem mem) ∧ mem.cells = s.mem.cells ∧ s.mem.len ≤ mem.len)

/-! ## What each instruction does -/

/-- R142 (with R140, R141). ADD and MUL store the exact sum or product whenever it is an `int64`, and raise
`ArithmeticOverflow` with the exact result and write nothing when it is not. The next state is given whole. -/
def Obligations.ArithmeticIsExactOrFaults : Prop :=
  ∀ (m1 m2 m3 : Mode) (s : State) (a b : Word) (d : Nat),
    operandValue 1 m1 s = .ok a → operandValue 2 m2 s = .ok b → operandAddress 3 m3 s = .ok d →
    (∀ r : Word, r.val = a.val + b.val → accessCheck s.cfg (d : Int) = .ok d → s.pc + 4 ≤ maxAddr →
      exec (.add m1 m2 m3) s = .next (s.storing (reach3 m1 m2 s) d r (s.pc + 4))) ∧
    (∀ r : Word, r.val = a.val * b.val → accessCheck s.cfg (d : Int) = .ok d → s.pc + 4 ≤ maxAddr →
      exec (.mul m1 m2 m3) s = .next (s.storing (reach3 m1 m2 s) d r (s.pc + 4))) ∧
    (a.val + b.val < minInt64 ∨ maxInt64 < a.val + b.val →
      FaultsWith (.add m1 m2 m3) s (.arithmeticOverflow (a.val + b.val))) ∧
    (a.val * b.val < minInt64 ∨ maxInt64 < a.val * b.val →
      FaultsWith (.mul m1 m2 m3) s (.arithmeticOverflow (a.val * b.val)))

/-- R172 (with R170, R171). LT stores 1 if a < b as signed integers and 0 otherwise, EQ stores 1 if a = b and 0 otherwise; both
operands are those of the state before the write. The next state is given whole. -/
def Obligations.ComparisonsStoreOneOrZero : Prop :=
  ∀ (m1 m2 m3 : Mode) (s : State) (a b : Word) (d : Nat),
    operandValue 1 m1 s = .ok a → operandValue 2 m2 s = .ok b → operandAddress 3 m3 s = .ok d →
    accessCheck s.cfg (d : Int) = .ok d → s.pc + 4 ≤ maxAddr →
    exec (.lt m1 m2 m3) s =
      .next (s.storing (reach3 m1 m2 s) d (if a.val < b.val then word 1 else word 0) (s.pc + 4)) ∧
    exec (.eq m1 m2 m3) s =
      .next (s.storing (reach3 m1 m2 s) d (if a.val = b.val then word 1 else word 0) (s.pc + 4))

/-- R302, items 4 to 8, for ADD, MUL, LT and EQ: the first fault in the order parameters, computation, write, advance is the one
reported; with none, the instruction completes. That memory is unwritten when the advance alone faults is R303, as
notes/assumptions/7.md reads it (DEDUCED). -/
def Obligations.ComputeReportsFirstFault : Prop :=
  ∀ (m1 m2 m3 : Mode) (s : State),
    ∀ p ∈ [(Instr.add m1 m2 m3, sumResult), (Instr.mul m1 m2 m3, productResult), (Instr.lt m1 m2 m3, lessResult),
        (Instr.eq m1 m2 m3, equalResult)],
      (∀ f, computeOutcome p.2 m1 m2 m3 s = .error f → FaultsWith p.1 s f) ∧
      ∀ d r, computeOutcome p.2 m1 m2 m3 s = .ok (d, r) →
        exec p.1 s = .next (s.storing (reach3 m1 m2 s) d r (s.pc + 4))

/-- R150 (with R321, R326, R330). Under every policy, IN stores the answer of its read; the next state is given whole. R302, items
4, 7 and 8: an address that faults, a write that faults and an advance beyond 2^63-1 end the run with that fault. That memory
is unwritten when the advance alone faults is R303, as notes/assumptions/7.md reads it (DEDUCED). -/
def Obligations.InStoresTheAnswer : Prop :=
  ∀ (m : Mode) (s : State),
    (∀ f, operandAddress 1 m s = .error f → FaultsWith (.inp m) s f) ∧
    ∀ (d : Nat) (v : Word), operandAddress 1 m s = .ok d → answerOf s = some v →
      (∀ f, accessCheck s.cfg (d : Int) = .error f → FaultsWith (.inp m) s f) ∧
      (accessCheck s.cfg (d : Int) = .ok d →
        (s.pc + 2 ≤ maxAddr → exec (.inp m) s = .next ((answered v s).storing (s.pc + 1) d v (s.pc + 2))) ∧
        (maxAddr < s.pc + 2 → FaultsWith (.inp m) s (.addressOverflow ((s.pc + 2 : Nat) : Int))))

/-- R321, R324. Buffered replay: the head of the queue is removed and returned; an empty queue raises `InputExhausted`; what is
left in the queue at a halt is no fault. -/
def Obligations.ReplayGivesInputsInOrder : Prop :=
  (∀ (m : Mode) (s : State) (d : Nat) (v : Word) (rest outl : List Word), s.cur.cap = .replay (v :: rest) outl →
    operandAddress 1 m s = .ok d → accessCheck s.cfg (d : Int) = .ok d → s.pc + 2 ≤ maxAddr →
    ∃ t, exec (.inp m) s = .next t ∧ t.cur.cap = .replay rest outl ∧ t.run = s.run ∧
      (s.mem.wf = true → t.mem.read d = v)) ∧
  (∀ (m : Mode) (s : State) (d : Nat) (outl : List Word), s.cur.cap = .replay [] outl →
    operandAddress 1 m s = .ok d → FaultsWith (.inp m) s .inputExhausted) ∧
  (∀ (s : State) (inq outl : List Word), s.cur.cap = .replay inq outl →
    ∃ t, exec .halt s = .next t ∧ t.run = .halted ∧ t.cur.cap = .replay inq outl)

/-- R151 (with R322, R327, R330). Under every policy, OUT writes its operand; the next state is given whole. R302, item 4: an operand
that faults ends the run with that fault. (Item 8, its advance, is in PcAdvancesByTheLength.) -/
def Obligations.OutWritesTheOperand : Prop :=
  ∀ (m : Mode) (s : State),
    (∀ v, operandValue 1 m s = .ok v → s.pc + 2 ≤ maxAddr →
      exec (.out m) s = .next ((emitted v s).goingOn (sourceReach 1 m s) (s.pc + 2))) ∧
    ∀ f, operandValue 1 m s = .error f → FaultsWith (.out m) s f

/-- R327, R350, R340. A stage's OUT records the value as its last written one whether or not it is delivered, appends it to the
queue of stage (i+1) mod N if that receiver is alive, and drops it otherwise; no other stage changes. -/
def Obligations.StageOutSendsToSuccessor : Prop :=
  ∀ (m : Mode) (s t : State) (v : Word) (last : Option Word), s.cur.cap = .stage last →
    operandValue 1 m s = .ok v → s.pc + 2 ≤ maxAddr → exec (.out m) s = .next t →
    t.cur.cap = .stage (some v) ∧ t.stageCount = s.stageCount ∧
    ∀ k st, s.stages[k]? = some st → ∃ st', t.stages[k]? = some st' ∧
      (k ≠ s.stageIndex → st'.exe = st.exe ∧ st'.cap = st.cap ∧ st'.join = st.join) ∧
      st'.inbound =
        if k = (s.stageIndex + 1) % s.stageCount ∧ st.inbound.receiverAlive = true then
          { st.inbound with queue := st.inbound.queue ++ [v] }
        else st.inbound

/-- R160, R161. A taken jump to a non-negative target goes there; a jump not taken goes on by 3, whatever its target is; both
operands are read either way, and the next state is given whole. A fault of the condition's read, or else of the target's,
ends the run with that fault, whether or not the jump would be taken; and so does an advance beyond 2^63-1 of a jump not
taken (R302, items 4 and 8). -/
def Obligations.JumpsGoToTheTarget : Prop :=
  ∀ (m1 m2 : Mode) (s : State),
    (∀ f, operandValue 1 m1 s = .error f → FaultsWith (.jnz m1 m2) s f ∧ FaultsWith (.jz m1 m2) s f) ∧
    ∀ c : Word, operandValue 1 m1 s = .ok c →
      (∀ f, operandValue 2 m2 s = .error f → FaultsWith (.jnz m1 m2) s f ∧ FaultsWith (.jz m1 m2) s f) ∧
      ∀ t : Word, operandValue 2 m2 s = .ok t →
        (c.val ≠ 0 → 0 ≤ t.val → exec (.jnz m1 m2) s = .next (s.goingOn (reach2 m1 m2 s) t.val.toNat)) ∧
        (c.val = 0 → s.pc + 3 ≤ maxAddr → exec (.jnz m1 m2) s = .next (s.goingOn (reach2 m1 m2 s) (s.pc + 3))) ∧
        (c.val = 0 → maxAddr < s.pc + 3 → FaultsWith (.jnz m1 m2) s (.addressOverflow ((s.pc + 3 : Nat) : Int))) ∧
        (c.val = 0 → 0 ≤ t.val → exec (.jz m1 m2) s = .next (s.goingOn (reach2 m1 m2 s) t.val.toNat)) ∧
        (c.val ≠ 0 → s.pc + 3 ≤ maxAddr → exec (.jz m1 m2) s = .next (s.goingOn (reach2 m1 m2 s) (s.pc + 3))) ∧
        (c.val ≠ 0 → maxAddr < s.pc + 3 → FaultsWith (.jz m1 m2) s (.addressOverflow ((s.pc + 3 : Nat) : Int)))

/-- R162. A taken jump to a target t < 0 raises `NegativeAddress(t)` at the jump, and `pc` keeps its value; a jump not taken does
not. -/
def Obligations.NegativeTargetsFaultAtTheJump : Prop :=
  ∀ (m1 m2 : Mode) (s : State) (c t : Word), operandValue 1 m1 s = .ok c → operandValue 2 m2 s = .ok t → t.val < 0 →
    (c.val ≠ 0 → FaultsWith (.jnz m1 m2) s (.negativeAddress t.val)) ∧
    (c.val = 0 → FaultsWith (.jz m1 m2) s (.negativeAddress t.val)) ∧
    (c.val = 0 → s.pc + 3 ≤ maxAddr → exec (.jnz m1 m2) s = .next (s.goingOn (reach2 m1 m2 s) (s.pc + 3))) ∧
    (c.val ≠ 0 → s.pc + 3 ≤ maxAddr → exec (.jz m1 m2) s = .next (s.goingOn (reach2 m1 m2 s) (s.pc + 3)))

/-- R180. ARB adds its operand, read with the old `rb`, to `rb`, or raises `ArithmeticOverflow` and leaves `rb`; the next state is
given whole. R302, items 4 and 8: an operand that faults and an advance beyond 2^63-1 end the run with that fault. That `rb`
is unwritten when the advance alone faults is R303, as notes/assumptions/7.md reads it (DEDUCED). -/
def Obligations.ArbAddsToTheBase : Prop :=
  ∀ (m : Mode) (s : State),
    (∀ f, operandValue 1 m s = .error f → FaultsWith (.arb m) s f) ∧
    ∀ v : Word, operandValue 1 m s = .ok v →
      (∀ r : Word, r.val = s.rb.val + v.val →
        (s.pc + 2 ≤ maxAddr →
          exec (.arb m) s = .next ((s.goingOn (sourceReach 1 m s) (s.pc + 2)).setRb r)) ∧
        (maxAddr < s.pc + 2 → FaultsWith (.arb m) s (.addressOverflow ((s.pc + 2 : Nat) : Int)))) ∧
      (s.rb.val + v.val < minInt64 ∨ maxInt64 < s.rb.val + v.val →
        FaultsWith (.arb m) s (.arithmeticOverflow (s.rb.val + v.val)))

/-- R120, R190, R329. The Halted transition, by opcode 99 and by a true `CapShouldHalt()`: the run state is Halted, the latch is
set, `pc`, `rb` and memory stay, the controller is told, the final stage's last value goes to the result cell, and the caller
observes the memory and the final host state (R39, R32). Of this the model's own are: what the host state of a halted
channel-connected stage is, its last written value, its unread queue and its two released flags (notes/assumptions/20.md,
DEDUCED); that a channel-connected run with no stage after it, a single run included, is a final stage and writes the result
cell (notes/assumptions/14.md, DESIGN CHOICE); and that a controller is its call history (notes/assumptions/4.md, DESIGN
CHOICE). -/
def Obligations.HaltEntersHalted : Prop :=
  (∀ s : State, ∃ t, exec .halt s = .next t ∧ t.run = .halted ∧ t.finished = true ∧ t.pc = s.pc ∧ t.rb = s.rb ∧
    t.mem = s.mem ∧ observe t = some (.halted s.mem.contents t.hostState) ∧
    (∀ inq outl, s.cur.cap = .replay inq outl →
      t.cur.cap = s.cur.cap ∧ t.result = s.result ∧ t.hostState = .replay inq outl) ∧
    (∀ last, s.cur.cap = .stage last →
      t.cur.cap = s.cur.cap ∧ t.result = (if s.after = [] then last else s.result) ∧
        t.hostState = .stage last s.cur.inbound.queue false false) ∧
    (∀ c, s.cur.cap = .controller c →
      t.cur.cap = .controller { c with history := c.history ++ [.finished] } ∧ t.result = s.result ∧
        t.hostState = .controller { c with history := c.history ++ [.finished] })) ∧
  (∀ s : State, s.job = .run → s.run = .running → (capShouldHalt s).1 = true →
    step s = exec .halt (capShouldHalt s).2)

/-! ## Frames and precision -/

/-- The frame of ADD, MUL, LT and EQ (R116, R303, R27, R26): every cell but the destination reads as before (every cell, where the
destination has no address), `rb`, the latch and the capability stay, and while the run goes on so does everything but
memory and `pc`. -/
def Obligations.ComputeFrame : Prop :=
  ∀ (m1 m2 m3 : Mode) (s t : State),
    ∀ i ∈ [Instr.add m1 m2 m3, Instr.mul m1 m2 m3, Instr.lt m1 m2 m3, Instr.eq m1 m2 m3], exec i s = .next t →
      t.rb = s.rb ∧ t.finished = s.finished ∧ t.cur.cap = s.cur.cap ∧ t.result = s.result ∧
      (∀ d, operandAddress 3 m3 s = .ok d → ∀ a, a ≠ d → t.mem.read a = s.mem.read a) ∧
      ((∀ d, operandAddress 3 m3 s ≠ .ok d) → ∀ a, t.mem.read a = s.mem.read a) ∧
      (s.run = .running → t.run = .running → t = (s.setMem t.mem).setPc (s.pc + 4))

/-- The frame of OUT, JNZ, JZ, ARB and HALT, which store nothing (R151, R163, R180, R190): every cell reads as before; while the
run goes on, OUT changes no register but `pc` and no state but the host side of its capability, a jump changes `pc` alone,
and ARB `rb` and `pc` alone; memory may only have grown. -/
def Obligations.NonStoringFrame : Prop :=
  ∀ (s t : State) (i : Instr),
    (i = .halt ∨ ∃ m1 m2, i ∈ [Instr.out m1, Instr.jnz m1 m2, Instr.jz m1 m2, Instr.arb m1]) → exec i s = .next t →
      (∀ a, t.mem.read a = s.mem.read a) ∧ s.mem.len ≤ t.mem.len ∧
      ((∀ m, i ≠ .arb m) → t.rb = s.rb) ∧
      (i ≠ .halt → t.finished = s.finished) ∧
      (i = .halt → t.pc = s.pc) ∧
      ((∀ m, i ≠ .out m) → i ≠ .halt → t.cur.cap = s.cur.cap ∧ t.result = s.result) ∧
      (s.run = .running → t.run = .running → (∀ m, i ≠ .out m) →
        t = ((s.setMem (t.mem)).setRb t.rb).setPc t.pc) ∧
      (s.run = .running → t.run = .running → ∀ m v, i = .out m → operandValue 1 m s = .ok v →
        t = ((emitted v s).setMem t.mem).setPc (s.pc + 2))

/-- The frame of IN (R150, R125): every cell but the destination reads as before, `rb` and the latch stay, and while the run goes
on it either is held with nothing changed or changes its host side, memory and `pc` alone. -/
def Obligations.InFrame : Prop :=
  ∀ (m : Mode) (s t : State), exec (.inp m) s = .next t →
    t.rb = s.rb ∧ t.finished = s.finished ∧ t.result = s.result ∧
    (∀ d, operandAddress 1 m s = .ok d → ∀ a, a ≠ d → t.mem.read a = s.mem.read a) ∧
    ((∀ d, operandAddress 1 m s ≠ .ok d) → ∀ a, t.mem.read a = s.mem.read a) ∧
    (s.run = .running → t.run = .running →
      t = s ∨ ∃ v, answerOf s = some v ∧ t = ((answered v s).setMem t.mem).setPc (s.pc + 2))

/-- R303. A faulting instruction makes no memory write, no `rb` write and no `pc` write, and records its own `pc` (R300). What its
capability call did is not undone: an IN whose address resolves and whose read is answered has consumed the value, from
wherever its policy takes it, and an OUT whose operand resolves has written it, to wherever its policy sends it; in every
other case the host side of every stage, channels among it, is as before. -/
def Obligations.FaultsArePrecise : Prop :=
  ∀ (i : Instr) (s t : State) (f : ExecFault) (pc : Nat), s.run = .running → exec i s = .next t →
    t.run = .faulted f pc →
      pc = s.pc ∧ SameExecutor s t ∧ s.mem.len ≤ t.mem.len ∧
      (∀ m, i = .inp m →
        (∀ d v, operandAddress 1 m s = .ok d → answerOf s = some v → t.hostSides = (answered v s).hostSides) ∧
        ((∀ d, operandAddress 1 m s ≠ .ok d) ∨ answerOf s = none → t.hostSides = s.hostSides)) ∧
      (∀ m, i = .out m →
        (∀ v, operandValue 1 m s = .ok v → t.hostSides = (emitted v s).hostSides) ∧
        ((∀ v, operandValue 1 m s ≠ .ok v) → t.hostSides = s.hostSides)) ∧
      ((∀ m, i ≠ .inp m) → (∀ m, i ≠ .out m) → t.hostSides = s.hostSides)

/-- R181. Opcode 9 is the only writer of `rb`: no other instruction changes it, nor any capability call; a step of an executor that
changes it executes an ARB; it is 0 at the start of every run. With R20 and R341: in a ring no move changes anything of the
executor or the capability of a stage that is not in focus, the step that ends a run among them, nor does a move of the
orchestrator change those of any stage. -/
def Obligations.OnlyArbWritesTheBase : Prop :=
  (∀ (i : Instr) (s t : State), (∀ m, i ≠ .arb m) → exec i s = .next t → t.rb = s.rb) ∧
  (∀ (s : State) (v : Word), (capShouldHalt s).2.rb = s.rb ∧ (capWrite v s).rb = s.rb ∧ (capOnFinished s).rb = s.rb ∧
    ∀ w t, capRead s = .value w t → t.rb = s.rb) ∧
  (∀ s t : State, executorStep s = .next t → t.rb ≠ s.rb →
    ∃ w m, peek s (s.pc : Int) = .ok w ∧ decode w = .ok (.arb m)) ∧
  (∀ (s t : State) (k : Nat) (st : Stage), s.job = .ring → step s = .next t → s.stages[k]? = some st →
    k ≠ s.stageIndex ∨ s.run ≠ .running → ∃ st', t.stages[k]? = some st' ∧ st'.exe = st.exe ∧ st'.cap = st.cap) ∧
  (∀ (prog : List Word) (cap : Capability) (ch : Channel), (Stage.start prog cap ch).exe.rb = Word.zero)

/-- R118. An instruction that does not jump (a jump that is not taken among them) and does not halt goes on at `pc` + its length
(R82), which is a legal address; that is the whole of what moves `pc` while the run goes on, but for an IN that is held. -/
def Obligations.PcAdvancesByTheLength : Prop :=
  (∀ (i : Instr) (s t : State), s.run = .running → exec i s = .next t → t.run = .running → i ≠ .halt →
    (∀ m1 m2 c, i = .jnz m1 m2 → operandValue 1 m1 s = .ok c → c.val = 0) →
    (∀ m1 m2 c, i = .jz m1 m2 → operandValue 1 m1 s = .ok c → c.val ≠ 0) →
      (t.pc = s.pc + i.opcode.length ∧ t.pc ≤ maxAddr) ∨ (t = s ∧ ∃ m, i = .inp m)) ∧
  (∀ (s : State) (len : Nat), maxAddr < s.pc + len →
    advance len s = .fault (.addressOverflow ((s.pc + len : Nat) : Int)) s) ∧
  ∀ (m : Mode) (s : State) (v : Word), operandValue 1 m s = .ok v → maxAddr < s.pc + 2 →
    FaultsWith (.out m) s (.addressOverflow ((s.pc + 2 : Nat) : Int))

/-! ## Capability calls -/

/-- R331. No capability call changes the executor's memory, `pc` or `rb` (nor its run state or latch), and none depends on them:
with another executor in its place, each call gives the same answer and leaves the same host side. -/
def Obligations.CallsNeverTouchTheExecutor : Prop :=
  (∀ (s : State) (v : Word),
    (capShouldHalt s).2.cur.exe = s.cur.exe ∧ (capWrite v s).cur.exe = s.cur.exe ∧
    (capOnFinished s).cur.exe = s.cur.exe ∧ (releaseEndpoints s).cur.exe = s.cur.exe ∧
    ∀ w t, capRead s = .value w t → t.cur.exe = s.cur.exe) ∧
  ∀ (s : State) (e : Executor) (v : Word),
    capShouldHalt (s.setExe e) = ((capShouldHalt s).1, (capShouldHalt s).2.setExe e) ∧
    capWrite v (s.setExe e) = (capWrite v s).setExe e ∧
    capOnFinished (s.setExe e) = (capOnFinished s).setExe e ∧
    capRead (s.setExe e) =
      match capRead s with
      | .value w t => .value w (t.setExe e)
      | .blocked => .blocked
      | .exhausted => .exhausted

/-- R331, R29: "The Executor is agnostic to how input values arrive or output values are consumed". Two states that differ only in
the host side of the capability give the same executor after any instruction but IN; and after an IN that both hosts
answer with the same value. -/
def Obligations.ExecutorIsAgnosticOfTheHost : Prop :=
  ∀ (i : Instr) (s t t' : State) (c : Capability) (ch : Channel),
    exec i s = .next t → exec i ((s.setCap c).mapInbound fun _ => ch) = .next t' →
    ((∀ m, i ≠ .inp m) ∨ ∃ v, answerOf s = some v ∧ answerOf ((s.setCap c).mapInbound fun _ => ch) = some v) →
      t'.cur.exe = t.cur.exe

/-- R152. With a controller as the witness of the calls: an IN makes one `CapRead` call and an OUT one `CapWrite` call unless it
faults first, HALT calls `CapOnFinished`, and no other instruction makes a call. That an IN whose read has no answer makes no call
is R125 with R333 and 90_conflicts.md C12, as notes/assumptions/16.md reads them (DEDUCED), and the call history is the
model's own form (notes/assumptions/4.md). -/
def Obligations.OneCallPerInstruction : Prop :=
  ∀ (i : Instr) (s t : State) (c : Controller), s.cur.cap = .controller c → exec i s = .next t →
    ∃ c' calls, t.cur.cap = .controller c' ∧ c'.history = c.history ++ calls ∧
      (∀ m, i = .inp m →
        (∀ d v, operandAddress 1 m s = .ok d → answerOf s = some v → calls = [.read v]) ∧
        (∀ f, operandAddress 1 m s = .error f → calls = []) ∧
        (answerOf s = none → calls = [])) ∧
      (∀ m, i = .out m →
        (∀ v, operandValue 1 m s = .ok v → calls = [.write v]) ∧
        (∀ f, operandValue 1 m s = .error f → calls = [])) ∧
      (i = .halt → calls = [.finished]) ∧
      ((∀ m, i ≠ .inp m) → (∀ m, i ≠ .out m) → i ≠ .halt → calls = [])

/-- R126, R110, R32. `CapShouldHalt()` is called exactly once per step of a Running executor, before any other call of the step, and
its answer is the one the step goes by; it is not called at all after the run has left Running. A step that is held, exactly
when that answer would be false and the executor would then wait, makes no call and leaves the controller as it was (R125, R32; a
controller that waits is notes/assumptions/16.md, and the call history is the model's own form, notes/assumptions/4.md). -/
def Obligations.ShouldHaltOncePerStep : Prop :=
  (∀ (s t : State) (c : Controller), s.cur.cap = .controller c → s.run = .running → executorStep s = .next t →
    ∃ c', t.cur.cap = .controller c' ∧
      ((capShouldHalt s).1 = false ∧ waits (capShouldHalt s).2 = true → c' = c) ∧
      ((capShouldHalt s).1 = true ∨ waits (capShouldHalt s).2 = false →
        ∃ calls, c'.history = c.history ++ .shouldHalt (capShouldHalt s).1 :: calls ∧
          ∀ b, CapEvent.shouldHalt b ∉ calls)) ∧
  (∀ s t : State, s.job = .run → s.run ≠ .running → step s = .next t → t = s)

/-- R325. A send appends to the queue of a live receiver and drops otherwise, and never blocks; a receive takes the oldest value;
on an empty queue it blocks while the sender is connected, and then `READ_ON_CLOSED` decides. So values come out in the
order they were sent. -/
def Obligations.ChannelsAreFifo : Prop :=
  (∀ (v : Word) (ch : Channel), ch.receiverAlive = true →
    ch.send v = { ch with queue := ch.queue ++ [v] }) ∧
  (∀ (v : Word) (ch : Channel), ch.receiverAlive = false → ch.send v = ch) ∧
  (∀ (r : ReadOnClosed) (v : Word) (rest : List Word) (ch : Channel), ch.queue = v :: rest →
    ch.receive r = .value v { ch with queue := rest }) ∧
  (∀ (r : ReadOnClosed) (ch : Channel), ch.queue = [] → ch.senderConnected = true → ch.receive r = .blocked) ∧
  (∀ ch : Channel, ch.queue = [] → ch.senderConnected = false →
    ch.receive .zero = .value Word.zero ch ∧ ch.receive .block = .blocked) ∧
  (∀ (vs : List Word) (v : Word) (ch : Channel), ch.queue = [] → ch.receiverAlive = true →
    ∀ r, ((v :: vs).foldl (fun ch w => ch.send w) ch).receive r = .value v { ch with queue := vs })

/-- R330. A run under any host transition system: the host's own answer decides the should_halt check, an IN stores the host's own
answer, an OUT hands the host its value, a halt tells it; and the host system makes exactly those calls. That a step whose read
is not answered leaves the host as it was, its should_halt check not called, is R125 as notes/assumptions/16.md reads it
(DEDUCED); one step under a host system is the model's own form (notes/assumptions/4.md). -/
def Obligations.HostSystemsDriveTheRun : Prop :=
  ∀ (S : Type) (H : HostSystem S) (h : S) (s : State), s.job = .run → s.run = .running →
    ((H.shouldHalt h).1 = true →
      ∃ t, H.step h s = .next (H.onFinished (H.shouldHalt h).2, t) ∧ t.run = .halted ∧ t.mem = s.mem ∧ t.pc = s.pc) ∧
    ((H.shouldHalt h).1 = false → ∀ w i, peek s (s.pc : Int) = .ok w → decode w = .ok i →
      (∀ m d v h', i = .inp m → operandAddress 1 m s = .ok d → H.read (H.shouldHalt h).2 = some (v, h') →
        accessCheck s.cfg (d : Int) = .ok d → s.pc + 2 ≤ maxAddr →
          ∃ t, H.step h s = .next (h', t) ∧ t.run = .running ∧ t.pc = s.pc + 2 ∧
            (s.mem.wf = true → t.mem.read d = v)) ∧
      (∀ m d, i = .inp m → operandAddress 1 m s = .ok d → H.read (H.shouldHalt h).2 = none →
          ∃ t, H.step h s = .next (h, t) ∧ t.cur.exe = s.cur.exe) ∧
      (∀ m v, i = .out m → operandValue 1 m s = .ok v → s.pc + 2 ≤ maxAddr →
          ∃ t, H.step h s = .next (H.write v (H.shouldHalt h).2, t) ∧ t.run = .running ∧ t.pc = s.pc + 2) ∧
      (i = .halt → ∃ t, H.step h s = .next (H.onFinished (H.shouldHalt h).2, t) ∧ t.run = .halted))

/-- R320, R321, R322, R330. While its queue is not empty, buffered replay is the host transition system
`HostSystem.bufferedReplay`: the executor takes the same step under both. -/
def Obligations.ReplayIsAHostSystem : Prop :=
  ∀ (s t : State) (v : Word) (rest outl : List Word), s.job = .run → s.run = .running →
    s.cur.cap = .replay (v :: rest) outl → step s = .next t →
    ∃ h' t', HostSystem.bufferedReplay.step (v :: rest, outl) s = .next (h', t') ∧ t'.cur.exe = t.cur.exe ∧
      t.cur.cap = .replay h'.1 h'.2

/-! ## The step -/

/-- R111, R119, R124. When the executor in focus is Running, its should_halt check answers false, it does not wait, and the word at
`pc` decodes to an instruction, the step is the execution of that instruction, in the state with the fetch's growth; in a
ring the next stage is then chosen (R345). -/
def Obligations.StepRunsTheDecodedInstruction : Prop :=
  ∀ (s s1 : State) (w : Word) (i : Instr), s.run = .running → capShouldHalt s = (false, s1) → waits s1 = false →
    peek s (s.pc : Int) = .ok w → decode w = .ok i →
    (s.job = .run ∨ (∃ k sig rest, s.job = .chain k sig rest) →
      step s = exec i (s1.setMem (s.mem.grow s.pc))) ∧
    (s.job = .ring → step s = thenNext (exec i (s1.setMem (s.mem.grow s.pc))) State.nextTurn)

/-- R110, R111, R124. In the step of a Running executor a true `CapShouldHalt()` halts the run at once: nothing is fetched, memory,
`pc` and `rb` are unchanged, whatever the word at `pc` is; a false one lets the step go on to the fetch, whose fault ends the
run. That step is the machine's step in a run and in a chain, and in a ring with the choice of the next stage after it. A run
that has left Running takes no step: that the model's step then answers with the state itself, or with no next state for a
fault, is the model's own form (notes/assumptions/6.md). -/
def Obligations.ShouldHaltComesFirst : Prop :=
  (∀ s s1 : State, s.run = .running → capShouldHalt s = (true, s1) →
    ∃ t, executorStep s = .next t ∧ t.run = .halted ∧ t.mem = s.mem ∧ t.pc = s.pc ∧ t.rb = s.rb) ∧
  (∀ s s1 : State, s.run = .running → capShouldHalt s = (false, s1) → waits s1 = false →
    (∀ f, peek s (s.pc : Int) = .error f → ∃ t, executorStep s = .next t ∧ t.run = .faulted f s.pc ∧ t.job = s.job) ∧
    (∀ w, peek s (s.pc : Int) = .ok w →
      executorStep s =
        match decode w with
        | .ok i => exec i (s1.setMem (s.mem.grow s.pc))
        | .error f => .next (enterFaulted f (s1.setMem (s.mem.grow s.pc))))) ∧
  (∀ s : State, s.run = .running →
    (s.job = .run ∨ (∃ k sig rest, s.job = .chain k sig rest) → step s = executorStep s) ∧
    (s.job = .ring → step s = thenNext (executorStep s) State.nextTurn)) ∧
  (∀ s : State, s.job = .run →
    (s.run = .halted → step s = .next s) ∧ (∀ f pc, s.run = .faulted f pc → ∀ t, step s ≠ .next t))

/-- R125, R310, R32. Under every policy an executor that waits is held with its state as before the step, its host state included,
and nothing of the machine changes but, in a ring, which stage moves next. An executor whose word decodes to an IN with a legal
address waits exactly while its read has no answer; that a controller's read may wait too is R333 and 90_conflicts.md C12, and
that its should_halt check is then not made is notes/assumptions/16.md (DEDUCED). -/
def Obligations.WaitingHoldsTheExecutor : Prop :=
  (∀ s : State, s.run = .running → (capShouldHalt s).1 = false → waits (capShouldHalt s).2 = true →
    (s.job = .run ∨ (∃ k sig rest, s.job = .chain k sig rest) → step s = .next s) ∧
    (s.job = .ring → step s = .next s.nextTurn)) ∧
  (∀ (s : State) (last : Option Word), s.cur.cap = .stage last → capShouldHalt s = (false, s)) ∧
  (∀ (s : State) (m : Mode) (w : Word) (d : Nat), peek s (s.pc : Int) = .ok w → decode w = .ok (.inp m) →
    operandAddress 1 m s = .ok d → (∀ inq outl, s.cur.cap ≠ .replay inq outl) →
      (waits s = true ↔ answerOf s = none))

/-- R111, R122, R123, R301, R39, R347. A word that cannot be fetched or does not decode ends the run of an executor, whether it runs
alone, in a chain or as a stage of a ring: the fault and its `pc` are the run state, `CapOnFinished()` is not called, nothing
is written, and, of a single run, the fault is all the caller observes. In a chain the fault is then the chain's outcome
(R351); in a ring the stage is left Faulted among the stages, and the ring goes on. That the step after the fault of a single
run answers with it is the model's own form (notes/assumptions/6.md). -/
def Obligations.IllegalWordsEndTheRun : Prop :=
  ∀ (s s1 : State) (f : ExecFault), s.run = .running → capShouldHalt s = (false, s1) →
    (peek s (s.pc : Int) = .error f ∨ ∃ w, peek s (s.pc : Int) = .ok w ∧ decode w = .error f) →
    ∃ t, executorStep s = .next t ∧ t.run = .faulted f s.pc ∧ SameExecutor s t ∧ t.cur.cap = s1.cur.cap ∧
      (s.job = .run → step s = .next t ∧ observe t = some (.faulted f s.pc) ∧ step t = .fault (.executor f s.pc)) ∧
      ((∃ k sig rest, s.job = .chain k sig rest) →
        step s = .next t ∧ ∃ u, step t = .next u ∧ u.job = .done (.fault (.executor f s.pc))) ∧
      (s.job = .ring →
        ∃ u st, step s = .next u ∧ u.job = .ring ∧ u.stageCount = s.stageCount ∧
          u.stages[s.stageIndex]? = some st ∧ st.exe.run = .faulted f s.pc ∧ st.exe.pc = s.pc ∧ st.cap = s1.cur.cap)

/-- R23, R301. Halted and Faulted are terminal: no step leaves them. That an ended job steps to itself, and that a step answers with
the fault, is the model's own form (notes/assumptions/6.md). -/
def Obligations.EndedRunsStay : Prop :=
  ∀ s : State,
    (s.job = .run → s.run = .halted → step s = .next s) ∧
    (∀ f pc, s.job = .run → s.run = .faulted f pc → step s = .fault (.executor f pc)) ∧
    (∀ v, s.job = .done (.value v) → step s = .next s) ∧
    (∀ f, s.job = .done (.fault f) → step s = .fault f)

/-- The model's own: every instruction answers with a next state in every state, a step never refuses, and it stops only on a job
that has ended with a fault (notes/assumptions/6.md). -/
def Obligations.StepStopsOnlyOnReportedFaults : Prop :=
  (∀ (i : Instr) (s : State), ∃ t, exec i s = .next t) ∧
  ∀ s : State, (∃ t, step s = .next t) ∨
    ∃ f, step s = .fault f ∧
      (s.job = .done (.fault f) ∨ (s.job = .run ∧ ∃ g pc, s.run = .faulted g pc ∧ f = .executor g pc))

/-- The example of R111: the empty program, which is also the reset state, fetches `mem[0] = 0` after growth to `len = 1` and then
raises `UnknownOpcode(0)`; HLT5 of 95_test_vectors.md. That the reset state runs the empty program under buffered replay
(notes/assumptions/1.md), and that the step after the fault answers with it (notes/assumptions/6.md), are the model's choices. -/
def Obligations.EmptyProgramFaultsAtZero : Prop :=
  ∃ t, step State.reset = .next t ∧ t.run = .faulted (.unknownOpcode 0) 0 ∧ t.mem.len = 1 ∧ t.finished = false ∧
    step t = .fault (.executor (.unknownOpcode 0) 0)

/-- R412. A hang is no end of a run: under no fuel does it end. And fuel decides nothing else: a run that ends, ends the same
under any greater fuel. -/
def Obligations.FuelDecidesNothing : Prop :=
  (∀ s : State, s.job = .run → s.Hangs → ∀ fuel, runToEnd fuel s = none) ∧
  ∀ (s : State) (fuel more : Nat) (r : Except Fault State), runToEnd fuel s = some r → runToEnd (fuel + more) s = some r

/-! ## Start and invariants -/

/-- R38, R400, R401. The start of a run from a program and a capability. -/
def Obligations.RunsStartAtReset : Prop :=
  (∀ (cfg : Config) (prog : List Word) (cap : Capability) (job : Job),
    let s := State.start cfg prog cap job
    s.mem.len = prog.length ∧ (∀ a v, prog[a]? = some v → s.mem.read a = v) ∧ s.pc = 0 ∧ s.rb.val = 0 ∧
      s.run = .running ∧ s.finished = false ∧ s.cur.cap = cap ∧ s.prog = prog ∧ s.result = none) ∧
  State.reset = State.start Config.standard [] (.replay [] []) .run

/-- R127 at reset, and at the start of a run of any program that fits the address range. -/
def Obligations.InvariantAtReset : Prop :=
  State.reset.Inv ∧
  ∀ (cfg : Config) (prog : List Word) (cap : Capability) (job : Job), prog.length ≤ maxAddr + 1 →
    (State.start cfg prog cap job).Inv

/-- R127. Every step of the machine, whatever moves, keeps the invariant of every executor: memory in canonical form,
`0 <= pc <= 2^63-1`, `len >= length(prog)`, `finished` exactly in Halted. -/
def Obligations.StepsKeepTheInvariant : Prop :=
  ∀ s t : State, s.Inv → step s = .next t → t.Inv

/-- R403, R11. No step changes the program the run was started from, or a parameter. -/
def Obligations.ProgramAndParametersStay : Prop :=
  ∀ s t : State, step s = .next t → t.prog = s.prog ∧ t.cfg = s.cfg

/-- R121, R122. A controller is told exactly once that a run that halts has finished, by the last call of the run, and never when
the run has not halted: true at the start, and kept by every step of a run. -/
def Obligations.FinishedIsCalledOnceAndLast : Prop :=
  (∀ (cfg : Config) (prog : List Word) (c : Controller), c.history = [] →
    (State.start cfg prog (.controller c) .run).FinishedLast) ∧
  ∀ s t : State, s.job = .run → s.FinishedLast → step s = .next t → t.FinishedLast

/-! ## The ring -/

/-- R342. A launch with N < 1, or with phases that are not N distinct values, is refused with `BadLaunch`, and any other is not.
Which premise is recorded is the model's choice (notes/assumptions/21.md), and nothing is said of it. -/
def Obligations.BadLaunchesAreRefused : Prop :=
  ∀ (s t : State) (phases : List Word), s.job = .launchRing phases → step s = .next t →
    ((s.cfg.nStages < 1 ∨ phases.length ≠ s.cfg.nStages ∨ ¬ phases.Nodup) ↔
      ∃ reason, t.job = .done (.fault (.badLaunch reason))) ∧
    (1 ≤ s.cfg.nStages → phases.length = s.cfg.nStages → phases.Nodup → t.job = .ring)

/-- R343, R344, R404. A launch seeds channel i with `phase[i]`, and channel 0 with the initial feedback 0 after it, and starts
every stage Running from its own copy of the program, with connected senders and alive receivers; the result cell is none. -/
def Obligations.LaunchSeedsTheChannels : Prop :=
  ∀ (s t : State) (phases : List Word), s.job = .launchRing phases → 1 ≤ s.cfg.nStages →
    phases.length = s.cfg.nStages → phases.Nodup → step s = .next t →
    t.job = .ring ∧ t.stageCount = s.cfg.nStages ∧ t.result = none ∧
    ∀ k p, phases[k]? = some p → t.stages[k]? = some
      ({
        exe := { mem := Memory.ofProgram s.prog, pc := 0, rb := Word.zero, run := .running, finished := false }
        cap := .stage none
        inbound := { queue := if k = 0 then [p, Word.zero] else [p], senderConnected := true, receiverAlive := true }
        join := .running } : Stage)

/-- R35, R37, R328, R329, R346. A launch establishes the invariant of the ring, and every step keeps it: each stage has the
channel-connected policy; the receiver of channel i is alive exactly while stage i has not ended, and its sender is connected
exactly while stage (i-1) mod N has not; a stage is joined only when it has ended; the result cell holds what the final stage
last wrote exactly when that stage has halted. -/
def Obligations.StepsKeepTheRingInvariant : Prop :=
  ∀ s t : State, s.RingInv → step s = .next t → t.RingInv

/-- R345. Any stage may be the next to move: choosing it puts it in focus, and changes no stage. -/
def Obligations.AnyStageMayMoveNext : Prop :=
  ∀ (s : State) (k : Nat) (rest : List Nat), k < s.stageCount → s.schedule = k :: rest →
    s.nextTurn.stageIndex = k ∧ s.nextTurn.stages = s.stages ∧ s.stages[k]? = some s.nextTurn.cur ∧
      s.nextTurn.schedule = rest ∧ s.nextTurn.job = s.job ∧ s.nextTurn.result = s.result

/-- R345 with R325 and R328. A stage that can take a step can still take it after any move that is not its own; so under a weakly
fair schedule the run comes to a state in which that stage is in focus, and can take its step there. -/
def Obligations.EnabledStagesStayEnabledAndMove : Prop :=
  (∀ (s t : State) (k : Nat), s.job = .ring → s.enabled k → k ≠ s.stageIndex → step s = .next t →
    t.enabled k ∧ t.job = .ring) ∧
  ∀ (choice : Nat → Nat) (s : State) (k : Nat), s.job = .ring → s.enabled k → k ≠ s.stageIndex →
    WeaklyFair choice s → ∃ m t, scheduledRun choice m s = some t ∧ t.job = .ring ∧ t.stageIndex = k ∧ t.enabled k

/-- R346, R347 (with R413). Nothing is reported while a stage has not ended, and all are joined when it is reported; a move of the
orchestrator changes no executor and no capability; once every stage has ended, whatever the schedule says, the ring's
outcome is `StageFaulted` of the least faulted stage, or else, outside a search, the value of the result cell, or
`NoResult` if that is none. That the next step joins all stages and reports at once, whatever the schedule says, is the
model's own form (notes/assumptions/12.md, DESIGN CHOICE). -/
def Obligations.ResultIsReadAfterTheJoin : Prop :=
  (∀ s t : State, s.job = .ring → step s = .next t → t.job ≠ .ring →
    (∀ st ∈ s.stages, st.ended = true) ∧ t.stages = s.stages.map fun st => { st with join := .joined }) ∧
  (∀ s t : State, s.job = .ring → s.run ≠ .running → step s = .next t → t.executors = s.executors) ∧
  (∀ s : State, s.job = .ring → (∀ st ∈ s.stages, st.ended = true) →
    (∀ k st f pc, s.stages[k]? = some st → st.exe.run = .faulted f pc →
      (∀ j st', j < k → s.stages[j]? = some st' → st'.exe.run = .halted) →
        ∃ t, step s = .next t ∧ t.job = .done (.fault (.stageFaulted k f pc))) ∧
    ((∀ st ∈ s.stages, st.exe.run = .halted) →
      (∀ v, s.search = none → s.result = some v → ∃ t, step s = .next t ∧ t.job = .done (.value v)) ∧
      (s.result = none → ∃ t, step s = .next t ∧ t.job = .done (.fault .noResult))))

/-- R348. A deadlocked ring stays deadlocked: no step changes an executor or a capability, and it never reports anything. -/
def Obligations.DeadlockIsPermanent : Prop :=
  ∀ s t : State, s.Deadlocked → step s = .next t → t.Deadlocked ∧ t.executors = s.executors ∧ t.job = .ring

/-! ## The chain and the search -/

/-- R351, R352. The chain starts with the signal 0; each stage is a fresh run with its phase and the signal as inputs; a stage that
emits one value passes it on, and at the end it is the result; a stage that emits none or several raises `ChainOutputCount`; a
fault of a stage is the chain's. That a chain with no phase returns 0 is notes/assumptions/15.md (DEDUCED), and the model's. -/
def Obligations.ChainFeedsEachOutputOn : Prop :=
  (∀ (s : State) (p : Word) (rest : List Word), s.job = .launchChain (p :: rest) →
    ∃ t, step s = .next t ∧ t.job = .chain 0 Word.zero rest ∧
      t.cur = Stage.start s.prog (.replay [p, Word.zero] []) (Channel.fresh [])) ∧
  (∀ s : State, s.job = .launchChain [] → s.search = none →
    ∃ t, step s = .next t ∧ t.job = .done (.value Word.zero)) ∧
  (∀ (s : State) (i : Nat) (sig p v : Word) (rest inq : List Word), s.job = .chain i sig (p :: rest) →
    s.run = .halted → s.cur.cap = .replay inq [v] →
      ∃ t, step s = .next t ∧ t.job = .chain (i + 1) v rest ∧
        t.cur = Stage.start s.prog (.replay [p, v] []) (Channel.fresh [])) ∧
  (∀ (s : State) (i : Nat) (sig v : Word) (inq : List Word), s.job = .chain i sig [] → s.search = none →
    s.run = .halted → s.cur.cap = .replay inq [v] → ∃ t, step s = .next t ∧ t.job = .done (.value v)) ∧
  (∀ (s : State) (i : Nat) (sig : Word) (rest inq outl : List Word), s.job = .chain i sig rest →
    s.run = .halted → s.cur.cap = .replay inq outl → outl.length ≠ 1 →
      ∃ t, step s = .next t ∧ t.job = .done (.fault (.chainOutputCount i outl.length))) ∧
  (∀ (s : State) (i : Nat) (sig : Word) (rest : List Word) (f : ExecFault) (pc : Nat), s.job = .chain i sig rest →
    s.run = .faulted f pc → ∃ t, step s = .next t ∧ t.job = .done (.fault (.executor f pc)))

/-- R353. The search takes the caller's permutations in their order; each value goes into the maximum; after the last, the maximum
is the result; a fault of an evaluation is the search's. That it evaluates one after another is the model's form
(notes/assumptions/10.md). -/
def Obligations.SearchTakesTheMaximum : Prop :=
  (∀ (s : State) (sr : Search) (p : List Word) (rest : List (List Word)), s.job = .nextEvaluation →
    s.search = some sr → sr.pending = p :: rest →
      ∃ t, step s = .next t ∧ t.search = some { sr with pending := rest } ∧
        (sr.kind = .chain → t.job = .launchChain p) ∧ (sr.kind = .ring → t.job = .launchRing p)) ∧
  (∀ (s : State) (sr : Search) (v : Word), s.search = some sr →
    (∃ i sig inq, s.job = .chain i sig [] ∧ s.run = .halted ∧ s.cur.cap = .replay inq [v]) ∨
      (s.job = .ring ∧ s.result = some v ∧
        ∀ st ∈ s.stages, st.exe.run = .halted) →
    ∃ t b, step s = .next t ∧ t.job = .nextEvaluation ∧ t.search = some { sr with best := some b } ∧ v.val ≤ b.val ∧
      (∀ old, sr.best = some old → old.val ≤ b.val ∧ (b = old ∨ b = v)) ∧ (sr.best = none → b = v)) ∧
  (∀ (s : State) (sr : Search) (v : Word), s.job = .nextEvaluation → s.search = some sr → sr.pending = [] →
    sr.best = some v → ∃ t, step s = .next t ∧ t.job = .done (.value v)) ∧
  (∀ (s : State) (sr : Search) (f : Fault), s.search = some sr →
    (finishJob (.fault f) s).job = .done (.fault f) ∧ (finishJob (.fault f) s).search = none)
end

