-- ==== Sys2Proof/Laws/State.lean ====
section
/-! SUPPORT. One lemma per field per update of the state, each true by rfl, so that no proof unfolds a record update. -/

namespace Sys2Proof.Machine

@[simp] theorem State.setMem_mem (s : State) (m : Memory) : (s.setMem m).mem = m := rfl
@[simp] theorem State.setMem_pc (s : State) (m : Memory) : (s.setMem m).pc = s.pc := rfl
@[simp] theorem State.setMem_rb (s : State) (m : Memory) : (s.setMem m).rb = s.rb := rfl
@[simp] theorem State.setMem_run (s : State) (m : Memory) : (s.setMem m).run = s.run := rfl
@[simp] theorem State.setMem_finished (s : State) (m : Memory) : (s.setMem m).finished = s.finished := rfl
@[simp] theorem State.setMem_cfg (s : State) (m : Memory) : (s.setMem m).cfg = s.cfg := rfl
@[simp] theorem State.setMem_prog (s : State) (m : Memory) : (s.setMem m).prog = s.prog := rfl
@[simp] theorem State.setMem_before (s : State) (m : Memory) : (s.setMem m).before = s.before := rfl
@[simp] theorem State.setMem_after (s : State) (m : Memory) : (s.setMem m).after = s.after := rfl
@[simp] theorem State.setMem_result (s : State) (m : Memory) : (s.setMem m).result = s.result := rfl
@[simp] theorem State.setMem_job (s : State) (m : Memory) : (s.setMem m).job = s.job := rfl
@[simp] theorem State.setMem_search (s : State) (m : Memory) : (s.setMem m).search = s.search := rfl
@[simp] theorem State.setMem_schedule (s : State) (m : Memory) : (s.setMem m).schedule = s.schedule := rfl
@[simp] theorem State.setMem_turns (s : State) (m : Memory) : (s.setMem m).turns = s.turns := rfl
@[simp] theorem State.setMem_cap (s : State) (m : Memory) : (s.setMem m).cur.cap = s.cur.cap := rfl
@[simp] theorem State.setMem_inbound (s : State) (m : Memory) : (s.setMem m).cur.inbound = s.cur.inbound := rfl
@[simp] theorem State.setMem_join (s : State) (m : Memory) : (s.setMem m).cur.join = s.cur.join := rfl
@[simp] theorem State.setMem_stageCount (s : State) (m : Memory) : (s.setMem m).stageCount = s.stageCount := rfl
@[simp] theorem State.setMem_stageIndex (s : State) (m : Memory) : (s.setMem m).stageIndex = s.stageIndex := rfl

@[simp] theorem State.setPc_mem (s : State) (pc : Nat) : (s.setPc pc).mem = s.mem := rfl
@[simp] theorem State.setPc_pc (s : State) (pc : Nat) : (s.setPc pc).pc = pc := rfl
@[simp] theorem State.setPc_rb (s : State) (pc : Nat) : (s.setPc pc).rb = s.rb := rfl
@[simp] theorem State.setPc_run (s : State) (pc : Nat) : (s.setPc pc).run = s.run := rfl
@[simp] theorem State.setPc_finished (s : State) (pc : Nat) : (s.setPc pc).finished = s.finished := rfl
@[simp] theorem State.setPc_cfg (s : State) (pc : Nat) : (s.setPc pc).cfg = s.cfg := rfl
@[simp] theorem State.setPc_prog (s : State) (pc : Nat) : (s.setPc pc).prog = s.prog := rfl
@[simp] theorem State.setPc_before (s : State) (pc : Nat) : (s.setPc pc).before = s.before := rfl
@[simp] theorem State.setPc_after (s : State) (pc : Nat) : (s.setPc pc).after = s.after := rfl
@[simp] theorem State.setPc_result (s : State) (pc : Nat) : (s.setPc pc).result = s.result := rfl
@[simp] theorem State.setPc_job (s : State) (pc : Nat) : (s.setPc pc).job = s.job := rfl
@[simp] theorem State.setPc_search (s : State) (pc : Nat) : (s.setPc pc).search = s.search := rfl
@[simp] theorem State.setPc_schedule (s : State) (pc : Nat) : (s.setPc pc).schedule = s.schedule := rfl
@[simp] theorem State.setPc_turns (s : State) (pc : Nat) : (s.setPc pc).turns = s.turns := rfl
@[simp] theorem State.setPc_cap (s : State) (pc : Nat) : (s.setPc pc).cur.cap = s.cur.cap := rfl
@[simp] theorem State.setPc_inbound (s : State) (pc : Nat) : (s.setPc pc).cur.inbound = s.cur.inbound := rfl
@[simp] theorem State.setPc_join (s : State) (pc : Nat) : (s.setPc pc).cur.join = s.cur.join := rfl
@[simp] theorem State.setPc_stageCount (s : State) (pc : Nat) : (s.setPc pc).stageCount = s.stageCount := rfl
@[simp] theorem State.setPc_stageIndex (s : State) (pc : Nat) : (s.setPc pc).stageIndex = s.stageIndex := rfl

@[simp] theorem State.setRb_mem (s : State) (rb : Word) : (s.setRb rb).mem = s.mem := rfl
@[simp] theorem State.setRb_pc (s : State) (rb : Word) : (s.setRb rb).pc = s.pc := rfl
@[simp] theorem State.setRb_rb (s : State) (rb : Word) : (s.setRb rb).rb = rb := rfl
@[simp] theorem State.setRb_run (s : State) (rb : Word) : (s.setRb rb).run = s.run := rfl
@[simp] theorem State.setRb_finished (s : State) (rb : Word) : (s.setRb rb).finished = s.finished := rfl
@[simp] theorem State.setRb_cfg (s : State) (rb : Word) : (s.setRb rb).cfg = s.cfg := rfl
@[simp] theorem State.setRb_prog (s : State) (rb : Word) : (s.setRb rb).prog = s.prog := rfl
@[simp] theorem State.setRb_before (s : State) (rb : Word) : (s.setRb rb).before = s.before := rfl
@[simp] theorem State.setRb_after (s : State) (rb : Word) : (s.setRb rb).after = s.after := rfl
@[simp] theorem State.setRb_result (s : State) (rb : Word) : (s.setRb rb).result = s.result := rfl
@[simp] theorem State.setRb_job (s : State) (rb : Word) : (s.setRb rb).job = s.job := rfl
@[simp] theorem State.setRb_search (s : State) (rb : Word) : (s.setRb rb).search = s.search := rfl
@[simp] theorem State.setRb_schedule (s : State) (rb : Word) : (s.setRb rb).schedule = s.schedule := rfl
@[simp] theorem State.setRb_turns (s : State) (rb : Word) : (s.setRb rb).turns = s.turns := rfl
@[simp] theorem State.setRb_cap (s : State) (rb : Word) : (s.setRb rb).cur.cap = s.cur.cap := rfl
@[simp] theorem State.setRb_inbound (s : State) (rb : Word) : (s.setRb rb).cur.inbound = s.cur.inbound := rfl
@[simp] theorem State.setRb_join (s : State) (rb : Word) : (s.setRb rb).cur.join = s.cur.join := rfl
@[simp] theorem State.setRb_stageCount (s : State) (rb : Word) : (s.setRb rb).stageCount = s.stageCount := rfl
@[simp] theorem State.setRb_stageIndex (s : State) (rb : Word) : (s.setRb rb).stageIndex = s.stageIndex := rfl

@[simp] theorem State.setRun_mem (s : State) (r : RunState) : (s.setRun r).mem = s.mem := rfl
@[simp] theorem State.setRun_pc (s : State) (r : RunState) : (s.setRun r).pc = s.pc := rfl
@[simp] theorem State.setRun_rb (s : State) (r : RunState) : (s.setRun r).rb = s.rb := rfl
@[simp] theorem State.setRun_run (s : State) (r : RunState) : (s.setRun r).run = r := rfl
@[simp] theorem State.setRun_finished (s : State) (r : RunState) : (s.setRun r).finished = s.finished := rfl
@[simp] theorem State.setRun_cfg (s : State) (r : RunState) : (s.setRun r).cfg = s.cfg := rfl
@[simp] theorem State.setRun_prog (s : State) (r : RunState) : (s.setRun r).prog = s.prog := rfl
@[simp] theorem State.setRun_before (s : State) (r : RunState) : (s.setRun r).before = s.before := rfl
@[simp] theorem State.setRun_after (s : State) (r : RunState) : (s.setRun r).after = s.after := rfl
@[simp] theorem State.setRun_result (s : State) (r : RunState) : (s.setRun r).result = s.result := rfl
@[simp] theorem State.setRun_job (s : State) (r : RunState) : (s.setRun r).job = s.job := rfl
@[simp] theorem State.setRun_search (s : State) (r : RunState) : (s.setRun r).search = s.search := rfl
@[simp] theorem State.setRun_schedule (s : State) (r : RunState) : (s.setRun r).schedule = s.schedule := rfl
@[simp] theorem State.setRun_turns (s : State) (r : RunState) : (s.setRun r).turns = s.turns := rfl
@[simp] theorem State.setRun_cap (s : State) (r : RunState) : (s.setRun r).cur.cap = s.cur.cap := rfl
@[simp] theorem State.setRun_inbound (s : State) (r : RunState) : (s.setRun r).cur.inbound = s.cur.inbound := rfl
@[simp] theorem State.setRun_join (s : State) (r : RunState) : (s.setRun r).cur.join = s.cur.join := rfl
@[simp] theorem State.setRun_stageCount (s : State) (r : RunState) : (s.setRun r).stageCount = s.stageCount := rfl
@[simp] theorem State.setRun_stageIndex (s : State) (r : RunState) : (s.setRun r).stageIndex = s.stageIndex := rfl

@[simp] theorem State.setFinished_mem (s : State) (b : Bool) : (s.setFinished b).mem = s.mem := rfl
@[simp] theorem State.setFinished_pc (s : State) (b : Bool) : (s.setFinished b).pc = s.pc := rfl
@[simp] theorem State.setFinished_rb (s : State) (b : Bool) : (s.setFinished b).rb = s.rb := rfl
@[simp] theorem State.setFinished_run (s : State) (b : Bool) : (s.setFinished b).run = s.run := rfl
@[simp] theorem State.setFinished_finished (s : State) (b : Bool) : (s.setFinished b).finished = b := rfl
@[simp] theorem State.setFinished_cfg (s : State) (b : Bool) : (s.setFinished b).cfg = s.cfg := rfl
@[simp] theorem State.setFinished_prog (s : State) (b : Bool) : (s.setFinished b).prog = s.prog := rfl
@[simp] theorem State.setFinished_before (s : State) (b : Bool) : (s.setFinished b).before = s.before := rfl
@[simp] theorem State.setFinished_after (s : State) (b : Bool) : (s.setFinished b).after = s.after := rfl
@[simp] theorem State.setFinished_result (s : State) (b : Bool) : (s.setFinished b).result = s.result := rfl
@[simp] theorem State.setFinished_job (s : State) (b : Bool) : (s.setFinished b).job = s.job := rfl
@[simp] theorem State.setFinished_search (s : State) (b : Bool) : (s.setFinished b).search = s.search := rfl
@[simp] theorem State.setFinished_schedule (s : State) (b : Bool) : (s.setFinished b).schedule = s.schedule := rfl
@[simp] theorem State.setFinished_turns (s : State) (b : Bool) : (s.setFinished b).turns = s.turns := rfl
@[simp] theorem State.setFinished_cap (s : State) (b : Bool) : (s.setFinished b).cur.cap = s.cur.cap := rfl
@[simp] theorem State.setFinished_inbound (s : State) (b : Bool) : (s.setFinished b).cur.inbound = s.cur.inbound := rfl
@[simp] theorem State.setFinished_join (s : State) (b : Bool) : (s.setFinished b).cur.join = s.cur.join := rfl
@[simp] theorem State.setFinished_stageCount (s : State) (b : Bool) : (s.setFinished b).stageCount = s.stageCount := rfl
@[simp] theorem State.setFinished_stageIndex (s : State) (b : Bool) : (s.setFinished b).stageIndex = s.stageIndex := rfl

@[simp] theorem State.setCap_exe (s : State) (c : Capability) : (s.setCap c).cur.exe = s.cur.exe := rfl
@[simp] theorem State.setCap_inbound (s : State) (c : Capability) : (s.setCap c).cur.inbound = s.cur.inbound := rfl
@[simp] theorem State.setCap_join (s : State) (c : Capability) : (s.setCap c).cur.join = s.cur.join := rfl
@[simp] theorem State.setCap_cfg (s : State) (c : Capability) : (s.setCap c).cfg = s.cfg := rfl
@[simp] theorem State.setCap_prog (s : State) (c : Capability) : (s.setCap c).prog = s.prog := rfl
@[simp] theorem State.setCap_before (s : State) (c : Capability) : (s.setCap c).before = s.before := rfl
@[simp] theorem State.setCap_after (s : State) (c : Capability) : (s.setCap c).after = s.after := rfl
@[simp] theorem State.setCap_result (s : State) (c : Capability) : (s.setCap c).result = s.result := rfl
@[simp] theorem State.setCap_job (s : State) (c : Capability) : (s.setCap c).job = s.job := rfl
@[simp] theorem State.setCap_search (s : State) (c : Capability) : (s.setCap c).search = s.search := rfl
@[simp] theorem State.setCap_schedule (s : State) (c : Capability) : (s.setCap c).schedule = s.schedule := rfl
@[simp] theorem State.setCap_turns (s : State) (c : Capability) : (s.setCap c).turns = s.turns := rfl
@[simp] theorem State.setCap_cap (s : State) (c : Capability) : (s.setCap c).cur.cap = c := rfl

@[simp] theorem State.mapInbound_exe (f : Channel → Channel) (s : State) : (s.mapInbound f).cur.exe = s.cur.exe := rfl
@[simp] theorem State.mapInbound_cap (f : Channel → Channel) (s : State) : (s.mapInbound f).cur.cap = s.cur.cap := rfl
@[simp] theorem State.mapInbound_join (f : Channel → Channel) (s : State) : (s.mapInbound f).cur.join = s.cur.join := rfl
@[simp] theorem State.mapInbound_cfg (f : Channel → Channel) (s : State) : (s.mapInbound f).cfg = s.cfg := rfl
@[simp] theorem State.mapInbound_prog (f : Channel → Channel) (s : State) : (s.mapInbound f).prog = s.prog := rfl
@[simp] theorem State.mapInbound_before (f : Channel → Channel) (s : State) : (s.mapInbound f).before = s.before := rfl
@[simp] theorem State.mapInbound_after (f : Channel → Channel) (s : State) : (s.mapInbound f).after = s.after := rfl
@[simp] theorem State.mapInbound_result (f : Channel → Channel) (s : State) : (s.mapInbound f).result = s.result := rfl
@[simp] theorem State.mapInbound_job (f : Channel → Channel) (s : State) : (s.mapInbound f).job = s.job := rfl
@[simp] theorem State.mapInbound_search (f : Channel → Channel) (s : State) : (s.mapInbound f).search = s.search := rfl
@[simp] theorem State.mapInbound_schedule (f : Channel → Channel) (s : State) : (s.mapInbound f).schedule = s.schedule := rfl
@[simp] theorem State.mapInbound_turns (f : Channel → Channel) (s : State) : (s.mapInbound f).turns = s.turns := rfl
@[simp] theorem State.mapInbound_inbound (f : Channel → Channel) (s : State) : (s.mapInbound f).cur.inbound = f s.cur.inbound := rfl

@[simp] theorem State.setMem_setMem (s : State) (m n : Memory) : (s.setMem m).setMem n = s.setMem n := rfl
@[simp] theorem State.setPc_setPc (s : State) (p q : Nat) : (s.setPc p).setPc q = s.setPc q := rfl
@[simp] theorem State.setMem_self (s : State) : s.setMem s.mem = s := rfl
@[simp] theorem State.setPc_self (s : State) : s.setPc s.pc = s := rfl
theorem State.setPc_setMem (s : State) (p : Nat) (m : Memory) : (s.setPc p).setMem m = (s.setMem m).setPc p := rfl

end Sys2Proof.Machine
end

