-- ==== Sys2Proof/Laws/Capability.lean ====
section
/-! SUPPORT. What each capability call can change (R331: never the executor), and what a channel operation does to the list of
stages (R340). -/

namespace Sys2Proof.Machine

/-! ## The outbound channel -/

@[simp] theorem State.mapOutbound_exe (f : Channel → Channel) (s : State) :
    (s.mapOutbound f).cur.exe = s.cur.exe := by
  unfold State.mapOutbound
  split
  · rfl
  · split <;> rfl

@[simp] theorem State.mapOutbound_cap (f : Channel → Channel) (s : State) :
    (s.mapOutbound f).cur.cap = s.cur.cap := by
  unfold State.mapOutbound
  split
  · rfl
  · split <;> rfl

@[simp] theorem State.mapOutbound_join (f : Channel → Channel) (s : State) :
    (s.mapOutbound f).cur.join = s.cur.join := by
  unfold State.mapOutbound
  split
  · rfl
  · split <;> rfl

@[simp] theorem State.mapOutbound_cfg (f : Channel → Channel) (s : State) :
    (s.mapOutbound f).cfg = s.cfg := by
  unfold State.mapOutbound
  split
  · rfl
  · split <;> rfl

@[simp] theorem State.mapOutbound_prog (f : Channel → Channel) (s : State) :
    (s.mapOutbound f).prog = s.prog := by
  unfold State.mapOutbound
  split
  · rfl
  · split <;> rfl

@[simp] theorem State.mapOutbound_result (f : Channel → Channel) (s : State) :
    (s.mapOutbound f).result = s.result := by
  unfold State.mapOutbound
  split
  · rfl
  · split <;> rfl

@[simp] theorem State.mapOutbound_job (f : Channel → Channel) (s : State) :
    (s.mapOutbound f).job = s.job := by
  unfold State.mapOutbound
  split
  · rfl
  · split <;> rfl

@[simp] theorem State.mapOutbound_search (f : Channel → Channel) (s : State) :
    (s.mapOutbound f).search = s.search := by
  unfold State.mapOutbound
  split
  · rfl
  · split <;> rfl

@[simp] theorem State.mapOutbound_schedule (f : Channel → Channel) (s : State) :
    (s.mapOutbound f).schedule = s.schedule := by
  unfold State.mapOutbound
  split
  · rfl
  · split <;> rfl

@[simp] theorem State.mapOutbound_turns (f : Channel → Channel) (s : State) :
    (s.mapOutbound f).turns = s.turns := by
  unfold State.mapOutbound
  split
  · rfl
  · split <;> rfl

@[simp] theorem State.mapOutbound_stageIndex (f : Channel → Channel) (s : State) :
    (s.mapOutbound f).stageIndex = s.stageIndex := by
  unfold State.mapOutbound
  split
  · rfl
  · split
    · next h => simp [State.stageIndex, h]
    · rfl

@[simp] theorem State.mapOutbound_stageCount (f : Channel → Channel) (s : State) :
    (s.mapOutbound f).stageCount = s.stageCount := by
  unfold State.mapOutbound
  split
  · next h => simp [State.stageCount, h]
  · split
    · next h => simp [State.stageCount, h]
    · rfl

@[simp] theorem State.mapOutbound_outbound (f : Channel → Channel) (s : State) :
    (s.mapOutbound f).outbound = f s.outbound := by
  obtain ⟨cfg, prog, before, cur, after, result, job, search, schedule, turns⟩ := s
  cases after with
  | cons next rest => rfl
  | nil => cases before <;> rfl

theorem State.mapOutbound_after_nil (f : Channel → Channel) (s : State) :
    (s.mapOutbound f).after = [] ↔ s.after = [] := by
  unfold State.mapOutbound
  split
  · next h => simp [h]
  · split <;> simp [*]

/-- Change the inbound channel of one stage. -/
def Stage.mapInbound (f : Channel → Channel) (st : Stage) : Stage := { st with inbound := f st.inbound }

@[simp] theorem Stage.mapInbound_exe (f : Channel → Channel) (st : Stage) : (st.mapInbound f).exe = st.exe := rfl
@[simp] theorem Stage.mapInbound_cap (f : Channel → Channel) (st : Stage) : (st.mapInbound f).cap = st.cap := rfl
@[simp] theorem Stage.mapInbound_join (f : Channel → Channel) (st : Stage) : (st.mapInbound f).join = st.join := rfl
@[simp] theorem Stage.mapInbound_inbound (f : Channel → Channel) (st : Stage) :
    (st.mapInbound f).inbound = f st.inbound := rfl

theorem State.stages_length (s : State) : s.stages.length = s.stageCount := by
  simp only [State.stages, State.stageCount, List.length_append, List.length_cons]
  omega

theorem State.stageIndex_lt (s : State) : s.stageIndex < s.stageCount := by
  simp only [State.stageIndex, State.stageCount]
  omega

/-- The stage in focus is the stage of its number. -/
theorem State.stages_stageIndex (s : State) : s.stages[s.stageIndex]? = some s.cur := by
  simp [State.stages, State.stageIndex]

theorem modify_second_after {α : Type} (f : α → α) (xs : List α) (a b : α) (rest : List α) :
    (xs ++ a :: b :: rest).modify (xs.length + 1) f = xs ++ a :: f b :: rest := by
  induction xs with
  | nil => rfl
  | cons x xs ih => simpa [List.modify_succ_cons] using ih

/-- R340: sending changes the inbound channel of stage (i+1) mod N, and no other stage. -/
theorem State.stages_mapOutbound (f : Channel → Channel) (s : State) :
    (s.mapOutbound f).stages = s.stages.modify ((s.stageIndex + 1) % s.stageCount) (Stage.mapInbound f) := by
  obtain ⟨cfg, prog, before, cur, after, result, job, search, schedule, turns⟩ := s
  simp only [State.stageIndex, State.stageCount]
  cases after with
  | cons next rest =>
    have h : (before.length + 1) % (before.length + 1 + (next :: rest).length) = before.length + 1 :=
      Nat.mod_eq_of_lt (by simp only [List.length_cons]; omega)
    rw [h]
    simp only [State.mapOutbound, State.stages]
    rw [modify_second_after]
    rfl
  | nil =>
    have h : (before.length + 1) % (before.length + 1 + ([] : List Stage).length) = 0 := by simp
    rw [h]
    cases before with
    | nil => simp [State.mapOutbound, State.stages, Stage.mapInbound]
    | cons first more => simp [State.mapOutbound, State.stages, Stage.mapInbound]

/-! ## The calls -/

theorem capShouldHalt_exe (s : State) : (capShouldHalt s).2.cur.exe = s.cur.exe := by
  unfold capShouldHalt
  split <;> rfl

theorem capRead_exe {s t : State} {v : Word} (h : capRead s = .value v t) : t.cur.exe = s.cur.exe := by
  unfold capRead at h
  split at h
  · cases h; rfl
  · cases h
  · split at h
    · cases h; rfl
    · cases h
  · split at h
    · cases h; rfl
    · cases h

@[simp] theorem capWrite_exe (v : Word) (s : State) : (capWrite v s).cur.exe = s.cur.exe := by
  unfold capWrite
  split <;> simp

@[simp] theorem capOnFinished_exe (s : State) : (capOnFinished s).cur.exe = s.cur.exe := by
  unfold capOnFinished
  split
  · rfl
  · split <;> rfl
  · rfl

@[simp] theorem releaseEndpoints_exe (s : State) : (releaseEndpoints s).cur.exe = s.cur.exe := by
  unfold releaseEndpoints
  split <;> simp

@[simp] theorem releaseEndpoints_cap (s : State) : (releaseEndpoints s).cur.cap = s.cur.cap := by
  unfold releaseEndpoints
  split <;> simp

@[simp] theorem releaseEndpoints_join (s : State) : (releaseEndpoints s).cur.join = s.cur.join := by
  unfold releaseEndpoints
  split <;> simp

/-- Everything of the machine that no executor's step changes: the parameters, the program, the job, the search, the
schedule. -/
def SameJob (s t : State) : Prop :=
  t.cfg = s.cfg ∧ t.prog = s.prog ∧ t.job = s.job ∧ t.search = s.search ∧ t.schedule = s.schedule ∧ t.turns = s.turns

theorem SameJob.refl (s : State) : SameJob s s := ⟨rfl, rfl, rfl, rfl, rfl, rfl⟩

theorem SameJob.trans {s t u : State} (h : SameJob s t) (h' : SameJob t u) : SameJob s u := by
  obtain ⟨h1, h2, h3, h4, h5, h6⟩ := h
  obtain ⟨g1, g2, g3, g4, g5, g6⟩ := h'
  exact ⟨g1.trans h1, g2.trans h2, g3.trans h3, g4.trans h4, g5.trans h5, g6.trans h6⟩

theorem capShouldHalt_sameJob (s : State) : SameJob s (capShouldHalt s).2 := by
  unfold capShouldHalt
  split <;> exact ⟨rfl, rfl, rfl, rfl, rfl, rfl⟩

theorem capRead_sameJob {s t : State} {v : Word} (h : capRead s = .value v t) : SameJob s t := by
  unfold capRead at h
  split at h
  · cases h; exact ⟨rfl, rfl, rfl, rfl, rfl, rfl⟩
  · cases h
  · split at h
    · cases h; exact ⟨rfl, rfl, rfl, rfl, rfl, rfl⟩
    · cases h
  · split at h
    · cases h; exact ⟨rfl, rfl, rfl, rfl, rfl, rfl⟩
    · cases h

theorem capWrite_sameJob (v : Word) (s : State) : SameJob s (capWrite v s) := by
  unfold capWrite
  split <;> simp [SameJob]

theorem capOnFinished_sameJob (s : State) : SameJob s (capOnFinished s) := by
  unfold capOnFinished
  split
  · exact SameJob.refl s
  · split <;> exact ⟨rfl, rfl, rfl, rfl, rfl, rfl⟩
  · exact ⟨rfl, rfl, rfl, rfl, rfl, rfl⟩

theorem releaseEndpoints_sameJob (s : State) : SameJob s (releaseEndpoints s) := by
  unfold releaseEndpoints
  split <;> simp [SameJob]

end Sys2Proof.Machine
end

