-- ==== Sys2Proof/Laws/Decode.lean ====
section
/-! SUPPORT. The laws of the decoder and the encoder (R84 to R95): the digits of a canonical word, and each lookup with its inverse. -/

namespace Sys2Proof

@[simp] theorem Opcode.ofNat?_toNat (op : Opcode) : Opcode.ofNat? op.toNat = some op := by cases op <;> rfl

@[simp] theorem Mode.ofDigit?_toDigit (m : Mode) : Mode.ofDigit? m.toDigit = some m := by cases m <;> rfl

theorem Opcode.toNat_of_ofNat? {n : Nat} {op : Opcode} (h : Opcode.ofNat? n = some op) : op.toNat = n := by
  unfold Opcode.ofNat? at h
  split at h <;> cases h <;> rfl

theorem Mode.toDigit_of_ofDigit? {d : Nat} {m : Mode} (h : Mode.ofDigit? d = some m) : m.toDigit = d := by
  unfold Mode.ofDigit? at h
  split at h <;> cases h <;> rfl

/-- R86: a digit above 2 names no mode. -/
theorem Mode.ofDigit?_none {d : Nat} (h : 2 < d) : Mode.ofDigit? d = none := by
  unfold Mode.ofDigit?
  split <;> first | rfl | omega

theorem slotMode_ok {k d : Nat} {m : Mode} (h : m.toDigit = d) : slotMode k d = .ok m := by
  subst h
  simp [slotMode]

theorem slotMode_error {k d : Nat} (h : 2 < d) : slotMode k d = .error (.illegalModeDigit k d) := by
  simp [slotMode, Mode.ofDigit?_none h]

/-- R90 past its first check. -/
theorem decodeFields_natCast {w : Word} {n : Nat} (h : w.val = n) : decodeFields w = decodeNat n := by
  unfold decodeFields
  rw [if_neg (by omega), h, Int.toNat_natCast]

/-- R94 read back: the digits of a canonical word, under any digits above the third slot. -/
theorem Decoded.digits_canonicalNat (d : Decoded) (hi : Nat) :
    (d.canonicalNat + 100000 * hi) % 100 = d.op.toNat ∧ digit 2 (d.canonicalNat + 100000 * hi) = d.m1.toDigit ∧
      digit 3 (d.canonicalNat + 100000 * hi) = d.m2.toDigit ∧ digit 4 (d.canonicalNat + 100000 * hi) = d.m3.toDigit := by
  have h := d.op.toNat_le
  have h1 := d.m1.toDigit_le
  have h2 := d.m2.toDigit_le
  have h3 := d.m3.toDigit_le
  simp only [Decoded.canonicalNat, digit]
  refine ⟨by omega, by omega, by omega, by omega⟩

/-- R90 on a canonical word, up to the destination check. -/
theorem decodeNat_canonicalNat (d : Decoded) (hi : Nat) : decodeNat (d.canonicalNat + 100000 * hi) = checkDest d := by
  obtain ⟨h0, h1, h2, h3⟩ := d.digits_canonicalNat hi
  simp only [decodeNat, h0, Opcode.ofNat?_toNat, slotMode_ok h1.symm, slotMode_ok h2.symm, slotMode_ok h3.symm]

theorem Decoded.wellFormed_toInstr (d : Decoded) : d.toInstr.wellFormed = d.legalDest := by
  obtain ⟨op, m1, m2, m3⟩ := d
  cases op <;> rfl

theorem decode_of_fields {w : Word} {d : Decoded} (h : decodeFields w = .ok d) : decode w = .ok d.toInstr := by
  simp [decode, h]

end Sys2Proof
end

