-- ==== Sys2Proof/Laws/Memory.lean ====
section
/-! SUPPORT. The laws of the memory tape: read after write (R65), growth (R52 to R55), and the canonical form, which every memory
operation keeps. -/

namespace Sys2Proof.Machine

/-! ## Lists of cells -/

theorem cellsRead_of_lt {len low a : Nat} {cs : List (Nat × Word)} (h : cellsWf len low cs = true) (ha : a < low) :
    cellsRead cs a = Word.zero := by
  induction cs generalizing low with
  | nil => rfl
  | cons c cs ih =>
    obtain ⟨k, v⟩ := c
    simp only [cellsWf, Bool.and_eq_true, decide_eq_true_eq] at h
    obtain ⟨⟨⟨hk, -⟩, -⟩, hrest⟩ := h
    simp only [cellsRead]
    rw [if_neg (by omega)]
    exact ih hrest (by omega)

theorem cellsRead_of_len_le {len low a : Nat} {cs : List (Nat × Word)} (h : cellsWf len low cs = true) (ha : len ≤ a) :
    cellsRead cs a = Word.zero := by
  induction cs generalizing low with
  | nil => rfl
  | cons c cs ih =>
    obtain ⟨k, v⟩ := c
    simp only [cellsWf, Bool.and_eq_true, decide_eq_true_eq] at h
    obtain ⟨⟨⟨-, hk⟩, -⟩, hrest⟩ := h
    simp only [cellsRead]
    rw [if_neg (by omega)]
    exact ih hrest

theorem cellsRead_cellsWrite_same {len low : Nat} {cs : List (Nat × Word)} (h : cellsWf len low cs = true) (a : Nat)
    (v : Word) : cellsRead (cellsWrite cs a v) a = v := by
  induction cs generalizing low with
  | nil =>
    simp only [cellsWrite]
    split
    · next hv => simpa [cellsRead] using hv.symm
    · simp [cellsRead]
  | cons c cs ih =>
    obtain ⟨k, x⟩ := c
    have hw := h
    simp only [cellsWf, Bool.and_eq_true, decide_eq_true_eq] at h
    obtain ⟨⟨⟨hk, -⟩, -⟩, hrest⟩ := h
    simp only [cellsWrite]
    split
    · next hlt =>
      split
      · next hv =>
        subst hv
        simp only [cellsRead]
        rw [if_neg (by omega)]
        exact cellsRead_of_lt hrest (by omega)
      · simp [cellsRead]
    · split
      · next hka =>
        subst hka
        split
        · next hv =>
          subst hv
          exact cellsRead_of_lt hrest (by omega)
        · simp [cellsRead]
      · next hka =>
        simp only [cellsRead]
        rw [if_neg hka]
        exact ih hrest

theorem cellsRead_cellsWrite_other (cs : List (Nat × Word)) {a b : Nat} (v : Word) (hab : b ≠ a) :
    cellsRead (cellsWrite cs a v) b = cellsRead cs b := by
  induction cs with
  | nil =>
    simp only [cellsWrite]
    split
    · rfl
    · simp [cellsRead, Ne.symm hab]
  | cons c cs ih =>
    obtain ⟨k, x⟩ := c
    simp only [cellsWrite]
    split
    · split
      · rfl
      · simp [cellsRead, Ne.symm hab]
    · split
      · next hka =>
        subst hka
        split
        · simp [cellsRead, Ne.symm hab]
        · simp [cellsRead, Ne.symm hab]
      · simp only [cellsRead]
        rw [ih]

theorem cellsWf_mono {len len' low : Nat} {cs : List (Nat × Word)} (h : cellsWf len low cs = true) (hl : len ≤ len') :
    cellsWf len' low cs = true := by
  induction cs generalizing low with
  | nil => rfl
  | cons c cs ih =>
    obtain ⟨k, v⟩ := c
    simp only [cellsWf, Bool.and_eq_true, decide_eq_true_eq] at h ⊢
    obtain ⟨⟨⟨hk, hlt⟩, hv⟩, hrest⟩ := h
    exact ⟨⟨⟨hk, by omega⟩, hv⟩, ih hrest⟩

theorem cellsWf_low {len low low' : Nat} {cs : List (Nat × Word)} (h : cellsWf len low cs = true) (hl : low' ≤ low) :
    cellsWf len low' cs = true := by
  cases cs with
  | nil => rfl
  | cons c cs =>
    obtain ⟨k, v⟩ := c
    simp only [cellsWf, Bool.and_eq_true, decide_eq_true_eq] at h ⊢
    obtain ⟨⟨⟨hk, hlt⟩, hv⟩, hrest⟩ := h
    exact ⟨⟨⟨by omega, hlt⟩, hv⟩, hrest⟩

theorem cellsWf_cellsWrite {len low a : Nat} {cs : List (Nat × Word)} (h : cellsWf len low cs = true) (hlow : low ≤ a)
    (ha : a < len) (v : Word) : cellsWf len low (cellsWrite cs a v) = true := by
  induction cs generalizing low with
  | nil =>
    simp only [cellsWrite]
    split
    · rfl
    · next hv => simp [cellsWf, hlow, ha, hv]
  | cons c cs ih =>
    obtain ⟨k, x⟩ := c
    have hw := h
    simp only [cellsWf, Bool.and_eq_true, decide_eq_true_eq] at h
    obtain ⟨⟨⟨hk, hlt⟩, hx⟩, hrest⟩ := h
    simp only [cellsWrite]
    split
    · next hak =>
      split
      · exact hw
      · next hv =>
        simp only [cellsWf, Bool.and_eq_true, decide_eq_true_eq]
        exact ⟨⟨⟨hlow, ha⟩, hv⟩, ⟨⟨by omega, hlt⟩, hx⟩, hrest⟩
    · split
      · next hka =>
        subst hka
        split
        · exact cellsWf_low hrest (by omega)
        · next hv =>
          simp only [cellsWf, Bool.and_eq_true, decide_eq_true_eq]
          exact ⟨⟨⟨hk, hlt⟩, hv⟩, hrest⟩
      · next hka =>
        simp only [cellsWf, Bool.and_eq_true, decide_eq_true_eq]
        exact ⟨⟨⟨hk, hlt⟩, hx⟩, ih hrest (by omega)⟩

theorem cellsWf_programCells (i : Nat) (prog : List Word) :
    cellsWf (i + prog.length) i (programCells i prog) = true := by
  induction prog generalizing i with
  | nil => rfl
  | cons v rest ih =>
    have h := ih (i + 1)
    have hl : i + 1 + rest.length = i + (v :: rest).length := by simp only [List.length_cons]; omega
    rw [hl] at h
    simp only [programCells]
    split
    · exact cellsWf_low h (by omega)
    · next hv =>
      simp only [cellsWf, Bool.and_eq_true, decide_eq_true_eq]
      exact ⟨⟨⟨Nat.le_refl i, by simp only [List.length_cons]; omega⟩, hv⟩, h⟩

theorem cellsRead_programCells (i : Nat) (prog : List Word) (a : Nat) :
    cellsRead (programCells i prog) (i + a) = prog[a]?.getD Word.zero := by
  induction prog generalizing i a with
  | nil => rfl
  | cons v rest ih =>
    have hlow := cellsWf_programCells (i + 1) rest
    simp only [programCells]
    cases a with
    | zero =>
      split
      · next hv =>
        rw [cellsRead_of_lt hlow (by omega)]
        simp [hv]
      · simp [cellsRead]
    | succ a =>
      have h := ih (i + 1) a
      have he : i + 1 + a = i + (a + 1) := by omega
      rw [he] at h
      split
      · simpa using h
      · simp only [cellsRead]
        rw [if_neg (by omega)]
        simpa using h

/-! ## Memory -/

@[simp] theorem Memory.grow_cells (m : Memory) (a : Nat) : (m.grow a).cells = m.cells := rfl
@[simp] theorem Memory.grow_len (m : Memory) (a : Nat) : (m.grow a).len = max m.len (a + 1) := rfl
@[simp] theorem Memory.write_len (m : Memory) (a : Nat) (v : Word) : (m.write a v).len = max m.len (a + 1) := rfl
@[simp] theorem Memory.read_grow (m : Memory) (a b : Nat) : (m.grow a).read b = m.read b := rfl

theorem Memory.grow_grow (m : Memory) (a b : Nat) : (m.grow a).grow b = m.grow (max a b) := by
  simp only [Memory.grow, Memory.mk.injEq, true_and]
  omega

theorem Memory.wf_iff (m : Memory) : m.wf = true ↔ cellsWf m.len 0 m.cells = true ∧ m.len ≤ maxAddr + 1 := by
  simp [Memory.wf]

/-- R65: a read after a write to the same cell gives the value written. -/
theorem Memory.read_write_same {m : Memory} (h : m.wf = true) (a : Nat) (v : Word) : (m.write a v).read a = v :=
  cellsRead_cellsWrite_same ((Memory.wf_iff m).1 h).1 a v

/-- R65: a write leaves every other cell alone. -/
theorem Memory.read_write_other (m : Memory) {a b : Nat} (v : Word) (h : b ≠ a) :
    (m.write a v).read b = m.read b :=
  cellsRead_cellsWrite_other m.cells v h

/-- R55: a cell at or beyond `len` reads 0. -/
theorem Memory.read_of_len_le {m : Memory} (h : m.wf = true) {a : Nat} (ha : m.len ≤ a) : m.read a = Word.zero :=
  cellsRead_of_len_le ((Memory.wf_iff m).1 h).1 ha

theorem Memory.wf_grow {m : Memory} (h : m.wf = true) {a : Nat} (ha : a ≤ maxAddr) : (m.grow a).wf = true := by
  rw [Memory.wf_iff] at h ⊢
  refine ⟨cellsWf_mono h.1 (Nat.le_max_left _ _), ?_⟩
  have := h.2
  simp only [Memory.grow_len]
  omega

theorem Memory.wf_write {m : Memory} (h : m.wf = true) {a : Nat} (ha : a ≤ maxAddr) (v : Word) :
    (m.write a v).wf = true := by
  rw [Memory.wf_iff] at h ⊢
  refine ⟨cellsWf_cellsWrite (cellsWf_mono h.1 (Nat.le_max_left _ _)) (Nat.zero_le a) ?_ v, ?_⟩
  · omega
  · have := h.2
    simp only [Memory.write_len]
    omega

theorem Memory.wf_ofProgram (prog : List Word) (h : prog.length ≤ maxAddr + 1) : (Memory.ofProgram prog).wf = true := by
  rw [Memory.wf_iff]
  refine ⟨?_, h⟩
  have := cellsWf_programCells 0 prog
  simpa [Memory.ofProgram] using this

@[simp] theorem Memory.ofProgram_len (prog : List Word) : (Memory.ofProgram prog).len = prog.length := rfl

/-- R38: memory starts as a copy of the program. -/
theorem Memory.read_ofProgram (prog : List Word) (a : Nat) :
    (Memory.ofProgram prog).read a = prog[a]?.getD Word.zero := by
  have := cellsRead_programCells 0 prog a
  simpa [Memory.ofProgram, Memory.read] using this

/-- Writing after growing over the cell is writing: the growth is the write's own (R54). -/
theorem Memory.write_grow_self (m : Memory) (a : Nat) (v : Word) : (m.grow a).write a v = m.write a v := by
  simp only [Memory.grow, Memory.write, Memory.mk.injEq, true_and]
  omega

theorem Memory.wf_empty : Memory.empty.wf = true := by decide

end Sys2Proof.Machine
end

