-- ==== Sys2Proof/Laws/Operands.lean ====
section
/-! SUPPORT. What the shared operations can do: an access (R52, R53), an operand (R112 to R115, R128), the advance (R118), the end
of a run (R120, R123). Each is said once, in terms of the pure functions of Machine/Operands.lean. -/

namespace Sys2Proof.Machine

/-! ## Growth -/

/-- `m'` is `m` grown: the same contents, and a length that is not smaller. -/
def Memory.Grown (m m' : Memory) : Prop := m'.cells = m.cells ∧ m.len ≤ m'.len ∧ (m.wf = true → m'.wf = true)

theorem Memory.Grown.refl (m : Memory) : m.Grown m := ⟨rfl, Nat.le_refl _, id⟩

theorem Memory.Grown.trans {a b c : Memory} (h : a.Grown b) (h' : b.Grown c) : a.Grown c :=
  ⟨h'.1.trans h.1, Nat.le_trans h.2.1 h'.2.1, fun hw => h'.2.2 (h.2.2 hw)⟩

theorem Memory.grown_grow (m : Memory) {a : Nat} (ha : a ≤ maxAddr) : m.Grown (m.grow a) :=
  ⟨rfl, Nat.le_max_left _ _, fun hw => Memory.wf_grow hw ha⟩

theorem Memory.Grown.read {m m' : Memory} (h : m.Grown m') (a : Nat) : m'.read a = m.read a := by
  simp only [Memory.read, h.1]

/-! ## Addresses -/

theorem legalAddress_ok {a : Int} {n : Nat} (h : legalAddress a = .ok n) : 0 ≤ a ∧ a ≤ maxInt64 ∧ a = (n : Int) := by
  unfold legalAddress at h
  split at h
  · cases h
  · split at h
    · cases h
    · cases h
      refine ⟨by omega, by omega, ?_⟩
      omega

theorem legalAddress_natCast {n : Nat} (h : n ≤ maxAddr) : legalAddress (n : Int) = .ok n := by
  unfold legalAddress
  simp only [maxInt64, maxAddr] at *
  rw [if_neg (by omega), if_neg (by omega)]
  simp

theorem accessCheck_ok {cfg : Config} {a : Int} {n : Nat} (h : accessCheck cfg a = .ok n) :
    legalAddress a = .ok n ∧ ∀ limit, cfg.memLimit = some limit → n < limit := by
  unfold accessCheck at h
  split at h
  · cases h
  · next m hm =>
    split at h
    · next hl =>
      cases h
      exact ⟨hm, fun limit h => by rw [hl] at h; cases h⟩
    · next limit hl =>
      split at h
      · cases h
      · cases h
        refine ⟨hm, fun limit' h => ?_⟩
        rw [hl] at h
        cases h
        omega

theorem accessCheck_bound {cfg : Config} {a : Int} {n : Nat} (h : accessCheck cfg a = .ok n) :
    a = (n : Int) ∧ n ≤ maxAddr := by
  obtain ⟨h0, h1, h2⟩ := legalAddress_ok (accessCheck_ok h).1
  simp only [maxInt64] at h1
  exact ⟨h2, by simp only [maxAddr]; omega⟩

theorem effectiveAddress_bound {k n : Nat} {m : Mode} {p rb : Word} (h : effectiveAddress k m p rb = .ok n) :
    n ≤ maxAddr := by
  have key : ∀ a : Int, legalAddress a = .ok n → n ≤ maxAddr := fun a ha => by
    obtain ⟨h0, h1, h2⟩ := legalAddress_ok ha
    simp only [maxInt64] at h1
    simp only [maxAddr]
    omega
  cases m with
  | pos => exact key _ h
  | imm => cases h
  | rel => exact key _ h

/-! ## Accesses -/

theorem memRead_peek_ok {s : State} {a : Int} {v : Word} (h : peek s a = .ok v) :
    ∃ n : Nat, a = n ∧ n ≤ maxAddr ∧ v = s.mem.read n ∧ memRead a s = .ok v (s.setMem (s.mem.grow n)) := by
  cases hc : accessCheck s.cfg a with
  | error f => simp only [peek, hc, reduceCtorEq] at h
  | ok n =>
    simp only [peek, hc, Except.ok.injEq] at h
    subst h
    obtain ⟨h1, h2⟩ := accessCheck_bound hc
    refine ⟨n, h1, h2, rfl, ?_⟩
    simp only [memRead, hc]

theorem memRead_peek_error {s : State} {a : Int} {f : ExecFault} (h : peek s a = .error f) :
    memRead a s = .fault f s := by
  cases hc : accessCheck s.cfg a with
  | error g =>
    simp only [peek, hc, Except.error.injEq] at h
    subst h
    simp only [memRead, hc]
  | ok n => simp only [peek, hc, reduceCtorEq] at h

theorem peek_grown {s : State} {m : Memory} (h : s.mem.Grown m) (a : Int) : peek (s.setMem m) a = peek s a := by
  unfold peek
  rw [show (s.setMem m).cfg = s.cfg from rfl]
  split
  · rfl
  · exact congrArg Except.ok (h.read _)

theorem operandValue_grown {s : State} {m : Memory} (h : s.mem.Grown m) (k : Nat) (md : Mode) :
    operandValue k md (s.setMem m) = operandValue k md s := by
  unfold operandValue
  simp only [State.setMem_pc, State.setMem_rb, peek_grown h]

theorem operandAddress_grown {s : State} {m : Memory} (h : s.mem.Grown m) (k : Nat) (md : Mode) :
    operandAddress k md (s.setMem m) = operandAddress k md s := by
  unfold operandAddress
  simp only [State.setMem_pc, State.setMem_rb, peek_grown h]

theorem sourceReach_grown {s : State} {m : Memory} (h : s.mem.Grown m) (k : Nat) (md : Mode) :
    sourceReach k md (s.setMem m) = sourceReach k md s := by
  unfold sourceReach
  simp only [State.setMem_pc, State.setMem_rb, State.setMem_mem, h.read]

/-! ## Operands -/

/-- A fault on the way leaves the state with its memory grown, and nothing else. -/
def FaultGrown {α : Type} (x : Attempt α) (f : ExecFault) (s : State) : Prop :=
  ∃ m, s.mem.Grown m ∧ x = .fault f (s.setMem m)

theorem FaultGrown.here {α : Type} (f : ExecFault) (s : State) : FaultGrown (.fault f s : Attempt α) f s :=
  ⟨s.mem, Memory.Grown.refl _, rfl⟩

theorem FaultGrown.of_grown {α : Type} {x : Attempt α} {f : ExecFault} {s : State} {m : Memory} (hm : s.mem.Grown m)
    (h : FaultGrown x f (s.setMem m)) : FaultGrown x f s := by
  obtain ⟨m', hm', hx⟩ := h
  exact ⟨m', hm.trans hm', hx⟩

theorem accessCheck_of_legal {cfg : Config} {a : Int} {n : Nat} (h : legalAddress a = .ok n) :
    accessCheck cfg (n : Int) = accessCheck cfg a := by
  rw [(legalAddress_ok h).2.2]

/-- The read of a resolved address. -/
def readAt (a : Int) (s : State) : Attempt Word :=
  (attempt (legalAddress a) s).andThen fun n s => memRead (n : Int) s

theorem readAt_ok {s : State} {a : Int} {v : Word} (h : peek s a = .ok v) :
    a.toNat ≤ maxAddr ∧ readAt a s = .ok v (s.setMem (s.mem.grow a.toNat)) := by
  obtain ⟨n, rfl, hb, rfl, hr⟩ := memRead_peek_ok h
  refine ⟨by simpa using hb, ?_⟩
  unfold readAt
  rw [legalAddress_natCast hb]
  simpa [attempt, Attempt.andThen] using hr

theorem readAt_error {s : State} {a : Int} {f : ExecFault} (h : peek s a = .error f) : readAt a s = .fault f s := by
  unfold readAt
  cases hl : legalAddress a with
  | error g =>
    have : g = f := by
      unfold peek accessCheck at h
      rw [hl] at h
      cases h
      rfl
    subst this
    rfl
  | ok n =>
    have he : a = (n : Int) := (legalAddress_ok hl).2.2
    subst he
    simpa [attempt, Attempt.andThen] using memRead_peek_error h

theorem paramWord_peek (k : Nat) (s : State) : paramWord k s = memRead ((s.pc + k : Nat) : Int) s := rfl

/-- R112 to R114, R128: a source operand that can be read has its pure value, and its reads only grow memory. -/
theorem sourceOperand_ok {k : Nat} {m : Mode} {s : State} {v : Word} (h : operandValue k m s = .ok v) :
    sourceReach k m s ≤ maxAddr ∧ sourceOperand k m s = .ok v (s.setMem (s.mem.grow (sourceReach k m s))) := by
  unfold operandValue at h
  split at h
  · cases h
  · next p hp =>
    obtain ⟨n, hn, hb, hpn, hr⟩ := memRead_peek_ok hp
    have hn' : s.pc + k = n := by exact_mod_cast hn
    subst hn'
    have hg := Memory.grown_grow s.mem hb
    have hfetch : paramWord k s = .ok p (s.setMem (s.mem.grow (s.pc + k))) := hr
    cases m with
    | imm =>
      cases h
      refine ⟨hb, ?_⟩
      simp [sourceOperand, hfetch, Attempt.andThen, sourceReach]
    | pos =>
      have h' : peek (s.setMem (s.mem.grow (s.pc + k))) p.val = .ok v := by rw [peek_grown hg]; exact h
      obtain ⟨hb', hr'⟩ := readAt_ok h'
      refine ⟨by simp only [sourceReach, ← hpn]; exact Nat.max_le.2 ⟨hb, hb'⟩, ?_⟩
      simp only [sourceOperand, hfetch, Attempt.andThen, effectiveAddress]
      have := hr'
      simp only [readAt, Attempt.andThen] at this
      rw [this]
      simp [sourceReach, ← hpn, Memory.grow_grow]
    | rel =>
      have h' : peek (s.setMem (s.mem.grow (s.pc + k))) (s.rb.val + p.val) = .ok v := by
        rw [peek_grown hg]; exact h
      obtain ⟨hb', hr'⟩ := readAt_ok h'
      refine ⟨by simp only [sourceReach, ← hpn]; exact Nat.max_le.2 ⟨hb, hb'⟩, ?_⟩
      simp only [sourceOperand, hfetch, Attempt.andThen, effectiveAddress]
      have := hr'
      simp only [readAt, Attempt.andThen] at this
      simp only [State.setMem_rb]
      rw [this]
      simp [sourceReach, ← hpn, Memory.grow_grow]

/-- R116, R303: a source operand that cannot be read faults with its pure fault, and only memory has grown. -/
theorem sourceOperand_error {k : Nat} {m : Mode} {s : State} {f : ExecFault} (h : operandValue k m s = .error f) :
    FaultGrown (sourceOperand k m s) f s := by
  unfold operandValue at h
  split at h
  · next g hp =>
    cases h
    have hfetch : paramWord k s = .fault f s := memRead_peek_error hp
    simp only [sourceOperand, hfetch, Attempt.andThen]
    exact FaultGrown.here f s
  · next p hp =>
    obtain ⟨n, hn, hb, hpn, hr⟩ := memRead_peek_ok hp
    have hn' : s.pc + k = n := by exact_mod_cast hn
    subst hn'
    have hg := Memory.grown_grow s.mem hb
    have hfetch : paramWord k s = .ok p (s.setMem (s.mem.grow (s.pc + k))) := hr
    refine FaultGrown.of_grown hg ?_
    cases m with
    | imm => cases h
    | pos =>
      have h' : peek (s.setMem (s.mem.grow (s.pc + k))) p.val = .error f := by rw [peek_grown hg]; exact h
      have hr' := readAt_error h'
      simp only [readAt, Attempt.andThen] at hr'
      simp only [sourceOperand, hfetch, Attempt.andThen, effectiveAddress]
      rw [hr']
      exact FaultGrown.here f _
    | rel =>
      have h' : peek (s.setMem (s.mem.grow (s.pc + k))) (s.rb.val + p.val) = .error f := by
        rw [peek_grown hg]; exact h
      have hr' := readAt_error h'
      simp only [readAt, Attempt.andThen] at hr'
      simp only [sourceOperand, hfetch, Attempt.andThen, effectiveAddress, State.setMem_rb]
      rw [hr']
      exact FaultGrown.here f _

/-- R115: a destination has its pure address, and its parameter fetch only grows memory. -/
theorem destOperand_ok {k d : Nat} {m : Mode} {s : State} (h : operandAddress k m s = .ok d) :
    s.pc + k ≤ maxAddr ∧ d ≤ maxAddr ∧ destOperand k m s = .ok d (s.setMem (s.mem.grow (s.pc + k))) := by
  unfold operandAddress at h
  split at h
  · cases h
  · next p hp =>
    obtain ⟨n, hn, hb, hpn, hr⟩ := memRead_peek_ok hp
    have hn' : s.pc + k = n := by exact_mod_cast hn
    subst hn'
    have hfetch : paramWord k s = .ok p (s.setMem (s.mem.grow (s.pc + k))) := hr
    refine ⟨hb, effectiveAddress_bound h, ?_⟩
    simp only [destOperand, hfetch, Attempt.andThen, State.setMem_rb, h, attempt]

theorem destOperand_error {k : Nat} {m : Mode} {s : State} {f : ExecFault} (h : operandAddress k m s = .error f) :
    FaultGrown (destOperand k m s) f s := by
  unfold operandAddress at h
  split at h
  · next g hp =>
    cases h
    have hfetch : paramWord k s = .fault f s := memRead_peek_error hp
    simp only [destOperand, hfetch, Attempt.andThen]
    exact FaultGrown.here f s
  · next p hp =>
    obtain ⟨n, hn, hb, hpn, hr⟩ := memRead_peek_ok hp
    have hn' : s.pc + k = n := by exact_mod_cast hn
    subst hn'
    have hfetch : paramWord k s = .ok p (s.setMem (s.mem.grow (s.pc + k))) := hr
    refine ⟨_, Memory.grown_grow s.mem hb, ?_⟩
    simp only [destOperand, hfetch, Attempt.andThen, State.setMem_rb, h, attempt]

/-! ## The end of a run -/

@[simp] theorem enterFaulted_mem (f : ExecFault) (s : State) : (enterFaulted f s).mem = s.mem := by
  simp [enterFaulted, State.mem]
@[simp] theorem enterFaulted_pc (f : ExecFault) (s : State) : (enterFaulted f s).pc = s.pc := by
  simp [enterFaulted, State.pc]
@[simp] theorem enterFaulted_rb (f : ExecFault) (s : State) : (enterFaulted f s).rb = s.rb := by
  simp [enterFaulted, State.rb]
@[simp] theorem enterFaulted_finished (f : ExecFault) (s : State) : (enterFaulted f s).finished = s.finished := by
  simp [enterFaulted, State.finished]
@[simp] theorem enterFaulted_run (f : ExecFault) (s : State) : (enterFaulted f s).run = .faulted f s.pc := by
  simp [enterFaulted, State.run]
@[simp] theorem enterFaulted_cap (f : ExecFault) (s : State) : (enterFaulted f s).cur.cap = s.cur.cap := by
  simp [enterFaulted]

theorem enterFaulted_sameJob (f : ExecFault) (s : State) : SameJob s (enterFaulted f s) :=
  SameJob.trans (t := s.setRun (.faulted f s.pc)) ⟨rfl, rfl, rfl, rfl, rfl, rfl⟩ (releaseEndpoints_sameJob _)

theorem enterHalted_exe (s : State) :
    (enterHalted s).cur.exe = { s.cur.exe with run := .halted, finished := true } := by
  have h := capOnFinished_exe (s.setRun .halted)
  simp only [enterHalted, releaseEndpoints_exe]
  simp only [State.setFinished]
  rw [h]
  rfl

theorem enterHalted_sameJob (s : State) : SameJob s (enterHalted s) :=
  SameJob.trans (t := s.setRun .halted) ⟨rfl, rfl, rfl, rfl, rfl, rfl⟩
    (SameJob.trans (capOnFinished_sameJob _)
      (SameJob.trans (t := (capOnFinished (s.setRun .halted)).setFinished true) ⟨rfl, rfl, rfl, rfl, rfl, rfl⟩
        (releaseEndpoints_sameJob _)))

/-! ## The advance and the stores -/

theorem nextPc_ok {len p : Nat} {s : State} (h : nextPc len s = .ok p) : p = s.pc + len ∧ p ≤ maxAddr := by
  unfold nextPc at h
  split at h
  · cases h
    exact ⟨rfl, by assumption⟩
  · cases h

/-- R118, R303: the advance goes on, or faults with nothing changed. -/
theorem advance_cases (len : Nat) (s : State) :
    (∃ p, nextPc len s = .ok p ∧ advance len s = .ok () (s.setPc p)) ∨
      (∃ f, nextPc len s = .error f ∧ advance len s = .fault f s) := by
  unfold advance
  cases h : nextPc len s with
  | ok p => exact .inl ⟨p, rfl, rfl⟩
  | error f => exact .inr ⟨f, rfl, rfl⟩

/-- R116, R302, R303: the store and the advance go on together, or fault with nothing changed. -/
theorem storeAndAdvance_cases (d : Nat) (v : Word) (len : Nat) (s : State) :
    (∃ n p, accessCheck s.cfg (d : Int) = .ok n ∧ n = d ∧ d ≤ maxAddr ∧ nextPc len s = .ok p ∧
        storeAndAdvance d v len s = .ok () ((s.setMem (s.mem.write d v)).setPc p)) ∨
      (∃ f, storeAndAdvance d v len s = .fault f s ∧
        (accessCheck s.cfg (d : Int) = .error f ∨
          ((∃ n, accessCheck s.cfg (d : Int) = .ok n) ∧ nextPc len s = .error f))) := by
  unfold storeAndAdvance memWrite
  cases hd : accessCheck s.cfg (d : Int) with
  | error f => exact .inr ⟨f, rfl, .inl rfl⟩
  | ok n =>
    obtain ⟨h1, h2⟩ := accessCheck_bound hd
    have hnd : n = d := by exact_mod_cast h1.symm
    subst hnd
    cases hp : nextPc len s with
    | ok p => exact .inl ⟨n, p, rfl, rfl, h2, rfl, rfl⟩
    | error f => exact .inr ⟨f, rfl, .inr ⟨⟨n, rfl⟩, rfl⟩⟩

end Sys2Proof.Machine
end

