-- ==== Sys2Proof/Laws/Exec.lean ====
section
/-! SUPPORT. What an instruction can do, said once for each shape of instruction and then once for all ten (`exec_cases`), so that no
later proof unfolds a meaning. -/

namespace Sys2Proof.Machine

/-! ## Capability calls and memory do not meet (R331) -/

theorem mapOutbound_setMem (f : Channel → Channel) (s : State) (m : Memory) :
    (s.setMem m).mapOutbound f = (s.mapOutbound f).setMem m := by
  obtain ⟨cfg, prog, before, cur, after, result, job, search, schedule, turns⟩ := s
  cases after with
  | cons next rest => rfl
  | nil => cases before <;> rfl

theorem capWrite_setMem (v : Word) (s : State) (m : Memory) :
    capWrite v (s.setMem m) = (capWrite v s).setMem m := by
  unfold capWrite
  simp only [State.setMem_cap]
  split
  · rfl
  · exact mapOutbound_setMem (Channel.send v) (s.setCap (.stage (some v))) m
  · rfl

/-- `CapRead()` gives the same answer whatever memory holds, and leaves memory to the executor. -/
theorem capRead_setMem (s : State) (m : Memory) :
    capRead (s.setMem m) =
      match capRead s with
      | .value v t => .value v (t.setMem m)
      | .blocked => .blocked
      | .exhausted => .exhausted := by
  unfold capRead
  simp only [State.setMem_cap, State.setMem_inbound, State.setMem_cfg]
  cases s.cur.cap with
  | replay inq outl => cases inq <;> rfl
  | stage last => cases Channel.receive s.cfg.readOnClosed s.cur.inbound <;> rfl
  | controller c =>
    cases h : c.pendingRead with
    | none => simp only [h]
    | some v => simp only [h]; rfl

/-! ## Three operands -/

/-- R140, R141, R170, R171 with R116: the instruction that does not fault. -/
theorem computeInto_ok {f : Word → Word → Except ExecFault Word} {m1 m2 m3 : Mode} {s : State} {d : Nat} {r : Word}
    (h : computeOutcome f m1 m2 m3 s = .ok (d, r)) :
    d ≤ maxAddr ∧ s.pc + 4 ≤ maxAddr ∧ reach3 m1 m2 s ≤ maxAddr ∧ operandAddress 3 m3 s = .ok d ∧
      computeInto f m1 m2 m3 s = .ok () (s.storing (reach3 m1 m2 s) d r (s.pc + 4)) := by
  unfold computeOutcome at h
  split at h
  · cases h
  next a ha =>
  split at h
  · cases h
  next b hb =>
  split at h
  · cases h
  next d' hd =>
  split at h
  · cases h
  next r' hr =>
  split at h
  · cases h
  next n hn =>
  split at h
  · cases h
  next p hp =>
  obtain ⟨rfl, rfl⟩ : d' = d ∧ r' = r := by simpa using h
  obtain ⟨hb1, h1⟩ := sourceOperand_ok ha
  have g1 := Memory.grown_grow s.mem hb1
  have hb' : operandValue 2 m2 (s.setMem (s.mem.grow (sourceReach 1 m1 s))) = .ok b := by
    rw [operandValue_grown g1]; exact hb
  obtain ⟨hb2, h2⟩ := sourceOperand_ok hb'
  simp only [sourceReach_grown g1, State.setMem_mem, State.setMem_setMem, Memory.grow_grow] at hb2 h2
  have hb12 : max (sourceReach 1 m1 s) (sourceReach 2 m2 s) ≤ maxAddr := Nat.max_le.2 ⟨hb1, hb2⟩
  have g2 := Memory.grown_grow s.mem hb12
  have hd' : operandAddress 3 m3
      (s.setMem (s.mem.grow (max (sourceReach 1 m1 s) (sourceReach 2 m2 s)))) = .ok d' := by
    rw [operandAddress_grown g2]; exact hd
  obtain ⟨hb3, hdm, h3⟩ := destOperand_ok hd'
  simp only [State.setMem_pc, State.setMem_mem, State.setMem_setMem, Memory.grow_grow] at hb3 h3
  obtain ⟨hp1, hp2⟩ := nextPc_ok hp
  subst hp1
  refine ⟨hdm, hp2, ?_, hd, ?_⟩
  · simp only [reach3]
    exact Nat.max_le.2 ⟨hb1, Nat.max_le.2 ⟨hb2, hb3⟩⟩
  · obtain ⟨hn1, -⟩ := accessCheck_bound hn
    have hn2 : d' = n := by exact_mod_cast hn1
    subst hn2
    simp only [computeInto, h1, Attempt.andThen, h2, h3, hr, attempt, storeAndAdvance, memWrite, State.setMem_cfg, hn,
      State.setMem_mem, State.setMem_setMem]
    have hp' : nextPc 4 (s.setMem (s.mem.grow
        (max (max (sourceReach 1 m1 s) (sourceReach 2 m2 s)) (s.pc + 3)))) = .ok (s.pc + 4) := hp
    rw [hp']
    simp only [State.storing, reach3, Nat.max_assoc]

/-- R302, R303: the instruction that faults does so with the first fault, and only memory has grown. -/
theorem computeInto_error {f : Word → Word → Except ExecFault Word} {m1 m2 m3 : Mode} {s : State} {e : ExecFault}
    (h : computeOutcome f m1 m2 m3 s = .error e) : FaultGrown (computeInto f m1 m2 m3 s) e s := by
  unfold computeOutcome at h
  split at h
  next ha =>
    cases h
    obtain ⟨m, hm, hx⟩ := sourceOperand_error ha
    exact ⟨m, hm, by simp only [computeInto, hx, Attempt.andThen]⟩
  next a ha =>
  obtain ⟨hb1, h1⟩ := sourceOperand_ok ha
  have g1 := Memory.grown_grow s.mem hb1
  split at h
  next hb =>
    cases h
    rw [← operandValue_grown g1] at hb
    obtain ⟨m, hm, hx⟩ := FaultGrown.of_grown g1 (sourceOperand_error hb)
    exact ⟨m, hm, by simp only [computeInto, h1, hx, Attempt.andThen]⟩
  next b hb =>
  rw [← operandValue_grown g1] at hb
  obtain ⟨hb2, h2⟩ := sourceOperand_ok hb
  have g2 := Memory.grown_grow (s.mem.grow (sourceReach 1 m1 s)) hb2
  simp only [State.setMem_mem, State.setMem_setMem] at h2
  have g12 := g1.trans g2
  split at h
  next hd =>
    cases h
    rw [← operandAddress_grown g12] at hd
    obtain ⟨m, hm, hx⟩ := FaultGrown.of_grown g12 (destOperand_error hd)
    exact ⟨m, hm, by simp only [computeInto, h1, h2, hx, Attempt.andThen]⟩
  next d hd =>
  rw [← operandAddress_grown g12] at hd
  obtain ⟨hb3, hdm, h3⟩ := destOperand_ok hd
  have g3 := Memory.grown_grow ((s.mem.grow (sourceReach 1 m1 s)).grow
    (sourceReach 2 m2 (s.setMem (s.mem.grow (sourceReach 1 m1 s))))) hb3
  simp only [State.setMem_pc, State.setMem_mem, State.setMem_setMem] at h3 g3
  have g123 := g12.trans g3
  split at h
  next hr =>
    cases h
    exact ⟨_, g123, by simp only [computeInto, h1, h2, h3, hr, attempt, Attempt.andThen]⟩
  next r hr =>
  split at h
  next hn =>
    cases h
    exact ⟨_, g123, by
      simp only [computeInto, h1, h2, h3, hr, attempt, Attempt.andThen, storeAndAdvance, memWrite, State.setMem_cfg, hn]⟩
  next n hn =>
  split at h
  next hp =>
    cases h
    refine ⟨_, g123, ?_⟩
    simp only [computeInto, h1, h2, h3, hr, attempt, Attempt.andThen, storeAndAdvance, memWrite, State.setMem_cfg, hn]
    have hp' : nextPc 4 (s.setMem (((s.mem.grow (sourceReach 1 m1 s)).grow
      (sourceReach 2 m2 (s.setMem (s.mem.grow (sourceReach 1 m1 s))))).grow (s.pc + 3))) = .error e := hp
    rw [hp']
  next => cases h

/-! ## Jumps -/

/-- R302, items 4, 5 and 8, for a jump: the first fault, or the next `pc`. -/
def jumpOutcome (taken : Word → Bool) (m1 m2 : Mode) (s : State) : Except ExecFault Nat :=
  match operandValue 1 m1 s with
  | .error e => .error e
  | .ok c =>
    match operandValue 2 m2 s with
    | .error e => .error e
    | .ok t =>
      if taken c then (if t.val < 0 then .error (.negativeAddress t.val) else .ok t.val.toNat) else nextPc 3 s

theorem jumpWhen_ok {taken : Word → Bool} {m1 m2 : Mode} {s : State} {p : Nat}
    (h : jumpOutcome taken m1 m2 s = .ok p) :
    p ≤ maxAddr ∧ reach2 m1 m2 s ≤ maxAddr ∧ jumpWhen taken m1 m2 s = .ok () (s.goingOn (reach2 m1 m2 s) p) := by
  unfold jumpOutcome at h
  split at h
  · cases h
  next c hc =>
  split at h
  · cases h
  next t ht =>
  obtain ⟨hb1, h1⟩ := sourceOperand_ok hc
  have g1 := Memory.grown_grow s.mem hb1
  rw [← operandValue_grown g1] at ht
  obtain ⟨hb2, h2⟩ := sourceOperand_ok ht
  simp only [sourceReach_grown g1, State.setMem_mem, State.setMem_setMem, Memory.grow_grow] at hb2 h2
  split at h
  next hk =>
    split at h
    · cases h
    next htn =>
    cases h
    refine ⟨?_, Nat.max_le.2 ⟨hb1, hb2⟩, ?_⟩
    · have := t.property.2
      simp only [maxInt64] at this
      simp only [maxAddr]
      omega
    · simp only [jumpWhen, h1, h2, Attempt.andThen, hk, if_true, jumpTo, htn, if_false, State.goingOn, reach2]
  next hk =>
    obtain ⟨hp1, hp2⟩ := nextPc_ok h
    refine ⟨hp2, Nat.max_le.2 ⟨hb1, hb2⟩, ?_⟩
    simp only [jumpWhen, h1, h2, Attempt.andThen, hk, advance]
    have h' : nextPc 3 (s.setMem (s.mem.grow (max (sourceReach 1 m1 s) (sourceReach 2 m2 s)))) = .ok p := h
    rw [h']
    rfl

theorem jumpWhen_error {taken : Word → Bool} {m1 m2 : Mode} {s : State} {e : ExecFault}
    (h : jumpOutcome taken m1 m2 s = .error e) : FaultGrown (jumpWhen taken m1 m2 s) e s := by
  unfold jumpOutcome at h
  split at h
  next hc =>
    cases h
    obtain ⟨m, hm, hx⟩ := sourceOperand_error hc
    exact ⟨m, hm, by simp only [jumpWhen, hx, Attempt.andThen]⟩
  next c hc =>
  obtain ⟨hb1, h1⟩ := sourceOperand_ok hc
  have g1 := Memory.grown_grow s.mem hb1
  split at h
  next ht =>
    cases h
    rw [← operandValue_grown g1] at ht
    obtain ⟨m, hm, hx⟩ := FaultGrown.of_grown g1 (sourceOperand_error ht)
    exact ⟨m, hm, by simp only [jumpWhen, h1, hx, Attempt.andThen]⟩
  next t ht =>
  rw [← operandValue_grown g1] at ht
  obtain ⟨hb2, h2⟩ := sourceOperand_ok ht
  have g2 := Memory.grown_grow (s.mem.grow (sourceReach 1 m1 s)) hb2
  simp only [State.setMem_mem, State.setMem_setMem] at h2
  have g12 := g1.trans g2
  refine ⟨_, g12, ?_⟩
  split at h
  next hk =>
    split at h
    next htn =>
      cases h
      simp only [jumpWhen, h1, h2, Attempt.andThen, hk, if_true, jumpTo, htn]
    next => cases h
  next hk =>
    have h' : nextPc 3 (s.setMem ((s.mem.grow (sourceReach 1 m1 s)).grow
      (sourceReach 2 m2 (s.setMem (s.mem.grow (sourceReach 1 m1 s)))))) = .error e := h
    simp only [jumpWhen, h1, h2, Attempt.andThen, hk, advance, h', attempt]
    rfl

/-! ## Faulting -/

/-- What an instruction that faults has to answer with, for `FaultsWith`. -/
theorem faultsWith_of_grown {i : Instr} {s : State} {f : ExecFault} {m : Memory} (h : s.mem.Grown m)
    (hx : exec i s = .next (enterFaulted f (s.setMem m))) : FaultsWith i s f :=
  ⟨_, hx, by simp, by simp, by simp, by simp, fun a => by rw [enterFaulted_mem]; exact h.read a⟩

/-- The same for an IN or an OUT that faults after its capability call. -/
theorem faultsWith_of_called {i : Instr} {s u : State} {f : ExecFault} {m : Memory} (h : s.mem.Grown m)
    (hu : u.cur.exe = s.cur.exe) (hx : exec i s = .next (enterFaulted f (u.setMem m))) : FaultsWith i s f := by
  have hpc : u.pc = s.pc := congrArg Executor.pc hu
  have hrb : u.rb = s.rb := congrArg Executor.rb hu
  have hfin : u.finished = s.finished := congrArg Executor.finished hu
  exact ⟨_, hx, by simp [hpc], by simp [hpc], by simp [hrb], by simp [hfin],
    fun a => by rw [enterFaulted_mem]; exact h.read a⟩

/-! ## OUT, ARB and IN -/

/-- R151: OUT, by its operand and its advance. -/
theorem execOut_ok {m : Mode} {s : State} {v : Word} (hv : operandValue 1 m s = .ok v) (hp : s.pc + 2 ≤ maxAddr) :
    sourceReach 1 m s ≤ maxAddr ∧
      execOut m s = .next ((capWrite v s).goingOn (sourceReach 1 m s) (s.pc + 2)) := by
  obtain ⟨hb, h1⟩ := sourceOperand_ok hv
  refine ⟨hb, ?_⟩
  have hm : (capWrite v s).mem = s.mem := by simp [State.mem]
  have hn : nextPc 2 ((capWrite v s).setMem (s.mem.grow (sourceReach 1 m s))) = .ok (s.pc + 2) := by
    simp only [nextPc, State.setMem_pc, State.pc, capWrite_exe]
    exact if_pos hp
  simp only [execOut, h1, Attempt.andThen, advance, capWrite_setMem, hn, attempt, settle, settled, State.goingOn, hm]

theorem execOut_cases (m : Mode) (s : State) :
    (∃ v, operandValue 1 m s = .ok v ∧ s.pc + 2 ≤ maxAddr) ∨
      (∃ v f, operandValue 1 m s = .ok v ∧ nextPc 2 s = .error f ∧ sourceReach 1 m s ≤ maxAddr ∧
        execOut m s =
          .next (enterFaulted f ((capWrite v s).setMem (s.mem.grow (sourceReach 1 m s))))) ∨
      (∃ f m', operandValue 1 m s = .error f ∧ s.mem.Grown m' ∧ execOut m s = .next (enterFaulted f (s.setMem m'))) := by
  cases hv : operandValue 1 m s with
  | error f =>
    obtain ⟨m', hm, hx⟩ := sourceOperand_error hv
    exact .inr (.inr ⟨f, m', rfl, hm, by simp only [execOut, hx, Attempt.andThen, settle, settled]⟩)
  | ok v =>
    by_cases hp : s.pc + 2 ≤ maxAddr
    · exact .inl ⟨v, rfl, hp⟩
    · obtain ⟨hb, h1⟩ := sourceOperand_ok hv
      have hn : ∀ t : State, t.pc = s.pc → nextPc 2 t = .error (.addressOverflow ((s.pc + 2 : Nat) : Int)) := by
        intro t ht
        simp only [nextPc, ht, if_neg hp]
      refine .inr (.inl ⟨v, _, rfl, hn s rfl, hb, ?_⟩)
      have hn' := hn ((capWrite v s).setMem (s.mem.grow (sourceReach 1 m s))) (by simp [State.pc])
      simp only [execOut, h1, Attempt.andThen, advance, capWrite_setMem, hn', attempt, settle, settled]

/-- R180: ARB, by its operand, the new base and its advance. -/
theorem execArb_ok {m : Mode} {s : State} {v r : Word} (hv : operandValue 1 m s = .ok v)
    (hr : sumResult s.rb v = .ok r) (hp : s.pc + 2 ≤ maxAddr) :
    sourceReach 1 m s ≤ maxAddr ∧
      execArb m s = .next ((s.goingOn (sourceReach 1 m s) (s.pc + 2)).setRb r) := by
  obtain ⟨hb, h1⟩ := sourceOperand_ok hv
  refine ⟨hb, ?_⟩
  have hn : nextPc 2 (s.setMem (s.mem.grow (sourceReach 1 m s))) = .ok (s.pc + 2) := if_pos hp
  simp only [execArb, h1, Attempt.andThen, State.setMem_rb, hr, rebaseAndAdvance, hn, attempt, settle, settled]
  rfl

theorem execArb_cases (m : Mode) (s : State) :
    (∃ v r, operandValue 1 m s = .ok v ∧ sumResult s.rb v = .ok r ∧ s.pc + 2 ≤ maxAddr) ∨
      (∃ f m', s.mem.Grown m' ∧ execArb m s = .next (enterFaulted f (s.setMem m')) ∧
        (operandValue 1 m s = .error f ∨ (∃ v, operandValue 1 m s = .ok v ∧ sumResult s.rb v = .error f) ∨
          (∃ v r, operandValue 1 m s = .ok v ∧ sumResult s.rb v = .ok r ∧ nextPc 2 s = .error f))) := by
  cases hv : operandValue 1 m s with
  | error f =>
    obtain ⟨m', hm, hx⟩ := sourceOperand_error hv
    exact .inr ⟨f, m', hm, by simp only [execArb, hx, Attempt.andThen, settle, settled], .inl rfl⟩
  | ok v =>
    obtain ⟨hb, h1⟩ := sourceOperand_ok hv
    have g1 := Memory.grown_grow s.mem hb
    cases hr : sumResult s.rb v with
    | error f =>
      exact .inr ⟨f, _, g1, by
        simp only [execArb, h1, Attempt.andThen, State.setMem_rb, hr, attempt, settle, settled], .inr (.inl ⟨v, rfl, hr⟩)⟩
    | ok r =>
      by_cases hp : s.pc + 2 ≤ maxAddr
      · exact .inl ⟨v, r, rfl, hr, hp⟩
      · refine .inr ⟨.addressOverflow ((s.pc + 2 : Nat) : Int), _, g1, ?_, .inr (.inr ⟨v, r, rfl, hr, if_neg hp⟩)⟩
        have hn : nextPc 2 (s.setMem (s.mem.grow (sourceReach 1 m s))) =
            .error (.addressOverflow ((s.pc + 2 : Nat) : Int)) := if_neg hp
        simp only [execArb, h1, Attempt.andThen, State.setMem_rb, hr, rebaseAndAdvance, hn, attempt, settle, settled]

/-- R150: IN, by its address, the answer of its read, the write and its advance. -/
theorem execInp_ok {m : Mode} {s t : State} {d : Nat} {v : Word} (hd : operandAddress 1 m s = .ok d)
    (hr : capRead s = .value v t) (ha : accessCheck s.cfg (d : Int) = .ok d) (hp : s.pc + 2 ≤ maxAddr) :
    s.pc + 1 ≤ maxAddr ∧ d ≤ maxAddr ∧ execInp m s = .next (t.storing (s.pc + 1) d v (s.pc + 2)) := by
  obtain ⟨hb, hdm, h1⟩ := destOperand_ok hd
  refine ⟨hb, hdm, ?_⟩
  have he := capRead_exe hr
  have hcfg : t.cfg = s.cfg := (capRead_sameJob hr).1
  have hmem : t.mem = s.mem := congrArg Executor.mem he
  have hpc : t.pc = s.pc := congrArg Executor.pc he
  have hn : nextPc 2 (t.setMem (s.mem.grow (s.pc + 1))) = .ok (s.pc + 2) := by
    simp only [nextPc, State.setMem_pc, hpc]
    exact if_pos hp
  simp only [execInp, h1, capRead_setMem, hr, storeAndAdvance, memWrite, State.setMem_cfg, hcfg, ha, Attempt.andThen, hn,
    attempt, settle, settled, State.setMem_mem, State.setMem_setMem, State.storing, hmem]

theorem execInp_cases (m : Mode) (s : State) :
    (∃ d v t, operandAddress 1 m s = .ok d ∧ capRead s = .value v t ∧ accessCheck s.cfg (d : Int) = .ok d ∧
        s.pc + 2 ≤ maxAddr) ∨
      (∃ d, operandAddress 1 m s = .ok d ∧ capRead s = .blocked ∧ execInp m s = .next s) ∨
      (∃ d v t f m', operandAddress 1 m s = .ok d ∧ capRead s = .value v t ∧ s.mem.Grown m' ∧
        execInp m s = .next (enterFaulted f (t.setMem m')) ∧
        (accessCheck s.cfg (d : Int) = .error f ∨
          (accessCheck s.cfg (d : Int) = .ok d ∧ nextPc 2 s = .error f))) ∨
      (∃ f m', s.mem.Grown m' ∧ execInp m s = .next (enterFaulted f (s.setMem m')) ∧
        (operandAddress 1 m s = .error f ∨
          (∃ d, operandAddress 1 m s = .ok d ∧ capRead s = .exhausted ∧ f = .inputExhausted))) := by
  cases hd : operandAddress 1 m s with
  | error f =>
    obtain ⟨m', hm, hx⟩ := destOperand_error hd
    exact .inr (.inr (.inr ⟨f, m', hm, by simp only [execInp, hx], .inl rfl⟩))
  | ok d =>
    obtain ⟨hb, hdm, h1⟩ := destOperand_ok hd
    have g1 := Memory.grown_grow s.mem hb
    cases hr : capRead s with
    | blocked =>
      exact .inr (.inl ⟨d, rfl, rfl, by simp only [execInp, h1, capRead_setMem, hr]⟩)
    | exhausted =>
      exact .inr (.inr (.inr ⟨_, _, g1, by simp only [execInp, h1, capRead_setMem, hr], .inr ⟨d, rfl, rfl, rfl⟩⟩))
    | value v t =>
      have hcfg : t.cfg = s.cfg := (capRead_sameJob hr).1
      have hpc : t.pc = s.pc := congrArg Executor.pc (capRead_exe hr)
      rcases storeAndAdvance_cases d v 2 (t.setMem (s.mem.grow (s.pc + 1))) with
        ⟨n, p, hn, rfl, hdm', hp, hx⟩ | ⟨f, hx, hf⟩
      · refine .inl ⟨n, v, t, rfl, rfl, ?_, ?_⟩
        · rw [← hcfg]; exact hn
        · obtain ⟨hp1, hp2⟩ := nextPc_ok hp
          rw [State.setMem_pc, hpc] at hp1
          omega
      · refine .inr (.inr (.inl ⟨d, v, t, f, _, rfl, rfl, g1, ?_, ?_⟩))
        · simp only [execInp, h1, capRead_setMem, hr, hx, settle, settled]
        · rw [State.setMem_cfg, hcfg] at hf
          refine hf.imp id fun h => ⟨?_, ?_⟩
          · obtain ⟨n, hn⟩ := h.1
            obtain ⟨e, -⟩ := accessCheck_bound hn
            have : n = d := by exact_mod_cast e.symm
            exact this ▸ hn
          · rw [← h.2, nextPc, nextPc, State.setMem_pc, hpc]

/-! ## All ten instructions -/

/-- The capability call an instruction has made: none, the `CapWrite` of an OUT, or the `CapRead` of an IN (R152). -/
def Called (i : Instr) (s s1 : State) : Prop :=
  s1 = s ∨ (∃ m v, i = .out m ∧ s1 = capWrite v s) ∨ (∃ m v, i = .inp m ∧ capRead s = .value v s1)

theorem Called.exe {i : Instr} {s s1 : State} (h : Called i s s1) : s1.cur.exe = s.cur.exe := by
  obtain rfl | ⟨m, v, -, rfl⟩ | ⟨m, v, -, h⟩ := h
  · rfl
  · exact capWrite_exe v s
  · exact capRead_exe h

theorem Called.sameJob {i : Instr} {s s1 : State} (h : Called i s s1) : SameJob s s1 := by
  obtain rfl | ⟨m, v, -, rfl⟩ | ⟨m, v, -, h⟩ := h
  · exact SameJob.refl _
  · exact capWrite_sameJob v s
  · exact capRead_sameJob h

/-- A memory an instruction may leave: not shorter, and in canonical form if it was. -/
def Memory.Onward (m m' : Memory) : Prop := m.len ≤ m'.len ∧ (m.wf = true → m'.wf = true)

theorem Memory.Grown.onward {m m' : Memory} (h : m.Grown m') : m.Onward m' := ⟨h.2.1, h.2.2⟩

theorem Memory.onward_write (m : Memory) {a d : Nat} (v : Word) (ha : a ≤ maxAddr) (hd : d ≤ maxAddr) :
    m.Onward ((m.grow a).write d v) := by
  refine ⟨?_, fun h => Memory.wf_write (Memory.wf_grow h ha) hd v⟩
  simp only [Memory.write_len, Memory.grow_len]
  omega

/-- The shapes of an instruction's next state: it completes and goes on at `pc`; a fault ends the run (R123); the run halts
(R120); or an IN is held (R125). -/
inductive ExecShape (i : Instr) (s : State) : State → Prop where
  | completes (s1 : State) (m : Memory) (rb : Word) (pc : Nat) (called : Called i s s1) (mem : s.mem.Onward m)
      (hpc : pc ≤ maxAddr) (hrb : (∀ md, i ≠ .arb md) → rb = s.rb) :
      ExecShape i s (((s1.setMem m).setRb rb).setPc pc)
  | faults (s1 : State) (m : Memory) (f : ExecFault) (called : Called i s s1) (mem : s.mem.Grown m) :
      ExecShape i s (enterFaulted f (s1.setMem m))
  | halts (hi : i = .halt) : ExecShape i s (enterHalted s)
  | held (m : Mode) (hi : i = .inp m) (blocked : capRead s = .blocked) : ExecShape i s s

theorem settle_shape {i : Instr} {s : State} {f : Word → Word → Except ExecFault Word} {m1 m2 m3 : Mode} :
    ∃ t, settle (computeInto f m1 m2 m3 s) = .next t ∧ ExecShape i s t := by
  cases h : computeOutcome f m1 m2 m3 s with
  | ok dr =>
    obtain ⟨d, r⟩ := dr
    obtain ⟨hd, hp, hr, -, hx⟩ := computeInto_ok h
    refine ⟨s.storing (reach3 m1 m2 s) d r (s.pc + 4), by rw [hx]; rfl, ?_⟩
    exact ExecShape.completes (i := i) s _ s.rb _ (.inl rfl) (Memory.onward_write s.mem r hr hd) hp (fun _ => rfl)
  | error e =>
    obtain ⟨m, hm, hx⟩ := computeInto_error h
    exact ⟨_, by rw [hx]; rfl, ExecShape.faults s m e (.inl rfl) hm⟩

theorem jump_shape {i : Instr} {s : State} {taken : Word → Bool} {m1 m2 : Mode} :
    ∃ t, settle (jumpWhen taken m1 m2 s) = .next t ∧ ExecShape i s t := by
  cases h : jumpOutcome taken m1 m2 s with
  | ok p =>
    obtain ⟨hp, hr, hx⟩ := jumpWhen_ok h
    refine ⟨s.goingOn (reach2 m1 m2 s) p, by rw [hx]; rfl, ?_⟩
    exact ExecShape.completes (i := i) s _ s.rb _ (.inl rfl) (Memory.grown_grow s.mem hr).onward hp (fun _ => rfl)
  | error e =>
    obtain ⟨m, hm, hx⟩ := jumpWhen_error h
    exact ⟨_, by rw [hx]; rfl, ExecShape.faults s m e (.inl rfl) hm⟩

/-- What any instruction can do: it always answers with a next state, and the state has one of four shapes. -/
theorem exec_cases (i : Instr) (s : State) : ∃ t, exec i s = .next t ∧ ExecShape i s t := by
  cases i with
  | add m1 m2 m3 => exact settle_shape
  | mul m1 m2 m3 => exact settle_shape
  | lt m1 m2 m3 => exact settle_shape
  | eq m1 m2 m3 => exact settle_shape
  | jnz m1 m2 => exact jump_shape
  | jz m1 m2 => exact jump_shape
  | halt => exact ⟨_, rfl, ExecShape.halts rfl⟩
  | out m =>
    rcases execOut_cases m s with ⟨v, hv, hp⟩ | ⟨v, f, hv, hp, hb, hx⟩ | ⟨f, m', hv, hm, hx⟩
    · obtain ⟨hb, hx⟩ := execOut_ok hv hp
      refine ⟨_, hx, ?_⟩
      have h := ExecShape.completes (i := .out m) (s := s) (capWrite v s) (s.mem.grow (sourceReach 1 m s)) s.rb
        (s.pc + 2) (.inr (.inl ⟨m, v, rfl, rfl⟩)) (Memory.grown_grow s.mem hb).onward hp (fun _ => rfl)
      have he : (capWrite v s).mem = s.mem := by simp [State.mem]
      have hr : s.rb = (capWrite v s).rb := by simp [State.rb]
      rw [hr] at h
      rw [State.goingOn, he]
      exact h
    · exact ⟨_, hx, ExecShape.faults _ _ f (.inr (.inl ⟨m, v, rfl, rfl⟩)) (Memory.grown_grow s.mem hb)⟩
    · exact ⟨_, hx, ExecShape.faults s m' f (.inl rfl) hm⟩
  | arb m =>
    rcases execArb_cases m s with ⟨v, r, hv, hr, hp⟩ | ⟨f, m', hm, hx, -⟩
    · obtain ⟨hb, hx⟩ := execArb_ok hv hr hp
      refine ⟨_, hx, ?_⟩
      exact ExecShape.completes (i := .arb m) s _ r _ (.inl rfl) (Memory.grown_grow s.mem hb).onward hp
        (fun h => absurd rfl (h m))
    · exact ⟨_, hx, ExecShape.faults s m' f (.inl rfl) hm⟩
  | inp m =>
    rcases execInp_cases m s with
      ⟨d, v, t, hd, hr, ha, hp⟩ | ⟨d, hd, hr, hx⟩ | ⟨d, v, t, f, m', hd, hr, hm, hx, -⟩ | ⟨f, m', hm, hx, -⟩
    · obtain ⟨hb, hdm, hx⟩ := execInp_ok hd hr ha hp
      refine ⟨_, hx, ?_⟩
      have he := capRead_exe hr
      have h := ExecShape.completes (i := .inp m) (s := s) t ((s.mem.grow (s.pc + 1)).write d v) s.rb (s.pc + 2)
        (.inr (.inr ⟨m, v, rfl, hr⟩)) (Memory.onward_write s.mem v hb hdm) hp (fun _ => rfl)
      have hm : t.mem = s.mem := congrArg Executor.mem he
      have hrb : s.rb = t.rb := (congrArg Executor.rb he).symm
      rw [hrb] at h
      rw [State.storing, hm]
      exact h
    · exact ⟨s, hx, ExecShape.held m rfl hr⟩
    · exact ⟨_, hx, ExecShape.faults t m' f (.inr (.inr ⟨m, v, rfl, hr⟩)) hm⟩
    · exact ⟨_, hx, ExecShape.faults s m' f (.inl rfl) hm⟩

/-- The same for a given next state. -/
theorem exec_shape {i : Instr} {s t : State} (h : exec i s = .next t) : ExecShape i s t := by
  obtain ⟨t', h', hs⟩ := exec_cases i s
  rw [h] at h'
  cases h'
  exact hs

theorem ExecShape.sameJob {i : Instr} {s t : State} (h : ExecShape i s t) : SameJob s t := by
  cases h with
  | completes s1 m rb pc called mem hpc hrb =>
    exact called.sameJob.trans (t := s1) ⟨rfl, rfl, rfl, rfl, rfl, rfl⟩
  | faults s1 m f called mem =>
    exact called.sameJob.trans (SameJob.trans (t := s1.setMem m) ⟨rfl, rfl, rfl, rfl, rfl, rfl⟩ (enterFaulted_sameJob f _))
  | halts hi => exact enterHalted_sameJob s
  | held m hi hb => exact SameJob.refl s

end Sys2Proof.Machine
end

