-- ==== Sys2Proof/Laws/Fetch.lean ====
section
/-! SUPPORT. What the step of an executor can do before and around its instruction (R110, R111, R125): the fetch as a pure function of
memory, the answer to a read, and the shapes of the whole step, so that no later proof unfolds `beginStep`. -/

namespace Sys2Proof.Machine

/-! ## The fetch -/

/-- R111: a word that can be read is fetched, memory grows to it, and it is decoded. -/
theorem fetch_ok {s : State} {w : Word} (h : peek s (s.pc : Int) = .ok w) :
    s.pc ≤ maxAddr ∧ fetch s = attempt (decode w) (s.setMem (s.mem.grow s.pc)) := by
  obtain ⟨n, hn, hb, -, hr⟩ := memRead_peek_ok h
  have hn' : s.pc = n := by exact_mod_cast hn
  subst hn'
  refine ⟨hb, ?_⟩
  simp only [fetch, hr, Attempt.andThen]

theorem fetch_error {s : State} {f : ExecFault} (h : peek s (s.pc : Int) = .error f) : fetch s = .fault f s := by
  simp only [fetch, memRead_peek_error h, Attempt.andThen]

/-- What a fetch can do: it gives the decoded instruction in the state grown to `pc`, or a fault with memory grown at most. -/
theorem fetch_cases (s : State) :
    (∃ w i, peek s (s.pc : Int) = .ok w ∧ decode w = .ok i ∧ s.pc ≤ maxAddr ∧
        fetch s = .ok i (s.setMem (s.mem.grow s.pc))) ∨
      (∃ f, FaultGrown (fetch s) f s) := by
  cases h : peek s (s.pc : Int) with
  | error f => exact .inr ⟨f, by rw [fetch_error h]; exact FaultGrown.here f s⟩
  | ok w =>
    obtain ⟨hb, hf⟩ := fetch_ok h
    cases hd : decode w with
    | ok i => exact .inl ⟨w, i, rfl, hd, hb, by rw [hf, hd]; rfl⟩
    | error f => exact .inr ⟨f, _, Memory.grown_grow s.mem hb, by rw [hf, hd]; rfl⟩

/-! ## The answer to a read -/

/-- R28: a read that can be answered is answered with `answerOf`, and leaves `answered`. -/
theorem capRead_of_answer {s : State} {v : Word} (h : answerOf s = some v) : capRead s = .value v (answered v s) := by
  unfold answerOf at h
  unfold capRead answered
  split at h
  · next inq outl hc =>
    cases inq with
    | nil => cases h
    | cons a rest =>
      simp only [List.head?, Option.some.injEq] at h
      subst h
      simp [hc]
  · next hc =>
    simp only [hc]
    unfold Channel.receive
    split at h
    · next hq =>
      cases h
      simp [hq, State.mapInbound]
    · next hq =>
      split at h
      · next hh =>
        cases h
        obtain ⟨hs, hr⟩ := hh
        simp only [hq, hs, hr, State.mapInbound]
        cases hi : s.cur.inbound
        simp_all
      · cases h
  · next c hc => simp [hc, h]

theorem answer_of_capRead {s t : State} {v : Word} (h : capRead s = .value v t) :
    answerOf s = some v ∧ t = answered v s := by
  have key : answerOf s = some v := by
    unfold capRead at h
    unfold answerOf
    split at h
    · next hc => cases h; simp [hc]
    · cases h
    · next hc =>
      simp only [hc]
      unfold Channel.receive at h
      cases hq : s.cur.inbound.queue with
      | cons a rest =>
        simp [hq] at h
        simp [h.1]
      | nil =>
        simp only [hq] at h
        cases hs : s.cur.inbound.senderConnected <;> cases hr : s.cfg.readOnClosed <;> simp_all
    · next c hc =>
      split at h
      · next hv => cases h; simp [hc, hv]
      · cases h
  refine ⟨key, ?_⟩
  have h2 := capRead_of_answer key
  rw [h] at h2
  cases h2
  rfl

theorem capRead_of_no_answer {s : State} (h : answerOf s = none) : capRead s = .blocked ∨ capRead s = .exhausted := by
  cases hr : capRead s with
  | value v t => rw [(answer_of_capRead hr).1] at h; cases h
  | blocked => exact .inl rfl
  | exhausted => exact .inr rfl

/-- R29: `CapWrite`, policy by policy. -/
theorem capWrite_emitted (v : Word) (s : State) : capWrite v s = emitted v s := by
  cases hc : s.cur.cap <;> simp only [capWrite, emitted, hc] <;> rfl

/-! ## Waiting -/

/-- R125: an executor waits exactly when its instruction is an IN whose address can be formed and whose read is blocked. -/
theorem waits_iff (s : State) :
    waits s = true ↔
      ∃ w m d, peek s (s.pc : Int) = .ok w ∧ decode w = .ok (.inp m) ∧ operandAddress 1 m s = .ok d ∧
        capRead s = .blocked := by
  have blocked : ∀ m : Memory, readBlocked (s.setMem m) = true ↔ capRead s = .blocked := by
    intro m
    unfold readBlocked
    rw [capRead_setMem]
    cases hr : capRead s <;> simp
  unfold waits
  rcases fetch_cases s with ⟨w, i, hp, hd, hb, hf⟩ | ⟨f, hf⟩
  · have g := Memory.grown_grow s.mem hb
    have addr : ∀ m, operandAddress 1 m (s.setMem (s.mem.grow s.pc)) = operandAddress 1 m s :=
      fun m => operandAddress_grown g 1 m
    rw [hf]
    constructor
    · intro h
      cases i <;> try cases h
      next m =>
      cases ha : operandAddress 1 m s with
      | error f =>
        obtain ⟨m', hm, hx⟩ := destOperand_error ((addr m).trans ha)
        simp only [hx] at h
        cases h
      | ok d =>
        simp only [(destOperand_ok ((addr m).trans ha)).2.2, State.setMem_setMem] at h
        exact ⟨w, m, d, hp, hd, ha, (blocked _).1 h⟩
    · rintro ⟨w', m, d, hp', hd', ha, hr⟩
      rw [hp] at hp'
      cases hp'
      rw [hd] at hd'
      cases hd'
      simp only [(destOperand_ok ((addr m).trans ha)).2.2, State.setMem_setMem]
      exact (blocked _).2 hr
  · obtain ⟨m, hm, hx⟩ := hf
    rw [hx]
    constructor
    · intro h
      cases h
    · rintro ⟨w, md, d, hp, hd, -, -⟩
      have := (fetch_ok hp).2
      rw [hx, hd] at this
      cases this

/-- R125: waiting depends on the executor, the capability, the inbound channel and the parameters alone. -/
theorem waits_congr {s t : State} (he : t.cur.exe = s.cur.exe) (hc : t.cur.cap = s.cur.cap)
    (hi : t.cur.inbound = s.cur.inbound) (hg : t.cfg = s.cfg) (h : waits s = true) : waits t = true := by
  rw [waits_iff] at h ⊢
  obtain ⟨w, m, d, h1, h2, h3, h4⟩ := h
  have hp : ∀ a, peek t a = peek s a := by
    intro a
    simp only [peek, State.mem, he, hg]
  refine ⟨w, m, d, ?_, h2, ?_, ?_⟩
  · rw [hp]
    simp only [State.pc, he]
    exact h1
  · simp only [operandAddress, hp, State.pc, State.rb, he] at h3 ⊢
    exact h3
  · unfold capRead at h4 ⊢
    rw [hc, hi, hg]
    split at h4 <;> first | cases h4 | skip
    all_goals (split at h4 <;> simp_all)

/-! ## The step of an executor -/

/-- The shapes of the step of an executor, whose should_halt check leaves `s1`. -/
inductive StepShape (s : State) : State → Prop where
  /-- R110: a true should_halt check. -/
  | halts (h : (capShouldHalt s).1 = true) : StepShape s (enterHalted (capShouldHalt s).2)
  /-- R125: the step is not taken. -/
  | held (h : (capShouldHalt s).1 = false) (hw : waits (capShouldHalt s).2 = true) : StepShape s s
  /-- R111: the fetch or the decode faults. -/
  | fetchFaults (f : ExecFault) (m : Memory) (h : (capShouldHalt s).1 = false)
      (hw : waits (capShouldHalt s).2 = false) (hm : s.mem.Grown m) :
      StepShape s (enterFaulted f ((capShouldHalt s).2.setMem m))
  /-- R119: the decoded instruction is executed. -/
  | executes (w : Word) (i : Instr) (t : State) (h : (capShouldHalt s).1 = false)
      (hw : waits (capShouldHalt s).2 = false) (hp : peek (capShouldHalt s).2 (s.pc : Int) = .ok w)
      (hd : decode w = .ok i) (hb : s.pc ≤ maxAddr)
      (hx : exec i ((capShouldHalt s).2.setMem (s.mem.grow s.pc)) = .next t) : StepShape s t

/-- The step of an executor always answers with a next state, and it has one of four shapes. -/
theorem executorStep_cases (s : State) : ∃ t, executorStep s = .next t ∧ StepShape s t := by
  have he := capShouldHalt_exe s
  have hpc : (capShouldHalt s).2.pc = s.pc := congrArg Executor.pc he
  have hmem : (capShouldHalt s).2.mem = s.mem := congrArg Executor.mem he
  unfold executorStep beginStep
  cases hh : (capShouldHalt s).1 with
  | true => exact ⟨_, by simp, .halts hh⟩
  | false =>
    cases hw : waits (capShouldHalt s).2 with
    | true => exact ⟨_, by simp [hw], .held hh hw⟩
    | false =>
      rcases fetch_cases (capShouldHalt s).2 with ⟨w, i, hp, hd, hb, hf⟩ | ⟨f, m, hm, hf⟩
      · rw [hpc] at hp hb
        rw [hpc, hmem] at hf
        obtain ⟨t, hx, -⟩ := exec_cases i ((capShouldHalt s).2.setMem (s.mem.grow s.pc))
        exact ⟨t, by simpa [hw, hf] using hx, .executes w i t hh hw hp hd hb hx⟩
      · rw [hmem] at hm
        exact ⟨_, by simp [hw, hf], .fetchFaults f m hh hw hm⟩

theorem executorStep_shape {s t : State} (h : executorStep s = .next t) : StepShape s t := by
  obtain ⟨t', h', hs⟩ := executorStep_cases s
  rw [h] at h'
  cases h'
  exact hs

theorem StepShape.sameJob {s t : State} (h : StepShape s t) : SameJob s t := by
  cases h with
  | halts h => exact (capShouldHalt_sameJob s).trans (enterHalted_sameJob _)
  | held h hw => exact SameJob.refl s
  | fetchFaults f m h hw hm =>
    exact (capShouldHalt_sameJob s).trans
      (SameJob.trans (t := (capShouldHalt s).2.setMem m) ⟨rfl, rfl, rfl, rfl, rfl, rfl⟩ (enterFaulted_sameJob f _))
  | executes w i t h hw hp hd hb hx =>
    exact (capShouldHalt_sameJob s).trans
      (SameJob.trans (t := (capShouldHalt s).2.setMem (s.mem.grow s.pc)) ⟨rfl, rfl, rfl, rfl, rfl, rfl⟩
        (exec_shape hx).sameJob)

end Sys2Proof.Machine
end

