-- ==== Sys2Proof/Laws/PerInstr.lean ====
section
/-! SUPPORT. Per instruction: the encoding of an instruction keeps the instruction (R94, R95, R82, R89). -/

namespace Sys2Proof.Laws.Canonical

/-- The decoded form has the instruction's opcode, stands for the instruction, and has a legal destination exactly when the
instruction is well formed; its word ends in the opcode's two digits and has at most three mode digits of at most 2. -/
def Statement (i : Instr) : Prop :=
  i.toDecoded.op = i.opcode ∧ i.toDecoded.toInstr = i ∧ i.toDecoded.legalDest = i.wellFormed ∧
    ∃ n : Nat, (encode i).val = n ∧ n % 100 = i.opcode.toNat ∧ n ≤ 22299

theorem word_digits (i : Instr) (h : i.toDecoded.op = i.opcode) :
    ∃ n : Nat, (encode i).val = n ∧ n % 100 = i.opcode.toNat ∧ n ≤ 22299 := by
  refine ⟨i.toDecoded.canonicalNat, rfl, ?_, i.toDecoded.canonicalNat_le⟩
  rw [← h]
  exact (i.toDecoded.digits_canonicalNat 0).1

theorem add (m1 m2 m3 : Mode) : Statement (.add m1 m2 m3) := ⟨rfl, rfl, rfl, word_digits _ rfl⟩
theorem mul (m1 m2 m3 : Mode) : Statement (.mul m1 m2 m3) := ⟨rfl, rfl, rfl, word_digits _ rfl⟩
theorem inp (m1 : Mode) : Statement (.inp m1) := ⟨rfl, rfl, rfl, word_digits _ rfl⟩
theorem out (m1 : Mode) : Statement (.out m1) := ⟨rfl, rfl, rfl, word_digits _ rfl⟩
theorem jnz (m1 m2 : Mode) : Statement (.jnz m1 m2) := ⟨rfl, rfl, rfl, word_digits _ rfl⟩
theorem jz (m1 m2 : Mode) : Statement (.jz m1 m2) := ⟨rfl, rfl, rfl, word_digits _ rfl⟩
theorem lt (m1 m2 m3 : Mode) : Statement (.lt m1 m2 m3) := ⟨rfl, rfl, rfl, word_digits _ rfl⟩
theorem eq (m1 m2 m3 : Mode) : Statement (.eq m1 m2 m3) := ⟨rfl, rfl, rfl, word_digits _ rfl⟩
theorem arb (m1 : Mode) : Statement (.arb m1) := ⟨rfl, rfl, rfl, word_digits _ rfl⟩
theorem halt : Statement .halt := ⟨rfl, rfl, rfl, word_digits _ rfl⟩

end Sys2Proof.Laws.Canonical
end

