-- ==== Sys2Proof/Laws/Pipeline.lean ====
section
/-! SUPPORT. What a step does to the stages of a ring (R328, R340, R345): the choice of the next stage changes none, and a step of an
executor leaves the executor, the capability and the join status of every other stage. -/

namespace Sys2Proof.Machine

/-! ## The choice of the next stage -/

theorem State.stages_drop_eq {s : State} {k : Nat} {chosen : Stage} {rest : List Stage}
    (h : s.stages.drop k = chosen :: rest) : s.stages = s.stages.take k ++ chosen :: rest := by
  rw [← h, List.take_append_drop]

/-- R345: choosing a stage changes no stage. -/
@[simp] theorem State.focus_stages (k : Nat) (s : State) : (s.focus k).stages = s.stages := by
  unfold State.focus
  split
  · next chosen rest h => exact (State.stages_drop_eq h).symm
  · rfl

@[simp] theorem State.focus_stageCount (k : Nat) (s : State) : (s.focus k).stageCount = s.stageCount := by
  rw [← State.stages_length, State.focus_stages, State.stages_length]

theorem State.focus_sameJob (k : Nat) (s : State) : SameJob s (s.focus k) := by
  unfold State.focus
  split <;> exact ⟨rfl, rfl, rfl, rfl, rfl, rfl⟩

@[simp] theorem State.focus_result (k : Nat) (s : State) : (s.focus k).result = s.result := by
  unfold State.focus
  split <;> rfl

/-- R345: any stage can be chosen. -/
theorem State.focus_stageIndex {k : Nat} {s : State} (hk : k < s.stageCount) : (s.focus k).stageIndex = k := by
  rw [← State.stages_length] at hk
  unfold State.focus
  split
  · simp only [State.stageIndex, List.length_take]
    omega
  · next h =>
    rw [List.drop_eq_nil_iff] at h
    omega

theorem State.focus_cur {k : Nat} {s : State} (hk : k < s.stageCount) : s.stages[k]? = some (s.focus k).cur := by
  have h := State.stages_stageIndex (s.focus k)
  rwa [State.focus_stages, State.focus_stageIndex hk] at h

/-- The choice of the next stage, whatever `schedule` and the free value say: some stage is put in focus. -/
theorem State.nextTurn_cases (s : State) :
    ∃ k rest, k < s.stageCount ∧ s.nextTurn = { s.focus k with schedule := rest, turns := s.turns + 1 } := by
  have hpos : 0 < s.stageCount := by simp only [State.stageCount]; omega
  unfold State.nextTurn
  split
  · next k rest h => exact ⟨k % s.stageCount, rest, Nat.mod_lt k hpos, rfl⟩
  · next h =>
    refine ⟨Config.nextStage s.turns % s.stageCount, (s.focus (Config.nextStage s.turns % s.stageCount)).schedule,
      Nat.mod_lt _ hpos, rfl⟩

@[simp] theorem State.nextTurn_stages (s : State) : s.nextTurn.stages = s.stages := by
  obtain ⟨k, rest, -, h⟩ := s.nextTurn_cases
  rw [h]
  exact State.focus_stages k s

@[simp] theorem State.nextTurn_stageCount (s : State) : s.nextTurn.stageCount = s.stageCount := by
  rw [← State.stages_length, State.nextTurn_stages, State.stages_length]

@[simp] theorem State.nextTurn_result (s : State) : s.nextTurn.result = s.result := by
  obtain ⟨k, rest, -, h⟩ := s.nextTurn_cases
  rw [h]
  exact State.focus_result k s

@[simp] theorem State.nextTurn_job (s : State) : s.nextTurn.job = s.job := by
  obtain ⟨k, rest, -, h⟩ := s.nextTurn_cases
  rw [h]
  exact (State.focus_sameJob k s).2.2.1

@[simp] theorem State.nextTurn_cfg (s : State) : s.nextTurn.cfg = s.cfg := by
  obtain ⟨k, rest, -, h⟩ := s.nextTurn_cases
  rw [h]
  exact (State.focus_sameJob k s).1

@[simp] theorem State.nextTurn_prog (s : State) : s.nextTurn.prog = s.prog := by
  obtain ⟨k, rest, -, h⟩ := s.nextTurn_cases
  rw [h]
  exact (State.focus_sameJob k s).2.1

@[simp] theorem State.nextTurn_search (s : State) : s.nextTurn.search = s.search := by
  obtain ⟨k, rest, -, h⟩ := s.nextTurn_cases
  rw [h]
  exact (State.focus_sameJob k s).2.2.2.1

/-! ## The other stages -/

/-- What a stage alone changes: its executor, its capability and its join status. Its inbound channel is changed by the
stage before it too. -/
def Stage.own (st : Stage) : Executor × Capability × JoinStatus := (st.exe, st.cap, st.join)

/-- The endpoint flags of a stage's inbound channel (R35). -/
def Stage.flags (st : Stage) : Bool × Bool := (st.inbound.senderConnected, st.inbound.receiverAlive)

/-- Every stage but the one in focus keeps what is its own, and the one in focus keeps its place and its join status. -/
def SameOthers (s t : State) : Prop :=
  t.before.map Stage.own = s.before.map Stage.own ∧ t.after.map Stage.own = s.after.map Stage.own ∧
    t.cur.join = s.cur.join

theorem SameOthers.refl (s : State) : SameOthers s s := ⟨rfl, rfl, rfl⟩

theorem SameOthers.trans {s t u : State} (h : SameOthers s t) (h' : SameOthers t u) : SameOthers s u :=
  ⟨h'.1.trans h.1, h'.2.1.trans h.2.1, h'.2.2.trans h.2.2⟩

theorem SameOthers.stageIndex {s t : State} (h : SameOthers s t) : t.stageIndex = s.stageIndex := by
  have := congrArg List.length h.1
  simpa [State.stageIndex] using this

theorem SameOthers.stageCount {s t : State} (h : SameOthers s t) : t.stageCount = s.stageCount := by
  have h1 := congrArg List.length h.1
  have h2 := congrArg List.length h.2.1
  simp only [List.length_map] at h1 h2
  simp only [State.stageCount, h1, h2]

/-- The stages' own parts, in their order. -/
theorem SameOthers.own {s t : State} (h : SameOthers s t) :
    t.stages.map Stage.own = s.before.map Stage.own ++ (t.cur.exe, t.cur.cap, s.cur.join) :: s.after.map Stage.own := by
  simp only [State.stages, List.map_append, List.map_cons, h.1, h.2.1, Stage.own, h.2.2]

theorem State.mapOutbound_sameOthers (f : Channel → Channel) (s : State) : SameOthers s (s.mapOutbound f) := by
  unfold State.mapOutbound
  split
  · next h => simp [SameOthers, h, Stage.own]
  · split
    · next h => simp [SameOthers, h, Stage.own]
    · simp [SameOthers]

theorem capShouldHalt_sameOthers (s : State) : SameOthers s (capShouldHalt s).2 := by
  unfold capShouldHalt
  split <;> exact ⟨rfl, rfl, rfl⟩

theorem capRead_sameOthers {s t : State} {v : Word} (h : capRead s = .value v t) : SameOthers s t := by
  rw [(answer_of_capRead h).2]
  unfold answered
  split <;> exact ⟨rfl, rfl, rfl⟩

theorem capWrite_sameOthers (v : Word) (s : State) : SameOthers s (capWrite v s) := by
  unfold capWrite
  split
  · exact ⟨rfl, rfl, rfl⟩
  · exact SameOthers.trans (t := s.setCap (.stage (some v))) ⟨rfl, rfl, rfl⟩ (State.mapOutbound_sameOthers _ _)
  · exact ⟨rfl, rfl, rfl⟩

theorem capOnFinished_sameOthers (s : State) : SameOthers s (capOnFinished s) := by
  unfold capOnFinished
  split
  · exact SameOthers.refl s
  · split <;> exact ⟨rfl, rfl, rfl⟩
  · exact ⟨rfl, rfl, rfl⟩

theorem releaseEndpoints_sameOthers (s : State) : SameOthers s (releaseEndpoints s) := by
  unfold releaseEndpoints
  split
  · exact SameOthers.trans (t := s.mapInbound _) ⟨rfl, rfl, rfl⟩ (State.mapOutbound_sameOthers _ _)
  · exact SameOthers.refl s
  · exact SameOthers.refl s

theorem enterFaulted_sameOthers (f : ExecFault) (s : State) : SameOthers s (enterFaulted f s) :=
  SameOthers.trans (t := s.setRun (.faulted f s.pc)) ⟨rfl, rfl, rfl⟩ (releaseEndpoints_sameOthers _)

theorem enterHalted_sameOthers (s : State) : SameOthers s (enterHalted s) :=
  SameOthers.trans (t := s.setRun .halted) ⟨rfl, rfl, rfl⟩
    ((capOnFinished_sameOthers _).trans
      (SameOthers.trans (t := (capOnFinished (s.setRun .halted)).setFinished true) ⟨rfl, rfl, rfl⟩
        (releaseEndpoints_sameOthers _)))

theorem Called.sameOthers {i : Instr} {s s1 : State} (h : Called i s s1) : SameOthers s s1 := by
  obtain rfl | ⟨m, v, -, rfl⟩ | ⟨m, v, -, h⟩ := h
  · exact SameOthers.refl _
  · exact capWrite_sameOthers v s
  · exact capRead_sameOthers h

theorem ExecShape.sameOthers {i : Instr} {s t : State} (h : ExecShape i s t) : SameOthers s t := by
  cases h with
  | completes s1 m rb pc called mem hpc hrb => exact called.sameOthers.trans (t := s1) ⟨rfl, rfl, rfl⟩
  | faults s1 m f called mem =>
    exact called.sameOthers.trans (SameOthers.trans (t := s1.setMem m) ⟨rfl, rfl, rfl⟩ (enterFaulted_sameOthers f _))
  | halts hi => exact enterHalted_sameOthers s
  | held m hi hb => exact SameOthers.refl s

/-- R341: a step of an executor leaves every other stage's executor and capability. -/
theorem StepShape.sameOthers {s t : State} (h : StepShape s t) : SameOthers s t := by
  cases h with
  | halts h => exact (capShouldHalt_sameOthers s).trans (enterHalted_sameOthers _)
  | held h hw => exact SameOthers.refl s
  | fetchFaults f m h hw hm =>
    exact (capShouldHalt_sameOthers s).trans
      (SameOthers.trans (t := (capShouldHalt s).2.setMem m) ⟨rfl, rfl, rfl⟩ (enterFaulted_sameOthers f _))
  | executes w i t h hw hp hd hb hx =>
    exact (capShouldHalt_sameOthers s).trans
      (SameOthers.trans (t := (capShouldHalt s).2.setMem (s.mem.grow s.pc)) ⟨rfl, rfl, rfl⟩
        (exec_shape hx).sameOthers)

/-! ## The moves of a ring -/

theorem map_modify_same {α β : Type} (g : α → β) (f : α → α) (h : ∀ a, g (f a) = g a) (xs : List α) (k : Nat) :
    (xs.modify k f).map g = xs.map g := by
  induction xs generalizing k with
  | nil => simp
  | cons x xs ih =>
    cases k with
    | zero => simp [h]
    | succ k => simp [List.modify_succ_cons, ih]

theorem modify_middle {α : Type} (xs : List α) (a : α) (ys : List α) (g : α → α) :
    (xs ++ a :: ys).modify xs.length g = xs ++ g a :: ys := by
  induction xs with
  | nil => rfl
  | cons x xs ih => simpa [List.modify_succ_cons] using ih

theorem allEnded_iff (s : State) : allEnded s = true ↔ ∀ st ∈ s.stages, st.ended = true := by
  simp only [allEnded, List.all_eq_true]

/-- A stage has not ended exactly while it is Running. -/
theorem Stage.ended_eq_false {st : Stage} : st.ended = false ↔ st.exe.run = .running := by
  unfold Stage.ended
  split <;> simp_all

/-- While some stage runs, not all have ended. -/
theorem allEnded_of_running {s : State} {st : Stage} (h : st ∈ s.stages) (hr : st.exe.run = .running) :
    allEnded s = false := by
  cases ha : allEnded s with
  | false => rfl
  | true =>
    have h1 := (allEnded_iff s).1 ha st h
    rw [Stage.ended_eq_false.2 hr] at h1
    cases h1

@[simp] theorem Stage.joined_exe (st : Stage) : st.joined.exe = st.exe := rfl
@[simp] theorem Stage.joined_cap (st : Stage) : st.joined.cap = st.cap := rfl
@[simp] theorem Stage.joined_inbound (st : Stage) : st.joined.inbound = st.inbound := rfl
@[simp] theorem Stage.joined_join (st : Stage) : st.joined.join = .joined := rfl
@[simp] theorem Stage.joined_ended (st : Stage) : st.joined.ended = st.ended := rfl

@[simp] theorem joinAll_stages (s : State) : (joinAll s).stages = s.stages.map Stage.joined := by
  simp only [joinAll, State.stages, List.map_append, List.map_cons]

@[simp] theorem joinAll_search (s : State) : (joinAll s).search = s.search := rfl

/-- R346: the join changes no executor and no capability. -/
@[simp] theorem joinAll_executors (s : State) : (joinAll s).executors = s.executors := by
  simp only [State.executors, joinAll_stages, List.map_map]
  rfl

theorem joinStage_stages (s : State) : (joinStage s).stages = s.stages.modify s.stageIndex Stage.joined := by
  simp only [State.stages, State.stageIndex, modify_middle]
  rfl

@[simp] theorem joinStage_executors (s : State) : (joinStage s).executors = s.executors := by
  simp only [State.executors, joinStage_stages]
  exact map_modify_same _ Stage.joined (fun _ => rfl) _ _

@[simp] theorem finishJob_stages (r : JobResult) (s : State) : (finishJob r s).stages = s.stages := by
  unfold finishJob
  split <;> (try split) <;> rfl

theorem finishJob_job (r : JobResult) (s : State) :
    (finishJob r s).job = .done r ∨ (finishJob r s).job = .nextEvaluation := by
  unfold finishJob
  split <;> (try split) <;> simp

theorem finishJob_fault (f : Fault) (s : State) : (finishJob (.fault f) s).job = .done (.fault f) := by
  unfold finishJob
  split <;> rfl

theorem finishJob_value {s : State} (h : s.search = none) (v : Word) : (finishJob (.value v) s).job = .done (.value v) := by
  simp only [finishJob, h]

/-- The step of a Running executor that runs alone or in a chain is the machine's step (R124). -/
theorem step_eq_executorStep {s : State} (hj : s.job = .run ∨ ∃ k sig rest, s.job = .chain k sig rest)
    (hr : s.run = .running) : step s = executorStep s := by
  obtain ⟨t, ht, hs⟩ := executorStep_cases s
  have : t.job = s.job := hs.sameJob.2.2.1
  rcases hj with hj | ⟨k, sig, rest, hj⟩ <;> simp [step, nextMove, hj, hr, ht, thenNext, afterTurn, this]

/-- In a ring the choice of the next stage comes after it (R345). -/
theorem step_ring_running {s : State} (hj : s.job = .ring) (hr : s.run = .running) :
    step s = thenNext (executorStep s) State.nextTurn := by
  obtain ⟨t, ht, hs⟩ := executorStep_cases s
  have : t.job = s.job := hs.sameJob.2.2.1
  have haj : allEnded s = false := allEnded_of_running (st := s.cur) (by simp [State.stages]) hr
  simp [step, nextMove, hj, hr, haj, ht, thenNext, afterTurn, this]

/-- R341, R346: everything a step of a ring can be. Once every stage has ended it is the orchestrator's join and read, and else
it is the turn of the stage in focus: the step of its executor, or its join if it has ended. -/
theorem ringStep_cases {s t : State} (hj : s.job = .ring) (hx : step s = .next t) :
    (allEnded s = true ∧ t = finishJob (ringResult s) (joinAll s)) ∨
    (allEnded s = false ∧ s.run = .running ∧ ∃ u, executorStep s = .next u ∧ StepShape s u ∧ u.job = .ring ∧ t = u.nextTurn) ∨
    (allEnded s = false ∧ s.run ≠ .running ∧ t = (joinStage s).nextTurn) := by
  cases ha : allEnded s with
  | true =>
    simp only [step, nextMove, hj, ha, if_true, Host.Outcome.next.injEq] at hx
    exact .inl ⟨rfl, hx.symm⟩
  | false =>
    cases hr : s.run with
    | running =>
      obtain ⟨u, hu, hs⟩ := executorStep_cases s
      have huj : u.job = .ring := hs.sameJob.2.2.1.trans hj
      simp only [step, nextMove, hj, ha, hr, hu, thenNext, afterTurn, huj, Bool.false_eq_true, if_false,
        Host.Outcome.next.injEq] at hx
      exact .inr (.inl ⟨rfl, rfl, u, hu, hs, huj, hx.symm⟩)
    | halted =>
      simp only [step, nextMove, hj, ha, hr, Bool.false_eq_true, if_false, Host.Outcome.next.injEq] at hx
      exact .inr (.inr ⟨rfl, by simp, hx.symm⟩)
    | faulted f pc =>
      simp only [step, nextMove, hj, ha, hr, Bool.false_eq_true, if_false, Host.Outcome.next.injEq] at hx
      exact .inr (.inr ⟨rfl, by simp, hx.symm⟩)

/-- A ring always steps. -/
theorem ringStep_next {s : State} (hj : s.job = .ring) : ∃ t, step s = .next t := by
  cases ha : allEnded s with
  | true => exact ⟨_, by simp only [step, nextMove, hj, ha, if_true]; rfl⟩
  | false =>
    cases hr : s.run with
    | running =>
      obtain ⟨u, hu, -⟩ := executorStep_cases s
      exact ⟨afterTurn u, by
        simp only [step, nextMove, hj, ha, hr, hu, thenNext, Bool.false_eq_true, if_false]⟩
    | halted => exact ⟨_, by simp only [step, nextMove, hj, ha, hr, Bool.false_eq_true, if_false]; rfl⟩
    | faulted f pc => exact ⟨_, by simp only [step, nextMove, hj, ha, hr, Bool.false_eq_true, if_false]; rfl⟩

/-! ## The endpoint flags -/

theorem State.mapOutbound_flags {f : Channel → Channel}
    (hf : ∀ ch, (f ch).senderConnected = ch.senderConnected ∧ (f ch).receiverAlive = ch.receiverAlive) (s : State) :
    (s.mapOutbound f).stages.map Stage.flags = s.stages.map Stage.flags := by
  rw [State.stages_mapOutbound]
  apply map_modify_same
  intro st
  simp [Stage.flags, (hf st.inbound).1, (hf st.inbound).2]

theorem capWrite_flags (v : Word) (s : State) : (capWrite v s).stages.map Stage.flags = s.stages.map Stage.flags := by
  unfold capWrite
  split
  · simp [State.stages, State.setCap, Stage.flags]
  · rw [State.mapOutbound_flags]
    · simp [State.stages, State.setCap, Stage.flags]
    · intro ch
      unfold Channel.send
      split <;> exact ⟨rfl, rfl⟩
  · simp [State.stages, State.setCap, Stage.flags]

theorem capRead_flags {s t : State} {v : Word} (h : capRead s = .value v t) :
    t.stages.map Stage.flags = s.stages.map Stage.flags := by
  rw [(answer_of_capRead h).2]
  unfold answered
  split <;> simp [State.stages, State.setCap, State.mapInbound, Stage.flags]

/-- R35, R325: while a run goes on, its capability calls change no endpoint flag. -/
theorem Called.flags {i : Instr} {s s1 : State} (h : Called i s s1) :
    s1.stages.map Stage.flags = s.stages.map Stage.flags := by
  obtain rfl | ⟨m, v, -, rfl⟩ | ⟨m, v, -, h⟩ := h
  · rfl
  · exact capWrite_flags v s
  · exact capRead_flags h

/-- Stage by stage: what a change that keeps the other stages and the endpoint flags leaves. -/
theorem SameOthers.pointwise {s u : State} (h : SameOthers s u)
    (hf : u.stages.map Stage.flags = s.stages.map Stage.flags) {i : Nat} {st : Stage} (hi : u.stages[i]? = some st) :
    ∃ st0, s.stages[i]? = some st0 ∧ st.flags = st0.flags ∧ st.join = st0.join ∧
      (i ≠ s.stageIndex → st.exe = st0.exe ∧ st.cap = st0.cap) ∧
      (i = s.stageIndex → st = u.cur ∧ st0 = s.cur) := by
  have hlen : u.stages.length = s.stages.length := by rw [State.stages_length, State.stages_length, h.stageCount]
  have hil : i < s.stages.length := by
    rw [← hlen]; exact (List.getElem?_eq_some_iff.1 hi).1
  obtain ⟨st0, h0⟩ : ∃ st0, s.stages[i]? = some st0 := ⟨_, List.getElem?_eq_getElem hil⟩
  have hfl : st.flags = st0.flags := by
    have := congrArg (fun l => l[i]?) hf
    simpa [List.getElem?_map, hi, h0] using this
  have hown : (u.stages.map Stage.own)[i]? = some st.own := by simp [hi]
  have hown0 : (s.stages.map Stage.own)[i]? = some st0.own := by simp [h0]
  have e0 : s.stages.map Stage.own = s.before.map Stage.own ++ s.cur.own :: s.after.map Stage.own := by simp [State.stages]
  rw [h.own] at hown
  rw [e0] at hown0
  refine ⟨st0, h0, hfl, ?_⟩
  by_cases hne : i = s.stageIndex
  · have c1 := State.stages_stageIndex s
    have c2 := State.stages_stageIndex u
    rw [h.stageIndex, ← hne, hi] at c2
    rw [← hne, h0] at c1
    simp only [Option.some.injEq] at c1 c2
    subst c1; subst c2
    exact ⟨h.2.2, fun h => absurd hne h, fun _ => ⟨rfl, rfl⟩⟩
  · have hne' : i ≠ (s.before.map Stage.own).length := by simpa [State.stageIndex] using hne
    have : st.own = st0.own := by
      rcases Nat.lt_or_gt_of_ne hne' with hlt | hgt
      · rw [List.getElem?_append_left hlt] at hown hown0
        rw [hown] at hown0; exact Option.some.inj hown0
      · rw [List.getElem?_append_right (by omega)] at hown hown0
        obtain ⟨k, hk⟩ : ∃ k, i - (s.before.map Stage.own).length = k + 1 := ⟨i - (s.before.map Stage.own).length - 1, by omega⟩
        rw [hk, List.getElem?_cons_succ] at hown hown0
        rw [hown] at hown0; exact Option.some.inj hown0
    simp only [Stage.own, Prod.mk.injEq] at this
    exact ⟨this.2.2, fun _ => ⟨this.1, this.2.1⟩, fun h => absurd h hne⟩

/-- R328: the release, as a change of two channels of the ring. -/
theorem releaseEndpoints_stages {s : State} {last : Option Word} (h : s.cur.cap = .stage last) :
    (releaseEndpoints s).stages =
      (s.stages.modify s.stageIndex (Stage.mapInbound fun ch => { ch with receiverAlive := false })).modify
        ((s.stageIndex + 1) % s.stageCount) (Stage.mapInbound fun ch => { ch with senderConnected := false }) := by
  have hin : ∀ f, (s.mapInbound f).stages = s.stages.modify s.stageIndex (Stage.mapInbound f) := by
    intro f
    simp only [State.stages, State.stageIndex, modify_middle]
    rfl
  simp only [releaseEndpoints, h, State.stages_mapOutbound, hin]
  rfl

/-! ## The host sides -/

@[simp] theorem State.setMem_hostSides (s : State) (m : Memory) : (s.setMem m).hostSides = s.hostSides := by
  simp only [State.hostSides, State.stages, State.setMem, List.map_append, List.map_cons]

@[simp] theorem State.setRun_hostSides (s : State) (r : RunState) : (s.setRun r).hostSides = s.hostSides := by
  simp only [State.hostSides, State.stages, State.setRun, List.map_append, List.map_cons]

/-- R328: the release of the endpoints takes no value from a channel and puts none in. -/
@[simp] theorem releaseEndpoints_hostSides (s : State) : (releaseEndpoints s).hostSides = s.hostSides := by
  unfold releaseEndpoints
  split
  · have hin : ∀ f : Channel → Channel, (∀ ch, (f ch).queue = ch.queue) → (s.mapInbound f).hostSides = s.hostSides := by
      intro f hf
      simp only [State.hostSides, State.stages, State.mapInbound, List.map_append, List.map_cons, hf]
    have hout : ∀ (f : Channel → Channel) (u : State), (∀ ch, (f ch).queue = ch.queue) →
        (u.mapOutbound f).hostSides = u.hostSides := by
      intro f u hf
      simp only [State.hostSides, State.stages_mapOutbound]
      apply map_modify_same
      intro st
      simp only [Stage.mapInbound_cap, Stage.mapInbound_inbound, hf]
    refine (hout _ _ ?_).trans (hin _ ?_) <;> exact fun _ => rfl
  · rfl
  · rfl

@[simp] theorem enterFaulted_hostSides (f : ExecFault) (s : State) : (enterFaulted f s).hostSides = s.hostSides := by
  simp only [enterFaulted, releaseEndpoints_hostSides, State.setRun_hostSides]

end Sys2Proof.Machine
end

