-- ==== Sys2Proof/Tests/Slice0.lean ====
section
/-! SUPPORT. The model's own tests. The expected results are those of spec/95_test_vectors.md (the id stands in each comment) or are
worked out by hand from the rule named. After them, for every statement with hypotheses, a state and operands that meet them. -/

namespace Sys2Proof.Tests

open Sys2Proof.Machine

/-- The words of a program or of inputs. -/
def cells (ns : List Int) : List Word := ns.filterMap Word.ofInt?

/-- A run of a program under buffered replay, from its start. -/
def boot (ns inputs : List Int) : State := State.startReplay Config.standard (cells ns) (cells inputs)

/-- The next state of an outcome. -/
def after (x : Host.Outcome State Fault Refusal) : Option State :=
  match x with
  | .next t => some t
  | .fault _ => none
  | .refused _ => none

/-- What is read off the state after one step. -/
def stepped {α : Type} (read : State → α) (s : State) : Option α := (after (step s)).map read

/-- A run under a controller with scripted answers. -/
def driven (ns : List Int) (halts : List Bool) (reads : List (Option Word)) : State :=
  State.start Config.standard (cells ns) (.controller { halts := halts, reads := reads, history := [] }) .run

/-- A ring of two stages, right after its launch with the phases 1 and 2, with stage 0 in focus. -/
def ring (ns : List Int) : State :=
  let s := launchRing [word 1, word 2]
    { State.start { Config.standard with nStages := 2 } (cells ns) (.replay [] []) (.launchRing [word 1, word 2]) with
      schedule := [0] }
  { s with schedule := [1, 0, 1] }

/-! ## WellFormed refuses an Immediate destination (R89) -/

theorem test_add_imm_refused : (Instr.add .pos .pos .imm).wellFormed = false := by decide
theorem test_mul_imm_refused : (Instr.mul .imm .rel .imm).wellFormed = false := by decide
theorem test_inp_imm_refused : (Instr.inp .imm).wellFormed = false := by decide
theorem test_lt_imm_refused : (Instr.lt .pos .imm .imm).wellFormed = false := by decide
theorem test_eq_imm_refused : (Instr.eq .rel .rel .imm).wellFormed = false := by decide
theorem test_jnz_imm_allowed : (Instr.jnz .imm .imm).wellFormed = true := by decide
theorem test_decoded_imm_refused :
    ({ op := .add, m1 := .pos, m2 := .pos, m3 := .imm } : Decoded).legalDest = false ∧
      ({ op := .inp, m1 := .imm, m2 := .pos, m3 := .pos } : Decoded).legalDest = false ∧
      ({ op := .out, m1 := .imm, m2 := .pos, m3 := .imm } : Decoded).legalDest = true := by decide

/-! ## Decoding words written out from R80, R84 and R95: the opcode's two digits, then the digits of slots 1, 2 and 3 -/

theorem test_decode_add : decode (word 21001) = .ok (.add .pos .imm .rel) := by decide      -- DEC15
theorem test_decode_mul : decode (word 1002) = .ok (.mul .pos .imm .pos) := by decide       -- DEC1
theorem test_decode_inp : decode (word 203) = .ok (.inp .rel) := by decide                  -- DEC4
theorem test_decode_out : decode (word 10104) = .ok (.out .imm) := by decide                -- DEC5
theorem test_decode_jnz : decode (word 1205) = .ok (.jnz .rel .imm) := by decide            -- 1, 2, 05
theorem test_decode_jz : decode (word 2106) = .ok (.jz .imm .rel) := by decide              -- 2, 1, 06
theorem test_decode_lt : decode (word 21107) = .ok (.lt .imm .imm .rel) := by decide        -- DEC3
theorem test_decode_eq : decode (word 20108) = .ok (.eq .imm .pos .rel) := by decide        -- 2, 0, 1, 08
theorem test_decode_arb : decode (word 209) = .ok (.arb .rel) := by decide                  -- 2, 09
theorem test_decode_halt : decode (word 22299) = .ok .halt := by decide                     -- DEC6
theorem test_decode_faults :                                                                -- DEC8 to DEC14
    decode (word 11101) = .error (.illegalWriteMode 3) ∧ decode (word 103) = .error (.illegalWriteMode 1) ∧
    decode (word 301) = .error (.illegalModeDigit 1 3) ∧ decode (word 31101) = .error (.illegalModeDigit 3 3) ∧
    decode (word 1398) = .error (.unknownOpcode 98) ∧ decode (word (-1)) = .error (.unknownOpcode (-1)) ∧
    decode (word 0) = .error (.unknownOpcode 0) ∧ decode (word 10) = .error (.unknownOpcode 10) := by decide
theorem test_encode : (encode (.add .pos .imm .rel)).val = 21001 ∧ (encode (.lt .imm .imm .rel)).val = 21107 ∧
    (encode .halt).val = 99 := by decide                                                    -- R94

/-- The host's word of the row HALT, at the place the first step after reset fetches from. -/
theorem test_fetch_word : decodeTableWord 64 99 = some .halt ∧
    stepped State.run (State.reset.withFetchWord 64 99) = some .halted ∧
    decodeTableWord 8 2 = some (.mul .pos .pos .pos) := by decide
/-- A row with four cells of 64 bits: ADD #5, #6, [9]. -/
theorem test_fetch_cells :
    stepped (fun t => t.mem.read 9) (State.reset.withFetchWord 256 (1101 + 5 * 2 ^ 64 + 6 * 2 ^ 128 + 9 * 2 ^ 192)) =
      some (word 11) := by decide

/-! ## One step of each instruction -/

theorem test_add : stepped (fun t => (t.mem.read 7, t.pc, t.mem.len)) (boot [1, 5, 6, 7, 99, 10, 20] []) =
    some (word 30, 4, 8) := by decide                                                       -- AR1
theorem test_add_overflow : stepped State.run (boot [1101, 9223372036854775807, 1, 5, 99] []) =
    some (.faulted (.arithmeticOverflow 9223372036854775808) 0) := by decide                -- AR3
theorem test_mul_least : stepped (fun t => t.mem.read 5) (boot [1102, -4294967296, 2147483648, 5, 99] []) =
    some (word (-9223372036854775808)) := by decide                                         -- AR11
theorem test_mul_overflow : stepped State.run (boot [1102, -9223372036854775808, -1, 5, 99] []) =
    some (.faulted (.arithmeticOverflow 9223372036854775808) 0) := by decide                -- AR10
theorem test_inp_own_word : stepped (fun t => (t.mem.read 0, t.pc, t.mem.len)) (boot [3, 0, 99] [99]) =
    some (word 99, 2, 3) := by decide                                                       -- IO3
theorem test_inp_address_first : stepped (fun t => (t.run, t.cur.cap)) (boot [203, -1, 99] [5]) =
    some (.faulted (.negativeAddress (-1)) 0, .replay [word 5] []) := by decide             -- IO5
theorem test_out_grows : stepped (fun t => (t.outputs, t.mem.len)) (boot [4, 10, 99] []) =
    some ([word 0], 11) := by decide                                                        -- IO8
theorem test_out_imm : stepped (fun t => (t.outputs, t.pc)) (boot [104, -7, 99] []) =
    some ([word (-7)], 2) := by decide                                                      -- IO7
theorem test_jnz_negative : stepped State.pc (boot [1105, -1, 4, 99, 99] []) = some 4 := by decide       -- JMP3
theorem test_jnz_bad_target : stepped State.run (boot [1105, 1, -2, 99] []) =
    some (.faulted (.negativeAddress (-2)) 0) := by decide                                  -- JMP4
theorem test_jz_taken : stepped State.pc (boot [1106, 0, 4, 99, 99] []) = some 4 := by decide            -- JMP7
theorem test_jz_not_taken : stepped State.pc (boot [1106, 5, 4, 99, 99] []) = some 3 := by decide        -- JMP8
theorem test_lt_signed : stepped (fun t => t.mem.read 5)
    (boot [1107, -9223372036854775808, 9223372036854775807, 5, 99] []) = some (word 1) := by decide      -- CMP3
theorem test_lt_equal : stepped (fun t => t.mem.read 5) (boot [1107, 3, 3, 5, 99, 7] []) =
    some (word 0) := by decide                                                              -- CMP2
theorem test_eq : stepped (fun t => t.mem.read 5) (boot [1108, 5, 5, 5, 99] []) = some (word 1) := by decide  -- CMP4
theorem test_eq_not : stepped (fun t => t.mem.read 5) (boot [1108, 5, 6, 5, 99, 7] []) =
    some (word 0) := by decide                                                              -- CMP5
theorem test_arb_negative : stepped (fun t => (t.rb, t.pc, t.run)) (boot [109, -5, 99] []) =
    some (word (-5), 2, .running) := by decide                                              -- RB1
theorem test_arb_relative : stepped State.rb (boot [209, 3, 99, 7] []) = some (word 7) := by decide      -- RB4
theorem test_halt_modes : stepped (fun t => (t.run, t.pc, t.finished)) (boot [199] []) =
    some (.halted, 0, true) := by decide                                                    -- HLT2
theorem test_halt_bad_digit : stepped (fun t => (t.run, t.finished)) (boot [399] []) =
    some (.faulted (.illegalModeDigit 1 3) 0, false) := by decide                           -- HLT3

/-! ## Around the instructions -/

theorem test_limit : stepped State.run
    (State.startReplay { Config.standard with memLimit := some 1000 } (cells [1101, 1, 1, 1000, 99]) []) =
    some (.faulted (.memoryExhausted 1000) 0) := by decide                                  -- MEM3
theorem test_should_halt : stepped (fun t => (t.run, t.mem.len, t.pc)) (driven [] [true] []) =
    some (.halted, 0, 0) := by decide                                                       -- SH2
/-- R343: channel 0 holds its phase and the initial feedback, channel 1 its phase. -/
theorem test_seeds : (ring [3, 9, 99]).stages.map (fun st => st.inbound.queue) =
    [[word 1, word 0], [word 2]] := by decide
/-- CH3 with the phases 4 and 3. -/
theorem test_chain : (match chainRun 20 Config.standard (cells [3, 9, 4, 9, 99]) [word 4, word 3] with
    | some (.ok v) => v
    | some (.error _) => none
    | none => none) = some (word 3) := by decide

/-- R39, R32: what is observed of a stage that halts: its memory, and its released endpoints with what it did not receive. -/
theorem test_observe_stage : (after (exec .halt (ring [99]))).bind observe =
    some (.halted [word 99] (.stage none [word 1, word 0] false false)) := by decide
/-- R32, R125: a controller whose read stays blocked is held as it is, and its should_halt is not asked again. -/
theorem test_blocked_controller : after (step (driven [3, 9] [false, true] [none])) = some (driven [3, 9] [false, true] [none]) := by
  decide

/-! ## Hypotheses that are met -/

theorem witness_CanonicalWordsDecodeBack :
    ({ op := .add, m1 := .pos, m2 := .imm, m3 := .rel } : Decoded).legalDest = true ∧
    (Instr.inp .rel).wellFormed = true ∧
    ((Instr.jnz .imm .imm).wellFormed = true ∧
      ({ op := .jnz, m1 := .imm, m2 := .imm, m3 := .imm } : Decoded).toInstr = .jnz .imm .imm ∧
      (word 211105).val = ({ op := .jnz, m1 := .imm, m2 := .imm, m3 := .imm } : Decoded).canonicalWord.val + 100000 * (2 : Nat)) ∧
    decode (word 211105) = .ok (.jnz .imm .imm) := by decide

theorem witness_DecoderChecksInOrder :
    (word (-1)).val < 0 ∧
    ((word 98).val = (98 : Nat) ∧ 98 % 100 ∉ [1, 2, 3, 4, 5, 6, 7, 8, 9, 99]) ∧
    (Opcode.add.toNat = 301 % 100 ∧ 2 < digit 2 301) ∧
    (Opcode.add.toNat = 3201 % 100 ∧ digit 2 3201 ≤ 2 ∧ 2 < digit 3 3201) ∧
    (Opcode.add.toNat = 32201 % 100 ∧ digit 2 32201 ≤ 2 ∧ digit 3 32201 ≤ 2 ∧ 2 < digit 4 32201) ∧
    (Opcode.eq.toNat = 11108 % 100 ∧ Mode.toDigit .imm = digit 2 11108 ∧ Mode.toDigit .imm = digit 3 11108 ∧
      Mode.toDigit .imm = digit 4 11108 ∧ Opcode.eq.toNat ∈ [1, 2, 7, 8]) ∧
    (Opcode.inp.toNat = 103 % 100 ∧ Mode.toDigit .imm = digit 2 103 ∧ Mode.toDigit .pos = digit 3 103 ∧
      Mode.toDigit .pos = digit 4 103) ∧
    (Opcode.lt.toNat = 21107 % 100 ∧ Mode.toDigit .imm = digit 2 21107 ∧ Mode.toDigit .imm = digit 3 21107 ∧
      Mode.toDigit .rel = digit 4 21107) := by decide

theorem witness_HighDigitsAreIgnored : 0 ≤ (word 99).val ∧ (word 100099).val = (word 99).val + 100000 * (1 : Nat) := by
  decide

theorem witness_UnusedSlotsAreCheckedThenIgnored :
    (∃ d e : Decoded, d ≠ e ∧ d.op = e.op ∧ (1 ≤ d.op.params → d.m1 = e.m1) ∧ (2 ≤ d.op.params → d.m2 = e.m2) ∧
      (3 ≤ d.op.params → d.m3 = e.m3)) ∧
    ((word 399).val = (399 : Nat) ∧ Opcode.halt.toNat = 399 % 100 ∧ Opcode.halt.params < 1 ∧ 2 < digit 2 399) ∧
    ((word 32205).val = (32205 : Nat) ∧ Opcode.jnz.toNat = 32205 % 100 ∧ Opcode.jnz.params < 3 ∧
      digit 2 32205 ≤ 2 ∧ digit 3 32205 ≤ 2 ∧ 2 < digit 4 32205) :=
  ⟨⟨{ op := .out, m1 := .imm, m2 := .pos, m3 := .pos }, { op := .out, m1 := .imm, m2 := .rel, m3 := .imm }, by decide⟩,
    by decide⟩

theorem witness_AssembledLinesDecode :
    encodeOp [(0, 40)] .jz [.pos (.label 0), .imm (.value (word (-5)))] = some [word 1006, word 40, word (-5)] := by decide

theorem witness_MemReadGrowsAndReads :
    let s := State.startReplay { Config.standard with memLimit := some 7 } (cells [1, 2, 3]) []
    s.mem.wf = true ∧ (-1 : Int) < 0 ∧ maxInt64 < (9223372036854775808 : Int) ∧
    (s.cfg.memLimit = some 7 ∧ ((7 : Nat) : Int) ≤ 7 ∧ (0 : Int) ≤ 7 ∧ (7 : Int) ≤ maxInt64) ∧
    (6 : Nat) ≤ maxAddr ∧ (6 : Nat) < 7 ∧ (boot [1, 2, 3] []).cfg.memLimit = none ∧ maxAddr ≤ maxAddr := by decide

theorem witness_MemWriteGrowsAndStores :
    let s := State.startReplay { Config.standard with memLimit := some 7 } (cells [1, 2, 3]) []
    s.mem.wf = true ∧ (-1 : Int) < 0 ∧ maxInt64 < (9223372036854775808 : Int) ∧
    (s.cfg.memLimit = some 7 ∧ ((7 : Nat) : Int) ≤ 7 ∧ (0 : Int) ≤ 7 ∧ (7 : Int) ≤ maxInt64) ∧
    (6 : Nat) ≤ maxAddr ∧ (6 : Nat) < 7 := by decide

theorem witness_MostRecentWriteIsRead :
    let xs : List (Nat × Option Word) := [(2, some (word 5)), (2, some (word 6)), (2, none), (9, some (word 7))]
    (cells [1, 2]).length ≤ maxAddr + 1 ∧ (∀ x ∈ xs, x.1 ≤ maxAddr) ∧ (∀ x ∈ xs, x.1 = 1 → x.2 = none) ∧
    xs = [(2, some (word 5))] ++ (2, some (word 6)) :: [(2, none), (9, some (word 7))] ∧
    (∀ x ∈ [((2 : Nat), (none : Option Word)), (9, some (word 7))], x.1 = 2 → x.2 = none) := by decide

theorem witness_CanonicalMemoriesAreEqualData :
    (Memory.ofProgram (cells [1, 2])).wf = true ∧ (5 : Nat) ≤ maxAddr ∧ (cells [1, 2]).length ≤ maxAddr + 1 ∧
    ((Memory.ofProgram (cells [1, 0])).wf = true ∧ ((Memory.ofProgram (cells [1, 2])).write 1 Word.zero).wf = true ∧
      (Memory.ofProgram (cells [1, 0])).len = ((Memory.ofProgram (cells [1, 2])).write 1 Word.zero).len) := by decide

theorem witness_CanonicalMemories_same_reads (a : Nat) :
    (Memory.ofProgram (cells [1, 0])).read a = ((Memory.ofProgram (cells [1, 2])).write 1 Word.zero).read a := rfl

theorem witness_GrowthIsMonotonic : ∃ t, executorStep (boot [1101, 1, 1, 1000, 99] []) = .next t ∧ t.mem.len = 1001 :=
  ⟨_, rfl, by decide⟩

theorem witness_FetchSeesTheStore :
    ∃ t, memWrite ((3 : Nat) : Int) (word 99) (boot [1, 2] []) = .ok () t ∧ (boot [1, 2] []).mem.wf = true := ⟨_, rfl, by decide⟩

theorem witness_SourceOperandValues :
    peek (boot [21001, 3, -2, 4] []) (((boot [21001, 3, -2, 4] []).pc + 1 : Nat) : Int) = .ok (word 3) ∧
    peek (State.startReplay { Config.standard with memLimit := some 1 } [] []) ((0 + 1 : Nat) : Int) =
      .error (.memoryExhausted 1) ∧
    operandValue 1 .pos (boot [21001, 3, -2, 4] []) = .ok (word 4) ∧
    operandValue 1 .rel ((boot [21001, 3, -2, 4] []).setRb (word (-3))) = .ok (word 21001) ∧
    operandValue 2 .imm (boot [21001, 3, -2, 4] []) = .ok (word (-2)) ∧
    operandValue 2 .pos (boot [21001, 3, -2, 4] []) = .error (.negativeAddress (-2)) := by decide

theorem witness_DestinationAddresses :
    (word (-1)).val < 0 ∧ 0 ≤ (word 0).val ∧ (word (-5)).val + (word 4).val < 0 ∧
    maxInt64 < (word 9223372036854775807).val + (word 1).val ∧
    (0 ≤ (word (-5)).val + (word 5).val ∧ (word (-5)).val + (word 5).val ≤ maxInt64) ∧
    (word 9223372036854775800).val + (word 7).val = maxInt64 ∧
    operandAddress 3 .rel ((boot [21001, 3, -2, 4] []).setRb (word (-3))) = .ok 1 ∧
    operandAddress 2 .pos (boot [21001, 3, -2, 4] []) = .error (.negativeAddress (-2)) := by decide

/-- Sums and products at the ends of the range, and one beyond them. -/
theorem witness_ArithmeticIsExactOrFaults :
    let s := boot [11101, 9223372036854775807, 1, 9] []
    let s' := boot [11102, -9223372036854775808, 1, 9] []
    operandValue 1 .imm s = .ok (word 9223372036854775807) ∧ operandValue 2 .imm s = .ok (word 1) ∧
    operandAddress 3 .pos s = .ok 9 ∧ accessCheck s.cfg ((9 : Nat) : Int) = .ok 9 ∧ s.pc + 4 ≤ maxAddr ∧
    maxInt64 < (word 9223372036854775807).val + (word 1).val ∧
    (word 9223372036854775807).val = (word 9223372036854775807).val * (word 1).val ∧
    operandValue 1 .imm s' = .ok (word (-9223372036854775808)) ∧
    (word (-9223372036854775807)).val = (word (-9223372036854775808)).val + (word 1).val ∧
    maxInt64 < (word (-9223372036854775808)).val * (word (-1)).val := by decide

theorem witness_ComparisonsStoreOneOrZero :
    let s := boot [1107, 3, 4, 5, 99] []
    operandValue 1 .imm s = .ok (word 3) ∧ operandValue 2 .imm s = .ok (word 4) ∧ operandAddress 3 .pos s = .ok 5 ∧
    accessCheck s.cfg ((5 : Nat) : Int) = .ok 5 ∧ s.pc + 4 ≤ maxAddr := by decide

theorem witness_ComputeReportsFirstFault :
    computeOutcome sumResult .pos .imm .pos (boot [1001, -1, 5, -2, 99] []) = .error (.negativeAddress (-1)) ∧
    computeOutcome sumResult .imm .imm .pos (boot [1101, 9223372036854775807, 5, -2, 99] []) =
      .error (.negativeAddress (-2)) ∧
    computeOutcome lessResult .imm .imm .pos (boot [1107, -1, 0, 5, 99] []) = .ok (5, word 1) := by decide

/-- An IN that can be answered, under each policy; one whose address faults, one whose write faults, one whose advance faults. -/
theorem witness_InStoresTheAnswer :
    (let s := boot [3, 9] [7]
     operandAddress 1 .pos s = .ok 9 ∧ answerOf s = some (word 7) ∧ accessCheck s.cfg ((9 : Nat) : Int) = .ok 9 ∧
       s.pc + 2 ≤ maxAddr) ∧
    (operandAddress 1 .pos (ring [3, 9]) = .ok 9 ∧ answerOf (ring [3, 9]) = some (word 1)) ∧
    answerOf (driven [3, 9] [] [some (word 5)]) = some (word 5) ∧
    operandAddress 1 .pos (boot [3, -9] [7]) = .error (.negativeAddress (-9)) ∧
    (let s := State.startReplay { Config.standard with memLimit := some 5 } (cells [3, 9]) (cells [7])
     operandAddress 1 .pos s = .ok 9 ∧ answerOf s = some (word 7) ∧
       accessCheck s.cfg ((9 : Nat) : Int) = .error (.memoryExhausted 9)) ∧
    (let s := (boot [] [7]).setPc 9223372036854775806
     operandAddress 1 .pos s = .ok 0 ∧ answerOf s = some (word 7) ∧ accessCheck s.cfg ((0 : Nat) : Int) = .ok 0 ∧
       maxAddr < s.pc + 2) := by decide

theorem witness_ReplayGivesInputsInOrder :
    (let s := boot [3, 9] [7, 8]
     s.cur.cap = .replay (word 7 :: [word 8]) [] ∧ operandAddress 1 .pos s = .ok 9 ∧
       accessCheck s.cfg ((9 : Nat) : Int) = .ok 9 ∧ s.pc + 2 ≤ maxAddr) ∧
    ((boot [3, 9] []).cur.cap = .replay [] [] ∧ operandAddress 1 .pos (boot [3, 9] []) = .ok 9) := by decide

theorem witness_OutWritesTheOperand :
    operandValue 1 .pos (boot [4, 0, 99] []) = .ok (word 4) ∧ (boot [4, 0, 99] []).pc + 2 ≤ maxAddr ∧
    operandValue 1 .pos (boot [4, -9] []) = .error (.negativeAddress (-9)) := by decide

theorem witness_StageOutSendsToSuccessor :
    ∃ t, (ring [104, 5, 99]).cur.cap = .stage none ∧ operandValue 1 .imm (ring [104, 5, 99]) = .ok (word 5) ∧
      (ring [104, 5, 99]).pc + 2 ≤ maxAddr ∧ exec (.out .imm) (ring [104, 5, 99]) = .next t ∧
      t.stages.map (fun st => st.inbound.queue) = [[word 1, word 0], [word 2, word 5]] :=
  ⟨_, by decide, by decide, by decide, rfl, by decide⟩

/-- Taken and not taken; a condition that faults, a target that faults though the condition is 0, and an advance that faults. -/
theorem witness_JumpsGoToTheTarget :
    (let s := boot [1105, -1, 0, 99] []
     let s' := boot [1105, 0, -2, 99] []
     operandValue 1 .imm s = .ok (word (-1)) ∧ operandValue 2 .imm s = .ok (word 0) ∧ (word (-1)).val ≠ 0 ∧
       0 ≤ (word 0).val ∧ operandValue 1 .imm s' = .ok (word 0) ∧ operandValue 2 .imm s' = .ok (word (-2)) ∧
       (word 0).val = 0 ∧ s'.pc + 3 ≤ maxAddr) ∧
    operandValue 1 .pos (boot [1005, -1, 0] []) = .error (.negativeAddress (-1)) ∧
    (operandValue 1 .imm (boot [105, 0, -1] []) = .ok (word 0) ∧
      operandValue 2 .pos (boot [105, 0, -1] []) = .error (.negativeAddress (-1))) ∧
    (let s := (boot [] []).setPc 9223372036854775805
     let s' := s.setMem (s.mem.write 9223372036854775806 (word 1))
     operandValue 1 .imm s = .ok (word 0) ∧ operandValue 2 .imm s = .ok (word 0) ∧ maxAddr < s.pc + 3 ∧
       operandValue 1 .imm s' = .ok (word 1) ∧ operandValue 2 .imm s' = .ok (word 0) ∧ maxAddr < s'.pc + 3) := by decide

theorem witness_NegativeTargetsFaultAtTheJump :
    let s := boot [1105, 1, -1, 99] []
    let s' := boot [1106, 0, -1, 99] []
    operandValue 1 .imm s = .ok (word 1) ∧ operandValue 2 .imm s = .ok (word (-1)) ∧ (word (-1)).val < 0 ∧
    (word 1).val ≠ 0 ∧ operandValue 1 .imm s' = .ok (word 0) ∧ operandValue 2 .imm s' = .ok (word (-1)) ∧
    s'.pc + 3 ≤ maxAddr := by decide

theorem witness_ArbAddsToTheBase :
    (let s := (boot [109, 1, 99] []).setRb (word 9223372036854775806)
     operandValue 1 .imm s = .ok (word 1) ∧ (word 9223372036854775807).val = s.rb.val + (word 1).val ∧ s.pc + 2 ≤ maxAddr) ∧
    maxInt64 < ((boot [109, 1, 99] []).setRb (word 9223372036854775807)).rb.val + (word 1).val ∧
    operandValue 1 .pos (boot [9, -9] []) = .error (.negativeAddress (-9)) ∧
    (let s := (boot [] []).setPc 9223372036854775806
     operandValue 1 .imm s = .ok (word 0) ∧ (word 0).val = s.rb.val + (word 0).val ∧ maxAddr < s.pc + 2) := by decide

theorem witness_HaltEntersHalted :
    (driven [98] [true] []).job = .run ∧ (driven [98] [true] []).run = .running ∧
    (capShouldHalt (driven [98] [true] [])).1 = true ∧ (boot [99] []).cur.cap = .replay [] [] ∧
    (ring [99]).cur.cap = .stage none := by decide

theorem witness_ComputeFrame :
    ∃ t, exec (.add .imm .imm .pos) (boot [1101, 1, 2, 9, 99] []) = .next t ∧ (boot [1101, 1, 2, 9, 99] []).run = .running ∧
      t.run = .running ∧ operandAddress 3 .pos (boot [1101, 1, 2, 9, 99] []) = .ok 9 := ⟨_, rfl, by decide⟩

theorem witness_ComputeFrame_faults :
    ∃ t, exec (.add .imm .imm .pos) (boot [1101, 1, 2, -9, 99] []) = .next t ∧ t.run ≠ .running ∧
      operandAddress 3 .pos (boot [1101, 1, 2, -9, 99] []) = .error (.negativeAddress (-9)) := ⟨_, rfl, by decide⟩

theorem witness_NonStoringFrame :
    (∃ t, exec .halt (boot [99] []) = .next t) ∧
    (∃ t, exec (.out .imm) (boot [104, 5, 99] []) = .next t ∧ (boot [104, 5, 99] []).run = .running ∧ t.run = .running ∧
      operandValue 1 .imm (boot [104, 5, 99] []) = .ok (word 5)) ∧
    (∃ t, exec (.jz .imm .imm) (boot [1106, 0, 0, 99] []) = .next t ∧ t.run = .running) ∧
    ∃ t, exec (.arb .imm) (boot [109, 5, 99] []) = .next t ∧ t.run = .running :=
  ⟨⟨_, rfl⟩, ⟨_, rfl, by decide⟩, ⟨_, rfl, by decide⟩, ⟨_, rfl, by decide⟩⟩

theorem witness_InFrame :
    (∃ t, exec (.inp .pos) (boot [3, 9, 99] [7]) = .next t ∧ t.run = .running ∧
      operandAddress 1 .pos (boot [3, 9, 99] [7]) = .ok 9) ∧
    (∃ t, exec (.inp .pos) (boot [3, -9, 99] [7]) = .next t ∧
      operandAddress 1 .pos (boot [3, -9, 99] [7]) = .error (.negativeAddress (-9))) ∧
    ∃ t, exec (.inp .pos) (driven [3, 9, 99] [] [none]) = .next t ∧ t = driven [3, 9, 99] [] [none] :=
  ⟨⟨_, rfl, by decide⟩, ⟨_, rfl, by decide⟩, ⟨_, rfl, by decide⟩⟩

/-- An IN that faults after its read, an OUT that faults after its write, an ADD that faults; an IN and an OUT that fault before
their calls, and an IN whose read has no answer. -/
theorem witness_FaultsArePrecise :
    let c := { Config.standard with memLimit := some 5 }
    let s := State.startReplay c (cells [3, 9, 99]) (cells [7])
    let u := (boot [] []).setPc 9223372036854775806
    (∃ t, exec (.inp .pos) s = .next t ∧ s.run = .running ∧ t.run = .faulted (.memoryExhausted 9) 0 ∧
      operandAddress 1 .pos s = .ok 9 ∧ answerOf s = some (word 7)) ∧
    (∃ t, exec (.out .imm) u = .next t ∧ u.run = .running ∧
      t.run = .faulted (.addressOverflow 9223372036854775808) 9223372036854775806 ∧
      operandValue 1 .imm u = .ok (word 0)) ∧
    (∃ t, exec (.add .pos .pos .pos) (boot [1, -1, 0, 0] []) = .next t ∧ t.run = .faulted (.negativeAddress (-1)) 0) ∧
    (∃ t, exec (.inp .pos) (boot [3, -9] [7]) = .next t ∧ t.run = .faulted (.negativeAddress (-9)) 0 ∧
      operandAddress 1 .pos (boot [3, -9] [7]) = .error (.negativeAddress (-9))) ∧
    (∃ t, exec (.out .pos) (boot [4, -9] []) = .next t ∧ t.run = .faulted (.negativeAddress (-9)) 0 ∧
      operandValue 1 .pos (boot [4, -9] []) = .error (.negativeAddress (-9))) ∧
    ∃ t, exec (.inp .pos) (boot [3, 9] []) = .next t ∧ t.run = .faulted .inputExhausted 0 ∧ answerOf (boot [3, 9] []) = none :=
  ⟨⟨_, rfl, by decide⟩, ⟨_, rfl, by decide⟩, ⟨_, rfl, by decide⟩, ⟨_, rfl, by decide⟩, ⟨_, rfl, by decide⟩, _, rfl, by decide⟩

/-- The same for a stage of a ring (R326, R327): the faulting IN has taken the phase from its own channel, and the faulting OUT has
sent its value to its successor. -/
theorem witness_FaultsArePrecise_stages :
    let s := { ring [3, 9, 99] with cfg := { Config.standard with nStages := 2, memLimit := some 5 } }
    let u := (ring []).setPc 9223372036854775806
    (∃ t, exec (.inp .pos) s = .next t ∧ s.run = .running ∧ t.run = .faulted (.memoryExhausted 9) 0 ∧
      operandAddress 1 .pos s = .ok 9 ∧ answerOf s = some (word 1) ∧
      t.hostSides = [(.stage none, [word 0]), (.stage none, [word 2])]) ∧
    ∃ t, exec (.out .imm) u = .next t ∧ u.run = .running ∧
      t.run = .faulted (.addressOverflow 9223372036854775808) 9223372036854775806 ∧
      operandValue 1 .imm u = .ok (word 0) ∧
      t.hostSides = [(.stage (some (word 0)), [word 1, word 0]), (.stage none, [word 2, word 0])] :=
  ⟨⟨_, rfl, by decide⟩, _, rfl, by decide⟩

/-- A stage that has ended. -/
def endedStage (r : RunState) (j : JoinStatus) (last : Option Word) : Stage :=
  { exe := { mem := Memory.ofProgram (cells [99]), pc := 0, rb := word 3, run := r, finished := decide (r = .halted) }
    cap := .stage last
    inbound := { queue := [], senderConnected := false, receiverAlive := false }
    join := j }

/-- A ring of the given stages, the first in focus. -/
def ringOf (a : Stage) (rest : List Stage) (result : Option Word) : State :=
  { State.start Config.standard (cells [99]) (.stage none) .ring with cur := a, after := rest, result := result, schedule := [0] }

theorem witness_OnlyArbWritesTheBase :
    let u := ringOf (endedStage .halted .running none) [endedStage .halted .joined none] none
    (∃ t, exec (.add .imm .imm .pos) (boot [1101, 1, 2, 9, 99] []) = .next t) ∧
    (∃ w t, capRead (boot [3, 9] [7]) = .value w t) ∧
    (∃ t, executorStep (boot [109, 5, 99] []) = .next t ∧ t.rb ≠ (boot [109, 5, 99] []).rb) ∧
    (∃ t st, (ring [109, 5, 99]).job = .ring ∧ step (ring [109, 5, 99]) = .next t ∧
      (ring [109, 5, 99]).stages[1]? = some st ∧ 1 ≠ (ring [109, 5, 99]).stageIndex) ∧
    ∃ t st, u.job = .ring ∧ step u = .next t ∧ u.stages[0]? = some st ∧ u.run ≠ .running :=
  ⟨⟨_, rfl⟩, ⟨_, _, rfl⟩, ⟨_, rfl, by decide⟩, ⟨_, _, rfl, rfl, rfl, by decide⟩, _, _, rfl, rfl, rfl, by decide⟩

/-- An advance to the last legal `pc`, and one beyond it. -/
theorem witness_PcAdvancesByTheLength :
    let s := (boot [] []).setPc 9223372036854775805
    (∃ t, exec (.out .imm) s = .next t ∧ s.run = .running ∧ t.run = .running ∧ t.pc = maxAddr) ∧
    maxAddr < ((boot [] []).setPc 9223372036854775806).pc + 2 ∧
    operandValue 1 .imm ((boot [] []).setPc 9223372036854775806) = .ok (word 0) ∧
    ∃ t, exec (.jnz .imm .imm) (boot [1105, 0, 0, 99] []) = .next t ∧ t.run = .running ∧ t.pc = 3 ∧
      operandValue 1 .imm (boot [1105, 0, 0, 99] []) = .ok (word 0) :=
  ⟨⟨_, rfl, by decide⟩, by decide, by decide, ⟨_, rfl, by decide⟩⟩

theorem witness_CallsNeverTouchTheExecutor : ∃ w t, capRead (ring [3, 9]) = .value w t := ⟨_, _, rfl⟩

theorem witness_ExecutorIsAgnosticOfTheHost :
    ∃ t t', exec (.inp .pos) (boot [3, 9] [7]) = .next t ∧
      exec (.inp .pos) (((boot [3, 9] [7]).setCap (.stage none)).mapInbound fun _ => Channel.fresh [word 7]) = .next t' ∧
      answerOf (boot [3, 9] [7]) = some (word 7) ∧
      answerOf (((boot [3, 9] [7]).setCap (.stage none)).mapInbound fun _ => Channel.fresh [word 7]) = some (word 7) :=
  ⟨_, _, rfl, rfl, by decide⟩

theorem witness_OneCallPerInstruction :
    (∃ t c, (driven [3, 9] [] [some (word 5)]).cur.cap = .controller c ∧
      exec (.inp .pos) (driven [3, 9] [] [some (word 5)]) = .next t ∧
      operandAddress 1 .pos (driven [3, 9] [] [some (word 5)]) = .ok 9 ∧
      answerOf (driven [3, 9] [] [some (word 5)]) = some (word 5)) ∧
    operandAddress 1 .pos (driven [3, -9] [] []) = .error (.negativeAddress (-9)) ∧
    answerOf (driven [3, 9] [] [none]) = none ∧
    operandValue 1 .imm (driven [104, 9] [] []) = .ok (word 9) ∧
    operandValue 1 .pos (driven [4, -9] [] []) = .error (.negativeAddress (-9)) :=
  ⟨⟨_, _, rfl, rfl, by decide⟩, by decide⟩

/-- A step that is taken after a false answer, one that a true answer ends, one that is held, and a run that has ended. -/
theorem witness_ShouldHaltOncePerStep :
    (∃ t, (driven [99] [false] []).run = .running ∧ executorStep (driven [99] [false] []) = .next t ∧
      waits (capShouldHalt (driven [99] [false] [])).2 = false ∧
      t.cur.cap = .controller { halts := [], reads := [], history := [.shouldHalt false, .finished] }) ∧
    (∃ t, executorStep (driven [3, 9] [true] [none]) = .next t ∧ (capShouldHalt (driven [3, 9] [true] [none])).1 = true) ∧
    (∃ t, executorStep (driven [3, 9] [false] [none]) = .next t ∧ (capShouldHalt (driven [3, 9] [false] [none])).1 = false ∧
      waits (capShouldHalt (driven [3, 9] [false] [none])).2 = true) ∧
    ∃ t, ((boot [99] []).setRun .halted).job = .run ∧ ((boot [99] []).setRun .halted).run ≠ .running ∧
      step ((boot [99] []).setRun .halted) = .next t :=
  ⟨⟨_, by decide, rfl, by decide⟩, ⟨_, rfl, by decide⟩, ⟨_, rfl, by decide⟩, _, rfl, by decide, rfl⟩

theorem witness_ChannelsAreFifo :
    (Channel.fresh []).receiverAlive = true ∧ (Channel.fresh []).queue = [] ∧
    (Channel.fresh [word 1]).queue = word 1 :: [] ∧ (Channel.fresh []).senderConnected = true ∧
    (endedStage .halted .running none).inbound.receiverAlive = false ∧
    (endedStage .halted .running none).inbound.senderConnected = false ∧
    (endedStage .halted .running none).inbound.queue = [] := by decide

/-- A host system over the number of calls that counts: it halts the run when `stop` says so, and answers reads with 5. -/
def counter (stop : Nat → Bool) (reads : Bool) : HostSystem Nat :=
  { read := fun n => if reads then some (word 5, n + 1) else none
    write := fun _ n => n + 1
    shouldHalt := fun n => (stop n, n + 1)
    onFinished := fun n => n + 1 }

theorem witness_HostSystemsDriveTheRun :
    (boot [3, 9] []).job = .run ∧ (boot [3, 9] []).run = .running ∧
    ((counter (fun _ => true) true).shouldHalt 0).1 = true ∧ ((counter (fun _ => false) true).shouldHalt 0).1 = false ∧
    peek (boot [3, 9] []) ((boot [3, 9] []).pc : Int) = .ok (word 3) ∧ decode (word 3) = .ok (.inp .pos) ∧
    operandAddress 1 .pos (boot [3, 9] []) = .ok 9 ∧
    (counter (fun _ => false) true).read ((counter (fun _ => false) true).shouldHalt 0).2 = some (word 5, 2) ∧
    (counter (fun _ => false) false).read ((counter (fun _ => false) false).shouldHalt 0).2 = none ∧
    accessCheck (boot [3, 9] []).cfg ((9 : Nat) : Int) = .ok 9 ∧ (boot [3, 9] []).pc + 2 ≤ maxAddr ∧
    (peek (boot [104, 9] []) ((boot [104, 9] []).pc : Int) = .ok (word 104) ∧ decode (word 104) = .ok (.out .imm) ∧
      operandValue 1 .imm (boot [104, 9] []) = .ok (word 9)) ∧
    decode (word 99) = .ok .halt := by decide

theorem witness_ReplayIsAHostSystem :
    ∃ t, (boot [3, 9, 99] [7]).job = .run ∧ (boot [3, 9, 99] [7]).run = .running ∧
      (boot [3, 9, 99] [7]).cur.cap = .replay (word 7 :: []) [] ∧ step (boot [3, 9, 99] [7]) = .next t :=
  ⟨_, by decide, by decide, by decide, rfl⟩

theorem witness_StepRunsTheDecodedInstruction :
    (let s := boot [1101, 1, 2, 9, 99] []
     s.run = .running ∧ capShouldHalt s = (false, s) ∧ waits s = false ∧ peek s (s.pc : Int) = .ok (word 1101) ∧
       decode (word 1101) = .ok (.add .imm .imm .pos) ∧ s.job = .run) ∧
    (let s := ring [3, 9, 99]
     s.run = .running ∧ capShouldHalt s = (false, s) ∧ waits s = false ∧ peek s (s.pc : Int) = .ok (word 3) ∧
       decode (word 3) = .ok (.inp .pos) ∧ s.job = .ring) ∧
    ({ boot [99] [] with job := .chain 0 (word 0) [] }).job = .chain 0 (word 0) [] := by decide

theorem witness_ShouldHaltComesFirst :
    (∃ s1, capShouldHalt (driven [98] [true] []) = (true, s1)) ∧
    (let s := State.startReplay { Config.standard with memLimit := some 0 } [] []
     s.job = .run ∧ s.run = .running ∧ capShouldHalt s = (false, s) ∧ waits s = false ∧
       peek s (s.pc : Int) = .error (.memoryExhausted 0)) ∧
    (let s := boot [98] []
     capShouldHalt s = (false, s) ∧ waits s = false ∧ peek s (s.pc : Int) = .ok (word 98)) ∧
    ((ring [98]).job = .ring ∧ (ring [98]).run = .running ∧
      ({ boot [98] [] with job := .chain 0 (word 0) [] }).job = .chain 0 (word 0) []) ∧
    (((boot [99] []).setRun .halted).run = .halted ∧
      ((boot [98] []).setRun (.faulted (.unknownOpcode 98) 0)).run = .faulted (.unknownOpcode 98) 0) := ⟨⟨_, rfl⟩, by decide⟩

/-- A ring of one stage that reads from its own empty channel: it waits, and the ring is deadlocked (PL3). -/
def lonely : State := State.start Config.standard (cells [3, 9, 99]) (.stage none) .ring

theorem witness_WaitingHoldsTheExecutor :
    (lonely.run = .running ∧ lonely.cur.cap = .stage none ∧ (capShouldHalt lonely).1 = false ∧
      waits (capShouldHalt lonely).2 = true ∧ lonely.job = .ring) ∧
    ({ lonely with job := .run }).job = .run ∧ ({ lonely with job := .chain 0 (word 0) [] }).job = .chain 0 (word 0) [] ∧
    (let s := driven [3, 9] [false] [none]
     s.job = .run ∧ s.run = .running ∧ (capShouldHalt s).1 = false ∧ waits (capShouldHalt s).2 = true) ∧
    (peek lonely (lonely.pc : Int) = .ok (word 3) ∧ decode (word 3) = .ok (.inp .pos) ∧
      operandAddress 1 .pos lonely = .ok 9 ∧ answerOf lonely = none ∧ answerOf (ring [3, 9, 99]) = some (word 1)) := by
  decide

/-- An illegal word in a run, in a chain and in a ring, and a fetch that faults. -/
theorem witness_IllegalWordsEndTheRun :
    (let s := boot [399] []
     s.job = .run ∧ s.run = .running ∧ capShouldHalt s = (false, s) ∧ peek s (s.pc : Int) = .ok (word 399) ∧
       decode (word 399) = .error (.illegalModeDigit 1 3)) ∧
    (let s := { boot [399] [] with job := .chain 0 (word 0) [] }
     s.run = .running ∧ capShouldHalt s = (false, s) ∧ peek s (s.pc : Int) = .ok (word 399)) ∧
    (let s := ring [399]
     s.job = .ring ∧ s.run = .running ∧ capShouldHalt s = (false, s) ∧ peek s (s.pc : Int) = .ok (word 399)) ∧
    (let s := State.startReplay { Config.standard with memLimit := some 0 } [] []
     s.run = .running ∧ capShouldHalt s = (false, s) ∧ peek s (s.pc : Int) = .error (.memoryExhausted 0)) := by decide

theorem witness_EndedRunsStay :
    ((boot [99] []).setRun .halted).job = .run ∧ ((boot [99] []).setRun .halted).run = .halted ∧
    ((boot [98] []).setRun (.faulted (.unknownOpcode 98) 0)).run = .faulted (.unknownOpcode 98) 0 ∧
    ({ boot [99] [] with job := .done (.value (word 1)) }).job = .done (.value (word 1)) ∧
    ({ boot [99] [] with job := .done (.fault .noResult) }).job = .done (.fault .noResult) := by decide

theorem witness_RunsStartAtReset : (cells [7, 8])[1]? = some (word 8) := by decide

theorem witness_InvariantAtReset : (cells [7, 8]).length ≤ maxAddr + 1 := by decide

theorem reset_inv : State.reset.Inv := by
  intro st h
  simp only [State.stages, State.reset, List.nil_append, List.mem_singleton] at h
  subst h
  exact ⟨by decide, by decide, by decide, by decide⟩

theorem witness_StepsKeepTheInvariant : State.reset.Inv ∧ ∃ t, step State.reset = .next t := ⟨reset_inv, _, rfl⟩

theorem witness_ProgramAndParametersStay : ∃ t, step (boot [1101, 1, 2, 0, 99] []) = .next t ∧ t.mem.read 0 = word 3 :=
  ⟨_, rfl, by decide⟩

theorem witness_FinishedIsCalledOnceAndLast :
    ∃ t c, (driven [99] [false] []).cur.cap = .controller c ∧ c.history = [] ∧ (driven [99] [false] []).job = .run ∧
      (driven [99] [false] []).FinishedLast ∧ step (driven [99] [false] []) = .next t :=
  ⟨_, _, rfl, rfl, rfl, fun c h => by cases h; exact ⟨fun _ => by decide, fun h => by cases h⟩, rfl⟩

/-- A launch of N stages with the given phases. -/
def launch (n : Nat) (phases : List Word) : State :=
  State.start { Config.standard with nStages := n } (cells [99]) (.replay [] []) (.launchRing phases)

theorem witness_BadLaunchesAreRefused :
    (∃ t, step (launch 0 []) = .next t ∧ (launch 0 []).cfg.nStages < 1 ∧ (launch 0 []).search = none) ∧
    (∃ t, step (launch 2 [word 1]) = .next t ∧ [word 1].length ≠ (launch 2 [word 1]).cfg.nStages) ∧
    (∃ t, step (launch 2 [word 1, word 1]) = .next t ∧ ¬ [word 1, word 1].Nodup) ∧
    (1 ≤ (launch 1 [word 1]).cfg.nStages ∧ [word 1].length = (launch 1 [word 1]).cfg.nStages ∧ [word 1].Nodup ∧
      ∃ t, step (launch 1 [word 1]) = .next t) :=
  ⟨⟨_, rfl, by decide⟩, ⟨_, rfl, by decide⟩, ⟨_, rfl, by decide⟩, by decide, by decide, by decide, ⟨_, rfl⟩⟩

theorem witness_LaunchSeedsTheChannels :
    let ps := [word 1, word 0]
    (launch 2 ps).job = .launchRing ps ∧ 1 ≤ (launch 2 ps).cfg.nStages ∧ ps.length = (launch 2 ps).cfg.nStages ∧
      ps.Nodup ∧ ps[0]? = some (word 1) ∧ ps[1]? = some (word 0) ∧ ∃ t, step (launch 2 ps) = .next t :=
  ⟨by decide, by decide, by decide, by decide, by decide, by decide, _, rfl⟩

/-- The invariant holds of a launched ring, and the ring steps. -/
theorem witness_StepsKeepTheRingInvariant :
    lonely.job = .ring ∧ lonely.RingInv ∧ ∃ t, step lonely = .next t := by
  refine ⟨rfl, fun _ i st h => ?_, _, rfl⟩
  match i, h with
  | 0, h =>
    cases h
    exact ⟨⟨none, rfl⟩, rfl, by decide, fun pred h => (by cases h; rfl), fun _ last h => rfl⟩

theorem witness_AnyStageMayMoveNext :
    (1 < (ring [99]).stageCount ∧ (ring [99]).schedule = 1 :: [0, 1]) ∧
    (0 < lonely.stageCount ∧ ({ lonely with schedule := [0] }).schedule = 0 :: []) := by decide

/-- R346: once all stages have ended the ring reports, whichever stage is in focus and whatever the schedule says; here neither
stage was joined before, and the schedule would bring stage 0 into focus for good. -/
theorem test_ring_reports : let s := ringOf (endedStage .halted .running none) [endedStage .halted .running (some (word 4))] (some (word 4))
    stepped (fun t => (t.job, t.stages.map Stage.join)) { s with schedule := [0, 0, 0] } =
      some (.done (.value (word 4)), [.joined, .joined]) := by decide

theorem witness_ResultIsReadAfterTheJoin :
    (let s := ringOf (endedStage .halted .running none) [endedStage .halted .running (some (word 4))] (some (word 4))
     s.job = .ring ∧ s.run ≠ .running ∧ s.search = none ∧ (∀ st ∈ s.stages, st.ended = true) ∧
       (∀ st ∈ s.stages, st.exe.run = .halted) ∧ s.result = some (word 4) ∧
       stepped (fun t => decide (t.job ≠ .ring)) s = some true) ∧
    (let s := ringOf (endedStage .halted .joined none) [endedStage (.faulted .inputExhausted 2) .running none] none
     s.job = .ring ∧ (∀ st ∈ s.stages, st.ended = true) ∧
       (s.stages[1]?).map (fun st => st.exe.run) = some (.faulted .inputExhausted 2) ∧
       (s.stages[0]?).map (fun st => st.exe.run) = some .halted) ∧
    (let s := ringOf (endedStage .halted .joined none) [endedStage .halted .running none] none
     s.job = .ring ∧ s.result = none ∧ (∀ st ∈ s.stages, st.ended = true) ∧ ∀ st ∈ s.stages, st.exe.run = .halted) ∧
    (let s := ringOf (endedStage .halted .running none) [endedStage .running .running none] none
     s.job = .ring ∧ s.run ≠ .running ∧ stepped State.job s = some .ring) := by decide

theorem lonely_deadlocked : lonely.Deadlocked := by
  refine ⟨rfl, ⟨lonely.cur, by simp [State.stages], rfl⟩, fun k st h _ => ?_⟩
  match k, h with
  | 0, _ => exact ⟨rfl, ⟨none, rfl⟩, by decide⟩

theorem witness_DeadlockIsPermanent : lonely.Deadlocked ∧ ∃ t, step lonely = .next t := ⟨lonely_deadlocked, _, rfl⟩

/-- Round robin is weakly fair, and the stage not in focus of a launched ring is enabled. -/
theorem witness_EnabledStagesStayEnabledAndMove :
    (ring [3, 9, 99]).job = .ring ∧ (ring [3, 9, 99]).enabled 1 ∧ 1 ≠ (ring [3, 9, 99]).stageIndex ∧
      (∃ t, step (ring [3, 9, 99]) = .next t) ∧ WeaklyFair id (ring [3, 9, 99]) := by
  refine ⟨by decide, ⟨by decide, by decide, by decide⟩, by decide, ⟨_, rfl⟩, fun k n hk _ => ?_⟩
  have h2 : (ring [3, 9, 99]).stageCount = 2 := by decide
  rw [h2] at hk ⊢
  exact ⟨n * 2 + k, by omega, by simp only [id_eq]; omega⟩

/-- A chain at stage 0 with the signal 0 and the given phases left, whose stage has ended so with these outputs. -/
def chainAt (rest outl : List Word) (r : RunState) : State :=
  (State.start Config.standard (cells [99]) (.replay [] outl) (.chain 0 (word 0) rest)).setRun r

theorem witness_ChainFeedsEachOutputOn :
    (State.start Config.standard (cells [99]) (.replay [] []) (.launchChain [word 4])).job = .launchChain (word 4 :: []) ∧
    (let s := State.start Config.standard (cells [99]) (.replay [] []) (.launchChain [])
     s.job = .launchChain [] ∧ s.search = none) ∧
    (let s := chainAt [word 3] [word 5] .halted
     s.job = .chain 0 (word 0) (word 3 :: []) ∧ s.run = .halted ∧ s.cur.cap = .replay [] [word 5]) ∧
    (let s := chainAt [] [word 5] .halted
     s.job = .chain 0 (word 0) [] ∧ s.search = none ∧ s.run = .halted ∧ s.cur.cap = .replay [] [word 5]) ∧
    (let s := chainAt [word 3] [] .halted
     s.job = .chain 0 (word 0) [word 3] ∧ s.run = .halted ∧ s.cur.cap = .replay [] [] ∧ ([] : List Word).length ≠ 1) ∧
    (let s := chainAt [] [word 1, word 2] .halted
     s.job = .chain 0 (word 0) [] ∧ s.cur.cap = .replay [] [word 1, word 2] ∧ [word 1, word 2].length ≠ 1) ∧
    (let s := chainAt [] [] (.faulted (.unknownOpcode 98) 0)
     s.job = .chain 0 (word 0) [] ∧ s.run = .faulted (.unknownOpcode 98) 0) := by decide

theorem witness_SearchTakesTheMaximum :
    (let s := State.startSearch Config.standard (cells [99]) .ring [[word 4]]
     s.job = .nextEvaluation ∧ s.search = some { kind := .ring, pending := [[word 4]], best := none }) ∧
    (let sr : Search := { kind := .chain, pending := [], best := some (word 3) }
     let s := { State.startSearch Config.standard (cells [99]) .chain [] with search := some sr }
     let t := { s.setCap (.replay [] [word 5]) with job := .chain 0 (word 0) [] }
     s.job = .nextEvaluation ∧ s.search = some sr ∧ sr.pending = [] ∧ sr.best = some (word 3) ∧
       t.search = some sr ∧ t.job = .chain 0 (word 0) [] ∧ (t.setRun .halted).run = .halted ∧
       t.cur.cap = .replay [] [word 5]) ∧
    (let u := ringOf (endedStage .halted .joined none) [endedStage .halted .joined (some (word 4))] (some (word 4))
     u.job = .ring ∧ u.result = some (word 4) ∧
       ∀ st ∈ u.stages, st.exe.run = .halted ∧ st.ended = true ∧ st.join = .joined) := by decide

/-- JMP9 is a hang: each step gives back the state it started from. -/
theorem jmp9_hangs : (boot [1105, 1, 0] []).Hangs := by
  have h : ∀ n, stepsFrom n (boot [1105, 1, 0] []) = some (boot [1105, 1, 0] []) := by
    intro n
    induction n with
    | zero => rfl
    | succ n ih => exact ih
  exact fun n => ⟨_, h n, by decide, by decide⟩

theorem witness_FuelDecidesNothing :
    (boot [1105, 1, 0] []).job = .run ∧ (boot [1105, 1, 0] []).Hangs ∧ ∃ r, runToEnd 1 (boot [99] []) = some r :=
  ⟨rfl, jmp9_hangs, _, rfl⟩

end Sys2Proof.Tests
end

section
/-! PROOF. The machine's next move (R341): one equation of `step` for each kind of move, and when each kind is made. The
terminal states (R23, R301) and the start of a run (R38, R400) follow. -/

namespace Sys2Proof.Machine

/-! ## The kinds of moves -/

theorem step_of_host {s t : State} (h : nextMove s = .host t) : step s = .next t := by
  simp only [step, h]

theorem step_of_stop {s : State} {f : Fault} (h : nextMove s = .stop f) : step s = .fault f := by
  simp only [step, h]

/-- R124, R345: a move of an executor is its step, and in a ring the choice of the next stage. -/
theorem step_of_executor {s : State} (h : nextMove s = .executor) :
    ∃ u, StepShape s u ∧ step s = .next (afterTurn u) := by
  obtain ⟨u, hu, hs⟩ := executorStep_cases s
  exact ⟨u, hs, by simp only [step, h, hu, thenNext]⟩

/-- R301, R39: the machine stops only to report a fault with which the job, or the single run, has ended. -/
theorem nextMove_stop {s : State} {f : Fault} (h : nextMove s = .stop f) :
    s.job = .done (.fault f) ∨ (s.job = .run ∧ ∃ g pc, s.run = .faulted g pc ∧ f = .executor g pc) := by
  unfold nextMove at h
  split at h
  · next hj =>
    split at h <;> cases h
    next g pc hr => exact .inr ⟨hj, g, pc, hr, rfl⟩
  · cases h
  · split at h
    · cases h
    · split at h <;> cases h
  · cases h
  · split at h <;> cases h
  · cases h
  · next hj =>
    split at h <;> cases h
    exact .inl hj

theorem nextMove_run_halted {s : State} (hj : s.job = .run) (hr : s.run = .halted) : nextMove s = .host s := by
  simp only [nextMove, hj, hr]

theorem nextMove_run_faulted {s : State} {f : ExecFault} {pc : Nat} (hj : s.job = .run) (hr : s.run = .faulted f pc) :
    nextMove s = .stop (.executor f pc) := by
  simp only [nextMove, hj, hr]

theorem nextMove_done_value {s : State} {v : Word} (hj : s.job = .done (.value v)) : nextMove s = .host s := by
  simp only [nextMove, hj]

theorem nextMove_done_fault {s : State} {f : Fault} (hj : s.job = .done (.fault f)) : nextMove s = .stop f := by
  simp only [nextMove, hj]

/-- Settles O44: a step is a move of an executor, a move of the host or a stop, and only the last answers with a fault. -/
theorem stepStopsOnlyOnReportedFaults : Obligations.StepStopsOnlyOnReportedFaults := by
  refine ⟨fun i s => (exec_cases i s).imp fun _ h => h.1, fun s => ?_⟩
  cases h : nextMove s with
  | executor => exact .inl ((step_of_executor h).elim fun _ hu => ⟨_, hu.2⟩)
  | host t => exact .inl ⟨t, step_of_host h⟩
  | stop f => exact .inr ⟨f, step_of_stop h, nextMove_stop h⟩

/-- Settles O43, by the move the machine makes in each of the four ended states. -/
theorem endedRunsStay : Obligations.EndedRunsStay := fun _ =>
  ⟨fun hj hr => step_of_host (nextMove_run_halted hj hr),
    fun _ _ hj hr => step_of_stop (nextMove_run_faulted hj hr),
    fun _ hj => step_of_host (nextMove_done_value hj),
    fun _ hj => step_of_stop (nextMove_done_fault hj)⟩

/-- Settles O47: memory starts as a copy of the program, and the other fields are those `State.start` writes. -/
theorem runsStartAtReset : Obligations.RunsStartAtReset := by
  refine ⟨fun cfg prog cap job => ⟨rfl, fun a v h => ?_, rfl, rfl, rfl, rfl, rfl, rfl, rfl⟩, rfl⟩
  have hread := Memory.read_ofProgram prog a
  rwa [h] at hread

end Sys2Proof.Machine
end

section
/-! PROOF. Memories in canonical form are determined by what they read and by their length (notes/assumptions/3.md). -/

namespace Sys2Proof.Machine

theorem cellsWf_cons {len low k : Nat} {v : Word} {rest : List (Nat × Word)} :
    cellsWf len low ((k, v) :: rest) = true ↔
      low ≤ k ∧ k < len ∧ v ≠ Word.zero ∧ cellsWf len (k + 1) rest = true := by
  simp only [cellsWf, Bool.and_eq_true, decide_eq_true_eq, and_assoc]

theorem cellsRead_cons_self (k : Nat) (v : Word) (rest : List (Nat × Word)) : cellsRead ((k, v) :: rest) k = v := by
  simp [cellsRead]

theorem cellsRead_cons_other {k a : Nat} (h : k ≠ a) (v : Word) (rest : List (Nat × Word)) :
    cellsRead ((k, v) :: rest) a = cellsRead rest a := by
  simp [cellsRead, h]

theorem cellsRead_first_ne_zero {len low k : Nat} {v : Word} {rest : List (Nat × Word)}
    (h : cellsWf len low ((k, v) :: rest) = true) : cellsRead ((k, v) :: rest) k ≠ Word.zero := by
  obtain ⟨-, -, hv, -⟩ := cellsWf_cons.1 h
  rwa [cellsRead_cons_self]

/-- A canonical list reads 0 below its first cell and not at it, so where it reads as another list the other's first cell is not
greater. -/
theorem first_le_of_reads_eq {len low k k' : Nat} {v v' : Word} {rest rest' : List (Nat × Word)}
    (h : cellsWf len low ((k, v) :: rest) = true) (h' : cellsWf len low ((k', v') :: rest') = true)
    (hr : ∀ a, cellsRead ((k, v) :: rest) a = cellsRead ((k', v') :: rest') a) : k' ≤ k := by
  obtain ⟨-, hk', hv', hrest'⟩ := cellsWf_cons.1 h'
  by_contra hlt
  have hfrom : cellsWf len k' ((k', v') :: rest') = true := cellsWf_cons.2 ⟨Nat.le_refl k', hk', hv', hrest'⟩
  exact cellsRead_first_ne_zero h ((hr k).trans (cellsRead_of_lt hfrom (Nat.lt_of_not_le hlt)))

theorem cells_eq_of_reads_eq {len low : Nat} {cs cs' : List (Nat × Word)} (h : cellsWf len low cs = true)
    (h' : cellsWf len low cs' = true) (hr : ∀ a, cellsRead cs a = cellsRead cs' a) : cs = cs' := by
  induction cs generalizing low cs' with
  | nil =>
    cases cs' with
    | nil => rfl
    | cons c' rest' => exact absurd (hr c'.1).symm (cellsRead_first_ne_zero h')
  | cons c rest ih =>
    obtain ⟨k, v⟩ := c
    cases cs' with
    | nil => exact absurd (hr k) (cellsRead_first_ne_zero h)
    | cons c' rest' =>
      obtain ⟨k', v'⟩ := c'
      obtain rfl : k = k' :=
        Nat.le_antisymm (first_le_of_reads_eq h' h fun a => (hr a).symm) (first_le_of_reads_eq h h' hr)
      obtain ⟨-, -, -, hrest⟩ := cellsWf_cons.1 h
      obtain ⟨-, -, -, hrest'⟩ := cellsWf_cons.1 h'
      obtain rfl : v = v' := by simpa only [cellsRead_cons_self] using hr k
      have htail : ∀ a, cellsRead rest a = cellsRead rest' a := by
        intro a
        by_cases e : k = a
        · rw [cellsRead_of_lt hrest (by omega), cellsRead_of_lt hrest' (by omega)]
        · simpa only [cellsRead_cons_other e] using hr a
      rw [ih hrest hrest' htail]

theorem Memory.eq_of_reads_eq {m m' : Memory} (h : m.wf = true) (h' : m'.wf = true) (hl : m.len = m'.len)
    (hr : ∀ a, m.read a = m'.read a) : m = m' := by
  obtain ⟨hc, -⟩ := (Memory.wf_iff m).1 h
  obtain ⟨hc', -⟩ := (Memory.wf_iff m').1 h'
  have hcells : m.cells = m'.cells := cells_eq_of_reads_eq hc (hl ▸ hc') hr
  cases m
  cases m'
  exact congrArg₂ Memory.mk hcells hl

/-- Settles O10: the laws of the tape, and the induction over two canonical lists of cells. -/
theorem canonicalMemoriesAreEqualData : Obligations.CanonicalMemoriesAreEqualData :=
  ⟨fun _ _ v h ha => ⟨Memory.wf_grow h ha, Memory.wf_write h ha v⟩, Memory.wf_ofProgram,
    fun _ _ => Memory.eq_of_reads_eq⟩

end Sys2Proof.Machine
end

section
/-! PROOF. The ring keeps its invariant (R328, R329, R346). A turn of a Running stage is said once, stage by stage (`Turn`): the
stage in focus changes what is its own, and, when its run has ended, the two flags of its endpoints. -/

namespace Sys2Proof.Machine

/-! ## Inside a turn -/

/-- What a channel-connected stage has done to the ring before its run may end: it has changed its executor, its capability's
state and the queues of its channels, and no endpoint flag. -/
structure WithinTurn (s v : State) : Prop where
  others : SameOthers s v
  flags : v.stages.map Stage.flags = s.stages.map Stage.flags
  result : v.result = s.result
  policy : ∃ last, v.cur.cap = .stage last

theorem WithinTurn.refl {s : State} (hc : ∃ last, s.cur.cap = .stage last) : WithinTurn s s :=
  ⟨SameOthers.refl s, rfl, rfl, hc⟩

/-- The updates of the registers and of the memory are of this form. -/
theorem WithinTurn.setExe {s v : State} (h : WithinTurn s v) (e : Executor) : WithinTurn s (v.setExe e) where
  others := h.others.trans ⟨rfl, rfl, rfl⟩
  flags := by rw [← h.flags]; simp [State.stages, State.setExe, Stage.flags]
  result := h.result
  policy := h.policy

theorem capRead_result {s t : State} {v : Word} (h : capRead s = .value v t) : t.result = s.result := by
  rw [(answer_of_capRead h).2]
  unfold answered
  split <;> rfl

theorem capWrite_result (v : Word) (s : State) : (capWrite v s).result = s.result := by
  unfold capWrite
  split <;> simp

/-- R36: only `CapOnFinished()` writes the result cell. -/
theorem Called.result {i : Instr} {s s1 : State} (h : Called i s s1) : s1.result = s.result := by
  obtain rfl | ⟨m, v, -, rfl⟩ | ⟨m, v, -, h⟩ := h
  · rfl
  · exact capWrite_result v s
  · exact capRead_result h

/-- R327: a call leaves the policy what it is. -/
theorem Called.policy {i : Instr} {s s1 : State} (h : Called i s s1) (hc : ∃ last, s.cur.cap = .stage last) :
    ∃ last, s1.cur.cap = .stage last := by
  obtain ⟨last, hc⟩ := hc
  obtain rfl | ⟨m, v, -, rfl⟩ | ⟨m, v, -, h⟩ := h
  · exact ⟨last, hc⟩
  · exact ⟨some v, by simp [capWrite, hc]⟩
  · refine ⟨last, ?_⟩
    rw [(answer_of_capRead h).2]
    simp [answered, hc]

theorem WithinTurn.called {s v v1 : State} {i : Instr} (h : WithinTurn s v) (hc : Called i v v1) : WithinTurn s v1 where
  others := h.others.trans hc.sameOthers
  flags := hc.flags.trans h.flags
  result := hc.result.trans h.result
  policy := hc.policy h.policy

/-! ## A whole turn -/

/-- Stage `i` before and after a turn of the stage in focus that leads from `s` to `u`. Only the stage in focus changes its own
parts; if its run has ended, its receiver and its sender, which is that of channel (i+1) mod N, are released (R328, R340). -/
structure StageTurn (s u : State) (i : Nat) (st0 st : Stage) : Prop where
  join : st.join = st0.join
  own : i ≠ s.stageIndex → st.exe = st0.exe ∧ st.cap = st0.cap
  alive : st.inbound.receiverAlive = (st0.inbound.receiverAlive && !(decide (i = s.stageIndex) && u.cur.ended))
  connected : st.inbound.senderConnected =
    (st0.inbound.senderConnected && !(decide (i = (s.stageIndex + 1) % s.stageCount) && u.cur.ended))

/-- The turn of a Running channel-connected stage. R329: the result cell is written when the final stage halts. -/
structure Turn (s u : State) : Prop where
  index : u.stageIndex = s.stageIndex
  count : u.stageCount = s.stageCount
  policy : ∃ last, u.cur.cap = .stage last
  result : ∀ last, u.cur.cap = .stage last →
    u.result = if s.after = [] ∧ u.run = .halted then last else s.result
  stage : ∀ i st, u.stages[i]? = some st → ∃ st0, s.stages[i]? = some st0 ∧ StageTurn s u i st0 st

/-- A turn after which the run of the stage goes on. -/
theorem WithinTurn.goesOn {s u : State} (h : WithinTurn s u) (hr : u.run = .running) : Turn s u where
  index := h.others.stageIndex
  count := h.others.stageCount
  policy := h.policy
  result := by simp [hr, h.result]
  stage := fun i st hi => by
    have he : u.cur.ended = false := Stage.ended_eq_false.2 hr
    obtain ⟨st0, h0, hf, hj, hother, -⟩ := h.others.pointwise h.flags hi
    obtain ⟨hs, ha⟩ := Prod.mk.inj hf
    exact ⟨st0, h0, hj, hother, by simp [he, ha], by simp [he, hs]⟩

/-- R328: the release, stage by stage. -/
theorem releaseEndpoints_stage {v : State} (hc : ∃ last, v.cur.cap = .stage last) {i : Nat} {st : Stage}
    (hi : (releaseEndpoints v).stages[i]? = some st) :
    ∃ st0, v.stages[i]? = some st0 ∧ st.own = st0.own ∧
      st.inbound.receiverAlive = (st0.inbound.receiverAlive && !decide (i = v.stageIndex)) ∧
      st.inbound.senderConnected =
        (st0.inbound.senderConnected && !decide (i = (v.stageIndex + 1) % v.stageCount)) := by
  obtain ⟨last, hc⟩ := hc
  rw [releaseEndpoints_stages hc, List.getElem?_modify, List.getElem?_modify] at hi
  cases h0 : v.stages[i]? with
  | none => simp [h0] at hi
  | some st0 =>
    simp only [h0, Option.map_eq_map, Option.map_some, Option.some.injEq] at hi
    subst hi
    generalize (v.stageIndex + 1) % v.stageCount = next
    generalize v.stageIndex = own
    refine ⟨st0, rfl, ?_⟩
    by_cases h1 : own = i <;> by_cases h2 : next = i <;> simp [h1, h2, eq_comm (a := i), Stage.own]

theorem releaseEndpoints_result (s : State) : (releaseEndpoints s).result = s.result := by
  unfold releaseEndpoints
  split <;> simp

/-- A turn in which the run of the stage ends, in `v`, and its endpoints are released. -/
theorem Turn.of_release {s v : State} (others : SameOthers s v)
    (flags : v.stages.map Stage.flags = s.stages.map Stage.flags) (policy : ∃ last, v.cur.cap = .stage last)
    (ended : v.cur.ended = true)
    (result : ∀ last, v.cur.cap = .stage last →
      v.result = if s.after = [] ∧ v.run = .halted then last else s.result) :
    Turn s (releaseEndpoints v) where
  index := (releaseEndpoints_sameOthers v).stageIndex.trans others.stageIndex
  count := (releaseEndpoints_sameOthers v).stageCount.trans others.stageCount
  policy := by simpa using policy
  result := by simpa [releaseEndpoints_result, State.run] using result
  stage := fun i st hi => by
    have he : (releaseEndpoints v).cur.ended = true := by simpa [Stage.ended] using ended
    obtain ⟨st1, h1, hown, halive, hconn⟩ := releaseEndpoints_stage policy hi
    obtain ⟨st0, h0, hf, hj, hother, -⟩ := others.pointwise flags h1
    obtain ⟨hs, ha⟩ := Prod.mk.inj hf
    simp only [Stage.own, Prod.mk.injEq] at hown
    obtain ⟨hexe, hcap, hjoin⟩ := hown
    refine ⟨st0, h0, hjoin.trans hj, fun hne => ?_, ?_, ?_⟩
    · exact ⟨hexe.trans (hother hne).1, hcap.trans (hother hne).2⟩
    · rw [halive, ha, he, others.stageIndex, Bool.and_true]
    · rw [hconn, hs, he, others.stageIndex, others.stageCount, Bool.and_true]

/-- R123: the turn ends in a fault. -/
theorem WithinTurn.faults {s v : State} (h : WithinTurn s v) (f : ExecFault) : Turn s (enterFaulted f v) := by
  have hv : WithinTurn s (v.setRun (.faulted f v.pc)) := h.setExe _
  exact Turn.of_release hv.others hv.flags hv.policy rfl (fun _ _ => by simp [h.result])

/-- R329: on a halt a channel-connected stage writes the result cell if it is the final one, and nothing otherwise. -/
theorem capOnFinished_of_stage {s : State} {last : Option Word} (hc : s.cur.cap = .stage last) :
    capOnFinished s = { s with result := if s.after = [] then last else s.result } := by
  simp only [capOnFinished, hc]
  split <;> rfl

theorem SameOthers.after_nil {s t : State} (h : SameOthers s t) : t.after = [] ↔ s.after = [] := by
  have := congrArg List.length h.2.1
  rw [List.length_map, List.length_map] at this
  rw [← List.length_eq_zero_iff, this, List.length_eq_zero_iff]

/-- R120: the turn ends in a halt. -/
theorem WithinTurn.halts {s v : State} (h : WithinTurn s v) : Turn s (enterHalted v) := by
  obtain ⟨last, hc⟩ := h.policy
  have hv : WithinTurn s ((v.setRun .halted).setFinished true) := (h.setExe _).setExe _
  rw [enterHalted, capOnFinished_of_stage (s := v.setRun .halted) hc]
  refine Turn.of_release hv.others hv.flags hv.policy rfl fun l hl => ?_
  have hll : last = l := Capability.stage.inj (hc.symm.trans hl)
  simp [State.setFinished, State.setRun, h.result, h.others.after_nil, hll]

/-! ## Every step of a Running stage is a turn -/

theorem ExecShape.turn {s v t : State} {i : Instr} (h : ExecShape i v t) (hv : WithinTurn s v) (hr : v.run = .running) :
    Turn s t := by
  cases h with
  | completes s1 m rb pc called mem hpc hrb =>
    have hrun : s1.run = .running := (congrArg Executor.run called.exe).trans hr
    exact (((hv.called called).setExe _).setExe _ |>.setExe _).goesOn hrun
  | faults s1 m f called mem => exact ((hv.called called).setExe _).faults f
  | halts hi => exact hv.halts
  | held m hi hb => exact hv.goesOn hr

/-- R329: a channel-connected stage answers false to the should_halt check, and nothing changes. -/
theorem capShouldHalt_of_stage {s : State} {last : Option Word} (hc : s.cur.cap = .stage last) :
    capShouldHalt s = (false, s) := by
  simp only [capShouldHalt, hc]

theorem StepShape.turn {s t : State} (h : StepShape s t) (hc : ∃ last, s.cur.cap = .stage last)
    (hr : s.run = .running) : Turn s t := by
  have hs := WithinTurn.refl hc
  have hcheck : capShouldHalt s = (false, s) := hc.elim fun _ => capShouldHalt_of_stage
  cases h with
  | halts h => rw [hcheck] at h; cases h
  | held h hw => exact hs.goesOn hr
  | fetchFaults f m h hw hm => rw [hcheck]; exact (hs.setExe _).faults f
  | executes w i t h hw hp hd hb hx =>
    rw [hcheck] at hx
    exact (exec_shape hx).turn (hs.setExe _) hr

/-! ## A turn keeps the invariant -/

/-- R340: stage (i-1) mod n is `k` exactly when `i` is stage (k+1) mod n. -/
theorem predecessor_eq_iff {i k n : Nat} (hi : i < n) (hk : k < n) : (i + n - 1) % n = k ↔ i = (k + 1) % n := by
  have hpred : (i + n - 1) % n = if i = 0 then n - 1 else i - 1 := by
    split
    · next h => rw [h, Nat.zero_add]; exact Nat.mod_eq_of_lt (by omega)
    · next h => rw [show i + n - 1 = i - 1 + n by omega, Nat.add_mod_right]; exact Nat.mod_eq_of_lt (by omega)
  have hsucc : (k + 1) % n = if k + 1 = n then 0 else k + 1 := by
    split
    · next h => rw [h, Nat.mod_self]
    · exact Nat.mod_eq_of_lt (by omega)
  rw [hpred, hsucc]
  split <;> split <;> omega

theorem State.getElem?_stageIndex_eq {s : State} {st : Stage} {i : Nat} (h : s.stages[i]? = some st)
    (hi : i = s.stageIndex) : st = s.cur := by
  rw [hi, State.stages_stageIndex] at h
  exact (Option.some.inj h).symm

/-- The final stage is the one with no stage after it. -/
theorem State.after_nil_iff (s : State) : s.after = [] ↔ s.stageIndex + 1 = s.stageCount := by
  rw [← List.length_eq_zero_iff]
  simp only [State.stageIndex, State.stageCount]
  omega

theorem StageTurn.ended {s u : State} {i : Nat} {st0 st : Stage} (h : StageTurn s u i st0 st) (hi : i ≠ s.stageIndex) :
    st.ended = st0.ended := by
  simp only [Stage.ended, (h.own hi).1]

theorem Turn.ringInv {s u : State} (h : Turn s u) (hj : s.job = .ring) (hr : s.run = .running) (hs : s.RingInv) :
    u.RingInv := by
  intro _ i st hi
  have hlen : u.stages.length = s.stageCount := u.stages_length.trans h.count
  have hin : i < s.stageCount := hlen ▸ (List.getElem?_eq_some_iff.1 hi).1
  have hcur : s.cur.ended = false := Stage.ended_eq_false.2 hr
  obtain ⟨st0, h0, ht⟩ := h.stage i st hi
  obtain ⟨hcap, halive, hjoin, hconn, hres⟩ := hs hj i st0 h0
  rw [State.stages_length] at hconn hres
  have self0 : i = s.stageIndex → st0 = s.cur := State.getElem?_stageIndex_eq h0
  have self : i = s.stageIndex → st = u.cur := fun e => State.getElem?_stageIndex_eq hi (e.trans h.index.symm)
  unfold StageInv
  rw [hlen]
  refine ⟨?_, ?_, ?_, ?_, ?_⟩
  · by_cases e : i = s.stageIndex
    · exact self e ▸ h.policy
    · rw [(ht.own e).2]; exact hcap
  · rw [ht.alive, halive]
    by_cases e : i = s.stageIndex
    · simp [e, self e, self0 e, hcur]
    · simp [e, ht.ended e]
  · intro hjd
    have hst0 := hjoin (ht.join ▸ hjd)
    by_cases e : i = s.stageIndex
    · rw [self0 e, hcur] at hst0; cases hst0
    · rw [ht.ended e]; exact hst0
  · intro pred hpred
    obtain ⟨pred0, hp0, htp⟩ := h.stage _ pred hpred
    rw [ht.connected, hconn pred0 hp0]
    by_cases e : (i + s.stageCount - 1) % s.stageCount = s.stageIndex
    · have ep : pred = u.cur := State.getElem?_stageIndex_eq hpred (e.trans h.index.symm)
      have ep0 : pred0 = s.cur := State.getElem?_stageIndex_eq hp0 e
      simp [(predecessor_eq_iff hin s.stageIndex_lt).1 e, ep, ep0, hcur]
    · have ei : ¬ i = (s.stageIndex + 1) % s.stageCount := fun e' => e ((predecessor_eq_iff hin s.stageIndex_lt).2 e')
      simp [ei, htp.ended e]
  · intro hfinal last hl
    obtain ⟨l, hu⟩ := h.policy
    rw [h.result l hu]
    by_cases e : i = s.stageIndex
    · obtain ⟨l0, hl0⟩ := hcap
      have hnone : s.result = none := by simpa [self0 e, hr] using hres hfinal l0 hl0
      have hll : l = last := Capability.stage.inj (hu.symm.trans (self e ▸ hl))
      simp [s.after_nil_iff.2 (e ▸ hfinal), hnone, hll, self e]
    · have hne : s.after ≠ [] := fun h' => by have := s.after_nil_iff.1 h'; omega
      obtain ⟨hexe, hcap'⟩ := ht.own e
      simpa [hne, hexe] using hres hfinal last (hcap' ▸ hl)

/-! ## The moves of the orchestrator -/

theorem State.ringInv_of_job_ne {s : State} (h : s.job ≠ .ring) : s.RingInv := fun hj => absurd hj h

/-- R345: the choice of the next stage keeps the invariant. -/
theorem State.RingInv.nextTurn {s : State} (h : s.RingInv) : s.nextTurn.RingInv := by
  simpa [State.RingInv] using h

/-- R346: so does the join of an ended stage. -/
theorem State.RingInv.join {s : State} (h : s.RingInv) (hj : s.job = .ring) (hr : s.run ≠ .running) :
    (joinStage s).RingInv := by
  have old : ∀ {k st}, (joinStage s).stages[k]? = some st →
      ∃ st0, s.stages[k]? = some st0 ∧ st = if s.stageIndex = k then st0.joined else st0 := by
    intro k st hk
    rw [joinStage_stages, List.getElem?_modify] at hk
    obtain ⟨st0, h0, rfl⟩ := Option.map_eq_some_iff.1 hk
    exact ⟨st0, h0, rfl⟩
  have hlen : (joinStage s).stages.length = s.stages.length := by rw [joinStage_stages, List.length_modify]
  intro _ i st hi
  obtain ⟨st0, h0, rfl⟩ := old hi
  obtain ⟨hcap, halive, hjoin, hconn, hres⟩ := h hj i st0 h0
  have hpred : ∀ pred, (joinStage s).stages[(i + s.stages.length - 1) % s.stages.length]? = some pred →
      st0.inbound.senderConnected = !pred.ended := by
    intro pred hp
    obtain ⟨pred0, hp0, rfl⟩ := old hp
    rw [hconn pred0 hp0]
    split <;> rfl
  unfold StageInv
  rw [hlen]
  split
  · next e =>
    have hended : st0.ended = true := by
      rw [State.getElem?_stageIndex_eq h0 e.symm, ← Bool.not_eq_false, Stage.ended_eq_false]
      exact hr
    exact ⟨hcap, halive, fun _ => hended, hpred, hres⟩
  · exact ⟨hcap, halive, hjoin, hpred, hres⟩

/-- R343, R344: what the orchestrator seeds satisfies the invariant: every stage runs, and nothing has been written. -/
theorem stageInv_of_seeded {all : List Stage} (h : ∀ st ∈ all, ∃ prog q, st = seededStage prog q) {i : Nat} {st : Stage}
    (hi : all[i]? = some st) : StageInv all none i st := by
  obtain ⟨prog, q, rfl⟩ := h st (List.mem_of_getElem? hi)
  refine ⟨⟨none, rfl⟩, rfl, nofun, fun pred hp => ?_, fun _ _ _ => rfl⟩
  obtain ⟨prog', q', rfl⟩ := h pred (List.mem_of_getElem? hp)
  rfl

theorem finishJob_job_ne_ring (r : JobResult) (s : State) : (finishJob r s).job ≠ .ring := by
  rcases finishJob_job r s with h | h <;> rw [h] <;> nofun

/-- R404: a launch establishes the invariant, and a refused one leaves no ring. -/
theorem launchRing_ringInv (phases : List Word) (s : State) : (launchRing phases s).RingInv := by
  unfold launchRing
  split
  · exact State.ringInv_of_job_ne (finishJob_job_ne_ring _ _)
  · split
    · exact State.ringInv_of_job_ne (finishJob_job_ne_ring _ _)
    · next p0 rest =>
      refine State.RingInv.nextTurn fun _ i st hi => stageInv_of_seeded (fun st hst => ?_) hi
      simp only [State.stages, List.nil_append, List.mem_cons, List.mem_map] at hst
      obtain rfl | ⟨p, -, rfl⟩ := hst
      · exact ⟨_, _, rfl⟩
      · exact ⟨_, _, rfl⟩

theorem chainFrom_job_ne_ring (i : Nat) (signal : Word) (phases : List Word) (s : State) :
    (chainFrom i signal phases s).job ≠ .ring := by
  unfold chainFrom
  split
  · exact finishJob_job_ne_ring _ _
  · nofun

theorem chainNext_job_ne_ring (i : Nat) (rest : List Word) (s : State) : (chainNext i rest s).job ≠ .ring := by
  unfold chainNext
  split
  · exact chainFrom_job_ne_ring _ _ _ _
  · exact finishJob_job_ne_ring _ _

theorem nextEvaluation_job_ne_ring (s : State) : (nextEvaluation s).job ≠ .ring := by
  unfold nextEvaluation
  split
  · nofun
  · split <;> dsimp only <;> split <;> nofun

/-- R404: outside a ring the host makes a ring only by a launch. -/
theorem nextMove_host_outside_ring {s t : State} (hj : s.job ≠ .ring) (h : nextMove s = .host t) :
    (∃ phases, t = launchRing phases s) ∨ t.job ≠ .ring := by
  unfold nextMove at h
  split at h
  · split at h <;> cases h
    exact .inr hj
  · cases h
    exact .inl ⟨_, rfl⟩
  · next hring => exact absurd hring hj
  · cases h
    exact .inr (chainFrom_job_ne_ring _ _ _ _)
  · split at h <;> cases h
    · exact .inr (chainNext_job_ne_ring _ _ _)
    · exact .inr (finishJob_job_ne_ring _ _)
  · cases h
    exact .inr (nextEvaluation_job_ne_ring s)
  · split at h <;> cases h <;> exact .inr hj

theorem afterTurn_of_job_ne {s : State} (hj : s.job ≠ .ring) : afterTurn s = s := by
  unfold afterTurn
  split
  · next h => exact absurd h hj
  all_goals rfl

/-- Outside a ring a step either launches one, or leaves none. -/
theorem step_outside_ring {s t : State} (hj : s.job ≠ .ring) (hx : step s = .next t) :
    (∃ phases, t = launchRing phases s) ∨ t.job ≠ .ring := by
  cases h : nextMove s with
  | executor =>
    obtain ⟨u, hs, hu⟩ := step_of_executor h
    obtain ⟨-, -, huj, -⟩ := hs.sameJob
    have hne : u.job ≠ .ring := huj ▸ hj
    rw [hu, afterTurn_of_job_ne hne, Host.Outcome.next.injEq] at hx
    exact .inr (hx ▸ hne)
  | host u =>
    rw [step_of_host h, Host.Outcome.next.injEq] at hx
    exact hx ▸ nextMove_host_outside_ring hj h
  | stop f =>
    rw [step_of_stop h] at hx
    cases hx

/-- Settles O54: a turn of a stage, a join and a launch each keep the invariant, and every other step leaves no ring. -/
theorem stepsKeepTheRingInvariant : Obligations.StepsKeepTheRingInvariant := by
  intro s t hs hx
  by_cases hj : s.job = .ring
  · rcases ringStep_cases hj hx with ⟨-, rfl⟩ | ⟨-, hr, u, -, hshape, -, rfl⟩ | ⟨-, hr, rfl⟩
    · exact State.ringInv_of_job_ne (finishJob_job_ne_ring _ _)
    · obtain ⟨hpolicy, -⟩ := hs hj s.stageIndex s.cur s.stages_stageIndex
      exact ((hshape.turn hpolicy hr).ringInv hj hr hs).nextTurn
    · exact (hs.join hj hr).nextTurn
  · rcases step_outside_ring hj hx with ⟨phases, rfl⟩ | hne
    · exact launchRing_ringInv phases s
    · exact State.ringInv_of_job_ne hne

end Sys2Proof.Machine
end

section
/-! PROOF. The two memory primitives (R52, R53): the outcome of their checks, clause by clause, then the value, the store and the
growth of an access that passes them. A fetch at a stored cell follows (R69). -/

namespace Sys2Proof.Machine

/-! ## The checks of an access -/

theorem legalAddress_of_neg {a : Int} (h : a < 0) : legalAddress a = .error (.negativeAddress a) := if_pos h

theorem legalAddress_of_overflow {a : Int} (h : maxInt64 < a) : legalAddress a = .error (.addressOverflow a) := by
  have hpos : ¬ a < 0 := by
    simp only [maxInt64] at h
    omega
  exact (if_neg hpos).trans (if_pos h)

theorem legalAddress_of_range {a : Int} (h0 : 0 ≤ a) (h1 : a ≤ maxInt64) : legalAddress a = .ok a.toNat := by
  unfold legalAddress
  rw [if_neg (by omega), if_neg (by omega)]

theorem accessCheck_of_illegal {cfg : Config} {a : Int} {f : ExecFault} (h : legalAddress a = .error f) :
    accessCheck cfg a = .error f := by
  simp only [accessCheck, h]

/-- R56: a legal address at or above a set `MEM_LIMIT`. -/
theorem accessCheck_of_limit_le {cfg : Config} {a : Int} {limit : Nat} (h0 : 0 ≤ a) (h1 : a ≤ maxInt64)
    (hl : cfg.memLimit = some limit) (ha : (limit : Int) ≤ a) : accessCheck cfg a = .error (.memoryExhausted a) := by
  simp only [accessCheck, legalAddress_of_range h0 h1, hl]
  exact if_pos (by omega)

theorem accessCheck_natCast {cfg : Config} {n : Nat} (h : n ≤ maxAddr)
    (hl : ∀ limit : Nat, cfg.memLimit = some limit → n < limit) : accessCheck cfg (n : Int) = .ok n := by
  simp only [accessCheck, legalAddress_natCast h]
  cases hc : cfg.memLimit with
  | none => rfl
  | some limit => exact if_neg (Nat.not_le.2 (hl limit hc))

/-! ## The primitives after their checks -/

theorem memRead_of_check_error {s : State} {a : Int} {f : ExecFault} (h : accessCheck s.cfg a = .error f) :
    memRead a s = .fault f s := by
  simp only [memRead, h]

theorem memRead_of_check_ok {s : State} {a : Int} {n : Nat} (h : accessCheck s.cfg a = .ok n) :
    memRead a s = .ok (s.mem.read n) (s.setMem (s.mem.grow n)) := by
  simp only [memRead, h]

theorem memWrite_of_check_error {s : State} {a : Int} {f : ExecFault} (v : Word) (h : accessCheck s.cfg a = .error f) :
    memWrite a v s = .fault f s := by
  simp only [memWrite, h]

theorem memWrite_of_check_ok {s : State} {a : Int} {n : Nat} (v : Word) (h : accessCheck s.cfg a = .ok n) :
    memWrite a v s = .ok () (s.setMem (s.mem.write n v)) := by
  simp only [memWrite, h]

/-- R52, R53: an access at or beyond `len` grows memory up to and including its cell; one below leaves `len`. -/
theorem Memory.len_after_access (m : Memory) (n : Nat) :
    max m.len (n + 1) = if n < m.len then m.len else n + 1 := by
  split <;> omega

/-- Settles O7, by the outcome of the check in each clause and the laws of growth. -/
theorem memReadGrowsAndReads : Obligations.MemReadGrowsAndReads := by
  intro s a hwf
  refine ⟨fun h => ?_, fun h => ?_, fun h0 h1 limit hl ha => ?_, ?_⟩
  · exact memRead_of_check_error (accessCheck_of_illegal (legalAddress_of_neg h))
  · exact memRead_of_check_error (accessCheck_of_illegal (legalAddress_of_overflow h))
  · exact memRead_of_check_error (accessCheck_of_limit_le h0 h1 hl ha)
  · rintro n rfl hn hl
    exact ⟨s.mem.grow n, memRead_of_check_ok (accessCheck_natCast hn hl), Memory.wf_grow hwf hn,
      s.mem.len_after_access n, fun _ _ => rfl, fun _ hb _ => Memory.read_of_len_le hwf hb⟩

/-- Settles O8, by the outcome of the check in each clause and the laws of read after write. -/
theorem memWriteGrowsAndStores : Obligations.MemWriteGrowsAndStores := by
  intro s a v hwf
  refine ⟨fun h => ?_, fun h => ?_, fun h0 h1 limit hl ha => ?_, ?_⟩
  · exact memWrite_of_check_error v (accessCheck_of_illegal (legalAddress_of_neg h))
  · exact memWrite_of_check_error v (accessCheck_of_illegal (legalAddress_of_overflow h))
  · exact memWrite_of_check_error v (accessCheck_of_limit_le h0 h1 hl ha)
  · rintro n rfl hn hl
    refine ⟨s.mem.write n v, memWrite_of_check_ok v (accessCheck_natCast hn hl), Memory.wf_write hwf hn v,
      s.mem.len_after_access n, Memory.read_write_same hwf n v, fun b _ hne => ?_, fun b hb _ hne => ?_⟩
    · exact s.mem.read_write_other v hne
    · rw [s.mem.read_write_other v hne, Memory.read_of_len_le hwf hb]

/-! ## Fetch after store -/

theorem memWrite_ok {s t : State} {a : Int} {v : Word} (h : memWrite a v s = .ok () t) :
    ∃ n : Nat, accessCheck s.cfg a = .ok n ∧ t = s.setMem (s.mem.write n v) := by
  cases hc : accessCheck s.cfg a with
  | error f => rw [memWrite_of_check_error v hc] at h; cases h
  | ok n =>
    rw [memWrite_of_check_ok v hc] at h
    cases h
    exact ⟨n, rfl, rfl⟩

/-- A read of a cell just written grows nothing: the write has grown memory over it (R54). -/
theorem Memory.grow_write_self (m : Memory) (a : Nat) (v : Word) : (m.write a v).grow a = m.write a v := by
  simp only [Memory.grow, Memory.write, Memory.mk.injEq, true_and]
  omega

/-- Settles O12: the fetch reads the stored word (R65), and its own growth is the store's. -/
theorem fetchSeesTheStore : Obligations.FetchSeesTheStore := by
  intro s t a v hwf hw
  obtain ⟨n, hc, rfl⟩ := memWrite_ok hw
  obtain rfl : a = n := by exact_mod_cast (accessCheck_bound hc).1
  have hpeek : peek ((s.setMem (s.mem.write a v)).setPc a) (a : Int) = .ok v := by
    simp only [peek, State.setPc_cfg, State.setMem_cfg, hc, State.setPc_mem, State.setMem_mem,
      Memory.read_write_same hwf]
  rw [(fetch_ok hpeek).2]
  simp only [State.setPc_pc, State.setPc_mem, State.setMem_mem, Memory.grow_write_self, State.setPc_setMem,
    State.setMem_setMem]

end Sys2Proof.Machine
end

section
/-! PROOF. Sequences of accesses to a memory (R65, R55): an access without a write to a cell leaves it, so the most recent write
shows. -/

namespace Sys2Proof.Machine

theorem Memory.wf_access {m : Memory} (h : m.wf = true) {x : Nat × Option Word} (hx : x.1 ≤ maxAddr) :
    (m.access x).wf = true := by
  obtain ⟨b, _ | v⟩ := x
  · exact Memory.wf_grow h hx
  · exact Memory.wf_write h hx v

theorem Memory.wf_foldl_access {m : Memory} (h : m.wf = true) {xs : List (Nat × Option Word)}
    (hxs : ∀ x ∈ xs, x.1 ≤ maxAddr) : (xs.foldl Memory.access m).wf = true := by
  induction xs generalizing m with
  | nil => exact h
  | cons x xs ih =>
    obtain ⟨hx, hrest⟩ := List.forall_mem_cons.1 hxs
    exact ih (Memory.wf_access h hx) hrest

theorem Memory.read_access_of_no_write (m : Memory) {a : Nat} {x : Nat × Option Word} (h : x.1 = a → x.2 = none) :
    (m.access x).read a = m.read a := by
  obtain ⟨b, _ | v⟩ := x
  · rfl
  · exact m.read_write_other v fun e => nomatch h e.symm

theorem Memory.read_foldl_access_of_no_write (m : Memory) {a : Nat} {xs : List (Nat × Option Word)}
    (h : ∀ x ∈ xs, x.1 = a → x.2 = none) : (xs.foldl Memory.access m).read a = m.read a := by
  induction xs generalizing m with
  | nil => rfl
  | cons x xs ih =>
    obtain ⟨hx, hrest⟩ := List.forall_mem_cons.1 h
    exact (ih (m.access x) hrest).trans (m.read_access_of_no_write hx)

/-- Settles O9: the accesses after the last write leave the cell, and the memory that write finds is in canonical form. -/
theorem mostRecentWriteIsRead : Obligations.MostRecentWriteIsRead := by
  intro prog xs a hprog hxs
  constructor
  · intro hnone
    rw [Memory.read_foldl_access_of_no_write _ hnone, Memory.read_ofProgram]
  · rintro before after v rfl hafter
    obtain ⟨hbefore, -⟩ := List.forall_mem_append.1 hxs
    rw [List.foldl_append, List.foldl_cons, Memory.read_foldl_access_of_no_write _ hafter]
    exact Memory.read_write_same (Memory.wf_foldl_access (Memory.wf_ofProgram prog hprog) hbefore) a v

end Sys2Proof.Machine
end

section
/-! PROOF. The memory a step of an executor leaves (R54): not shorter than before, and in canonical form if it was. -/

namespace Sys2Proof.Machine

theorem Memory.Onward.refl (m : Memory) : m.Onward m := ⟨Nat.le_refl _, id⟩

theorem Memory.Onward.trans {a b c : Memory} (h : a.Onward b) (h' : b.Onward c) : a.Onward c :=
  ⟨Nat.le_trans h.1 h'.1, fun hw => h'.2 (h.2 hw)⟩

@[simp] theorem enterHalted_mem (s : State) : (enterHalted s).mem = s.mem := by
  simp only [State.mem, enterHalted_exe]

theorem ExecShape.mem_onward {i : Instr} {s t : State} (h : ExecShape i s t) : s.mem.Onward t.mem := by
  cases h with
  | completes s1 m rb pc called mem hpc hrb => exact mem
  | faults s1 m f called mem => simpa using mem.onward
  | halts hi => simpa using Memory.Onward.refl s.mem
  | held m hi hb => exact .refl s.mem

theorem StepShape.mem_onward {s t : State} (h : StepShape s t) : s.mem.Onward t.mem := by
  have hcheck : (capShouldHalt s).2.mem = s.mem := congrArg Executor.mem (capShouldHalt_exe s)
  cases h with
  | halts h => simpa [hcheck] using Memory.Onward.refl s.mem
  | held h hw => exact .refl s.mem
  | fetchFaults f m h hw hm => simpa using hm.onward
  | executes w i t h hw hp hd hb hx => exact (Memory.grown_grow s.mem hb).onward.trans (exec_shape hx).mem_onward

/-- Settles O11, by the shapes of an executor's step; reads and writes have their length from one rule. -/
theorem growthIsMonotonic : Obligations.GrowthIsMonotonic := by
  refine ⟨fun s t h => ?_, fun _ _ _ => rfl⟩
  obtain ⟨hlen, -⟩ := (executorStep_shape h).mem_onward
  exact hlen

end Sys2Proof.Machine
end

section
/-! PROOF. The address of a destination (R57, R115). -/

namespace Sys2Proof.Machine

theorem operandAddress_of_param {k : Nat} {m : Mode} {s : State} {p : Word}
    (h : peek s ((s.pc + k : Nat) : Int) = .ok p) : operandAddress k m s = effectiveAddress k m p s.rb := by
  simp only [operandAddress, h]

/-- Settles O14: the address is the checked exact sum; a parameter word alone is never above the address range. -/
theorem destinationAddresses : Obligations.DestinationAddresses := by
  refine ⟨fun k p rb => ?_, fun k m s p => operandAddress_of_param, fun k m s d h => ?_, fun k m s f h => ?_⟩
  · exact ⟨legalAddress_of_neg, fun h => legalAddress_of_range h p.property.2, legalAddress_of_neg,
      legalAddress_of_overflow, legalAddress_of_range⟩
  · obtain ⟨-, -, hok⟩ := destOperand_ok h
    exact hok
  · obtain ⟨mem, ⟨hcells, hlen, -⟩, hfault⟩ := destOperand_error h
    exact ⟨mem, hfault, hcells, hlen⟩

end Sys2Proof.Machine
end

section
/-! PROOF. What the decoder inspects (R87), and its outcome on a canonical word in terms of the instruction the tuple stands for
(R94). The round trip, the unused slots (R88) and the order of the checks (R90) follow. -/

namespace Sys2Proof

/-! ## High digits -/

/-- R87: what the decoder inspects are the digits below 10^5. -/
theorem decodeNat_add_high (n hi : Nat) : decodeNat (n + 100000 * hi) = decodeNat n := by
  have h0 : (n + 100000 * hi) % 100 = n % 100 := by omega
  have h2 : digit 2 (n + 100000 * hi) = digit 2 n := by simp only [digit]; omega
  have h3 : digit 3 (n + 100000 * hi) = digit 3 n := by simp only [digit]; omega
  have h4 : digit 4 (n + 100000 * hi) = digit 4 n := by simp only [digit]; omega
  simp only [decodeNat, h0, h2, h3, h4]

theorem decodeFields_add_high {w w' : Word} {hi : Nat} (hw : 0 ≤ w.val) (hw' : w'.val = w.val + 100000 * hi) :
    decodeFields w' = decodeFields w := by
  obtain ⟨n, hn⟩ := Int.eq_ofNat_of_zero_le hw
  have hn' : w'.val = ((n + 100000 * hi : Nat) : Int) := by
    rw [hw', hn]
    simp
  rw [decodeFields_natCast hn', decodeFields_natCast hn, decodeNat_add_high]

/-- Settles O3: the opcode and the three mode digits are the same, and both words pass the check for a negative word. -/
theorem highDigitsAreIgnored : Obligations.HighDigitsAreIgnored :=
  ⟨fun _ _ _ => decodeFields_add_high, by decide⟩

/-! ## Canonical words -/

theorem checkDest_of_legal {d : Decoded} (h : d.legalDest = true) : checkDest d = .ok d := if_pos h

theorem decode_of_fields_error {w : Word} {f : ExecFault} (h : decodeFields w = .error f) : decode w = .error f := by
  simp only [decode, h]

theorem decodeFields_canonicalWord (d : Decoded) : decodeFields d.canonicalWord = checkDest d :=
  (decodeFields_natCast rfl).trans (decodeNat_canonicalNat d 0)

/-- R88, R94: what a canonical word decodes to depends only on the tuple's instruction and its opcode. -/
theorem decode_canonicalWord (d : Decoded) :
    decode d.canonicalWord = if d.toInstr.wellFormed then .ok d.toInstr
      else .error (.illegalWriteMode (if d.op.destSlot = some 3 then 3 else 1)) := by
  have hf := decodeFields_canonicalWord d
  unfold checkDest at hf
  rw [d.wellFormed_toInstr]
  split at hf
  · next hd => rw [decode_of_fields hf, if_pos hd]
  · next hd => rw [decode_of_fields_error hf, if_neg hd]

theorem decode_canonical_add_high {d : Decoded} {w : Word} {hi : Nat} (h : w.val = d.canonicalWord.val + 100000 * hi) :
    decode w = decode d.canonicalWord := by
  simp only [decode, decodeFields_add_high (Int.natCast_nonneg d.canonicalNat) h]

@[simp] theorem Instr.toInstr_toDecoded (i : Instr) : i.toDecoded.toInstr = i := by cases i <;> rfl

/-- R89, R94: the round trip holds for the well-formed instructions and for no other. -/
theorem decode_encode_iff (i : Instr) : decode (encode i) = .ok i ↔ i.wellFormed = true := by
  rw [encode, decode_canonicalWord, Instr.toInstr_toDecoded]
  split
  · next h => simp [h]
  · next h => simp [h]

/-- Encoding what a word decodes to gives the word back exactly when the word is canonical (R94). -/
theorem encode_eq_iff_canonical {w : Word} {i : Instr} (h : decode w = .ok i) :
    encode i = w ↔ ∃ j : Instr, j.wellFormed = true ∧ encode j = w := by
  constructor
  · rintro rfl
    exact ⟨i, (decode_encode_iff i).1 h, rfl⟩
  · rintro ⟨j, hj, rfl⟩
    rw [(decode_encode_iff j).2 hj] at h
    cases h
    rfl

/-- Settles O1, by the outcome of the decoder on a canonical word; 99 and 199 are two words of HALT. -/
theorem canonicalWordsDecodeBack : Obligations.CanonicalWordsDecodeBack := by
  refine ⟨fun d => ?_, ⟨rfl, rfl, rfl⟩, fun d hd => ?_, fun i => (decode_encode_iff i).2, ?_,
    ⟨word 99, word 199, .halt, by decide⟩, fun _ _ => encode_eq_iff_canonical⟩
  · simp [Decoded.canonicalWord, Decoded.canonicalNat]
  · rw [decodeFields_canonicalWord, checkDest_of_legal hd]
  · rintro i d w hi hwf rfl hw
    rw [decode_canonical_add_high hw, decode_canonicalWord, if_pos hwf]

/-! ## The mode digits and the unused slots -/

theorem Mode.exists_toDigit_eq {d : Nat} (h : d ≤ 2) : ∃ m : Mode, m.toDigit = d := by
  interval_cases d
  · exact ⟨.pos, rfl⟩
  · exact ⟨.imm, rfl⟩
  · exact ⟨.rel, rfl⟩

/-- R90 past the checks of the opcode and of the mode digits. -/
theorem decodeNat_of_modes {n : Nat} {d : Decoded} (h : d.op.toNat = n % 100) (h1 : d.m1.toDigit = digit 2 n)
    (h2 : d.m2.toDigit = digit 3 n) (h3 : d.m3.toDigit = digit 4 n) : decodeNat n = checkDest d := by
  simp only [decodeNat, ← h, Opcode.ofNat?_toNat, slotMode_ok h1, slotMode_ok h2, slotMode_ok h3]

/-! R86: the first slot with a digit above 2 is reported, whether or not the opcode uses it. -/

theorem decodeNat_illegal_slot1 {n : Nat} {op : Opcode} (h : op.toNat = n % 100) (h1 : 2 < digit 2 n) :
    decodeNat n = .error (.illegalModeDigit 1 (digit 2 n)) := by
  simp only [decodeNat, ← h, Opcode.ofNat?_toNat, slotMode_error h1]

theorem decodeNat_illegal_slot2 {n : Nat} {op : Opcode} (h : op.toNat = n % 100) (h1 : digit 2 n ≤ 2)
    (h2 : 2 < digit 3 n) : decodeNat n = .error (.illegalModeDigit 2 (digit 3 n)) := by
  obtain ⟨m1, hm1⟩ := Mode.exists_toDigit_eq h1
  simp only [decodeNat, ← h, Opcode.ofNat?_toNat, slotMode_ok hm1, slotMode_error h2]

theorem decodeNat_illegal_slot3 {n : Nat} {op : Opcode} (h : op.toNat = n % 100) (h1 : digit 2 n ≤ 2)
    (h2 : digit 3 n ≤ 2) (h3 : 2 < digit 4 n) : decodeNat n = .error (.illegalModeDigit 3 (digit 4 n)) := by
  obtain ⟨m1, hm1⟩ := Mode.exists_toDigit_eq h1
  obtain ⟨m2, hm2⟩ := Mode.exists_toDigit_eq h2
  simp only [decodeNat, ← h, Opcode.ofNat?_toNat, slotMode_ok hm1, slotMode_ok hm2, slotMode_error h3]

theorem decodeNat_illegal_digit {n k : Nat} {op : Opcode} (h : op.toNat = n % 100) (h1 : 1 ≤ k) (h3 : k ≤ 3)
    (hlow : ∀ j, 1 ≤ j → j < k → digit (j + 1) n ≤ 2) (hk : 2 < digit (k + 1) n) :
    decodeNat n = .error (.illegalModeDigit k (digit (k + 1) n)) := by
  obtain rfl | rfl | rfl : k = 1 ∨ k = 2 ∨ k = 3 := by omega
  · exact decodeNat_illegal_slot1 h hk
  · exact decodeNat_illegal_slot2 h (hlow 1 (by decide) (by decide)) hk
  · exact decodeNat_illegal_slot3 h (hlow 1 (by decide) (by decide)) (hlow 2 (by decide) (by decide)) hk

/-- R88: the instruction keeps the modes of the slots its opcode uses, and no others. -/
theorem Decoded.toInstr_congr {d e : Decoded} (h : d.op = e.op) (h1 : 1 ≤ d.op.params → d.m1 = e.m1)
    (h2 : 2 ≤ d.op.params → d.m2 = e.m2) (h3 : 3 ≤ d.op.params → d.m3 = e.m3) : d.toInstr = e.toInstr := by
  obtain ⟨op, m1, m2, m3⟩ := d
  obtain ⟨op', m1', m2', m3'⟩ := e
  obtain rfl : op = op' := h
  cases op <;> simp_all [Decoded.toInstr, Opcode.params]

/-- Settles O4: canonical words decode by the instruction of their tuple, and the digits are checked slot by slot. -/
theorem unusedSlotsAreCheckedThenIgnored : Obligations.UnusedSlotsAreCheckedThenIgnored := by
  refine ⟨fun d e h h1 h2 h3 => ?_, fun w n k op hw hop hk hk3 hlow hd => ?_, by decide⟩
  · rw [decode_canonicalWord, decode_canonicalWord, Decoded.toInstr_congr h h1 h2 h3, h]
  · apply decode_of_fields_error
    rw [decodeFields_natCast hw, decodeNat_illegal_digit hop (by omega) hk3 hlow hd]

/-! ## The order of the checks -/

theorem Opcode.toNat_mem (op : Opcode) : op.toNat ∈ [1, 2, 3, 4, 5, 6, 7, 8, 9, 99] := by cases op <;> decide

/-- R92: a number outside the ten is no opcode. -/
theorem Opcode.ofNat?_none {n : Nat} (h : n ∉ [1, 2, 3, 4, 5, 6, 7, 8, 9, 99]) : Opcode.ofNat? n = none := by
  cases hop : Opcode.ofNat? n with
  | none => rfl
  | some op => exact absurd (Opcode.toNat_of_ofNat? hop ▸ op.toNat_mem) h

theorem decodeNat_unknown {n : Nat} (h : n % 100 ∉ [1, 2, 3, 4, 5, 6, 7, 8, 9, 99]) :
    decodeNat n = .error (.unknownOpcode (n % 100 : Nat)) := by
  simp only [decodeNat, Opcode.ofNat?_none h]

theorem Opcode.destSlot_eq_three_iff (op : Opcode) : op.destSlot = some 3 ↔ op.toNat ∈ [1, 2, 7, 8] := by
  cases op <;> decide

theorem Opcode.destSlot_eq_one_iff (op : Opcode) : op.destSlot = some 1 ↔ op.toNat = 3 := by cases op <;> decide

theorem Mode.legalDest_iff (m : Mode) : m.legalDest = true ↔ m ≠ .imm := by cases m <;> decide

/-- R89 in the words of R90: no destination slot, 3 or 1, is Immediate. -/
theorem Decoded.legalDest_iff (d : Decoded) :
    d.legalDest = true ↔ (d.op.destSlot = some 3 → d.m3 ≠ .imm) ∧ (d.op.destSlot = some 1 → d.m1 ≠ .imm) := by
  rw [← Mode.legalDest_iff, ← Mode.legalDest_iff]
  obtain ⟨op, m1, m2, m3⟩ := d
  cases op <;> simp [Decoded.legalDest, Opcode.destSlot]

theorem checkDest_slot3 {d : Decoded} (h : d.op.destSlot = some 3) (hm : d.m3 = .imm) :
    checkDest d = .error (.illegalWriteMode 3) := by
  rw [checkDest, if_neg fun hl => (d.legalDest_iff.1 hl).1 h hm, if_pos h]

theorem checkDest_slot1 {d : Decoded} (h : d.op.destSlot = some 1) (hm : d.m1 = .imm) :
    checkDest d = .error (.illegalWriteMode 1) := by
  rw [checkDest, if_neg fun hl => (d.legalDest_iff.1 hl).2 h hm, if_neg (by simp [h])]

/-- Settles O2: one clause for each check of R90, in its order, and the last for a word that passes them all. -/
theorem decoderChecksInOrder : Obligations.DecoderChecksInOrder := by
  refine fun w => ⟨fun hneg => if_pos hneg, fun n hw => ?_⟩
  rw [decodeFields_natCast hw]
  refine ⟨decodeNat_unknown, fun op hop => ⟨decodeNat_illegal_slot1 hop, decodeNat_illegal_slot2 hop,
    decodeNat_illegal_slot3 hop, fun m1 m2 m3 e1 e2 e3 => ?_⟩⟩
  rw [decodeNat_of_modes (d := ⟨op, m1, m2, m3⟩) hop e1 e2 e3, ← op.destSlot_eq_three_iff, ← op.destSlot_eq_one_iff]
  exact ⟨checkDest_slot3 (d := ⟨op, m1, m2, m3⟩), checkDest_slot1 (d := ⟨op, m1, m2, m3⟩),
    fun h3 h1 => checkDest_of_legal ((Decoded.legalDest_iff _).2 ⟨h3, h1⟩)⟩

/-- Settles O5: each word is decoded by the decoder itself. -/
theorem specWordsDecode : Obligations.SpecWordsDecode := by
  unfold Obligations.SpecWordsDecode
  decide

end Sys2Proof
end

section
/-! PROOF. The words of an assembled instruction line (R99). -/

namespace Sys2Proof

theorem Decoded.opcode_toInstr (d : Decoded) : d.toInstr.opcode = d.op := by
  obtain ⟨op, m1, m2, m3⟩ := d
  cases op <;> rfl

/-- R82: "The number of parameters equals the length minus 1." -/
theorem Opcode.length_eq_params_add_one (o : Opcode) : o.length = o.params + 1 := by cases o <;> rfl

end Sys2Proof

namespace Sys2Proof.Machine

/-- The tuple a line's opcode and operands stand for; a slot with no operand is Position (R85). -/
def lineTuple (o : Opcode) (operands : List AsmOperand) : Decoded where
  op := o
  m1 := ((operands[0]?).map AsmOperand.mode).getD .pos
  m2 := ((operands[1]?).map AsmOperand.mode).getD .pos
  m3 := ((operands[2]?).map AsmOperand.mode).getD .pos

theorem encodeOp_some {table : List (Nat × Nat)} {o : Opcode} {operands : List AsmOperand} {ws : List Word}
    (h : encodeOp table o operands = some ws) :
    operands.length = o.params ∧ (lineTuple o operands).legalDest = true ∧
      ∃ ps, paramWords table operands = some ps ∧ ws = (lineTuple o operands).canonicalWord :: ps := by
  simp only [encodeOp] at h
  split at h
  · next hline =>
    obtain ⟨hlen, hdest⟩ := hline
    split at h
    · next ps hps =>
      cases h
      exact ⟨hlen, hdest, ps, hps, rfl⟩
    · cases h
  · cases h

theorem paramWords_length {table : List (Nat × Nat)} {operands : List AsmOperand} {ps : List Word}
    (h : paramWords table operands = some ps) : ps.length = operands.length := by
  induction operands generalizing ps with
  | nil =>
    cases h
    rfl
  | cons x rest ih =>
    unfold paramWords at h
    split at h
    · next w more hw hmore =>
      cases h
      exact congrArg (· + 1) (ih hmore)
    · cases h
    · cases h

/-- R99: slot `k + 1` of a line's tuple holds the mode of operand `k`. -/
theorem lineTuple_mode {o : Opcode} {operands : List AsmOperand} {k : Nat} {x : AsmOperand} (h : operands[k]? = some x) :
    (k = 0 → (lineTuple o operands).m1 = x.mode) ∧ (k = 1 → (lineTuple o operands).m2 = x.mode) ∧
      (k = 2 → (lineTuple o operands).m3 = x.mode) := by
  refine ⟨?_, ?_, ?_⟩ <;> rintro rfl <;> simp [lineTuple, h]

/-- Settles O6: the instruction word is the canonical word of the line's tuple, which has a legal destination. -/
theorem assembledLinesDecode : Obligations.AssembledLinesDecode := by
  refine ⟨fun table o operands ws h => ?_, by decide⟩
  obtain ⟨hlen, hdest, ps, hps, rfl⟩ := encodeOp_some h
  have hfields : decodeFields (lineTuple o operands).canonicalWord = .ok (lineTuple o operands) :=
    (decodeFields_canonicalWord _).trans (checkDest_of_legal hdest)
  have hparams : ps.length = o.params := (paramWords_length hps).trans hlen
  exact ⟨_, ps, (lineTuple o operands).toInstr, rfl, decode_of_fields hfields, Decoded.opcode_toInstr _,
    (Decoded.wellFormed_toInstr _).trans hdest, hparams, by rw [Opcode.length_eq_params_add_one, ← hparams]; rfl,
    fun k x hx => ⟨_, hfields, lineTuple_mode hx⟩⟩

end Sys2Proof.Machine
end

section
/-! PROOF. The step of an executor, outcome by outcome (R110, R111, R119, R123, R125): one equation for a true should_halt check, for
a step that is held, for a word that cannot be fetched or does not decode, and for the instruction a word decodes to. -/

namespace Sys2Proof.Machine

/-! ## The check leaves what the fetch reads -/

theorem peek_congr {s t : State} (he : t.cur.exe = s.cur.exe) (hg : t.cfg = s.cfg) (a : Int) : peek t a = peek s a := by
  simp only [peek, State.mem, he, hg]

theorem capShouldHalt_peek (s : State) (a : Int) : peek (capShouldHalt s).2 a = peek s a := by
  obtain ⟨hcfg, -⟩ := capShouldHalt_sameJob s
  exact peek_congr (capShouldHalt_exe s) hcfg a

@[simp] theorem capShouldHalt_mem (s : State) : (capShouldHalt s).2.mem = s.mem := congrArg Executor.mem (capShouldHalt_exe s)
@[simp] theorem capShouldHalt_pc (s : State) : (capShouldHalt s).2.pc = s.pc := congrArg Executor.pc (capShouldHalt_exe s)
@[simp] theorem capShouldHalt_rb (s : State) : (capShouldHalt s).2.rb = s.rb := congrArg Executor.rb (capShouldHalt_exe s)
@[simp] theorem capShouldHalt_run (s : State) : (capShouldHalt s).2.run = s.run := congrArg Executor.run (capShouldHalt_exe s)
@[simp] theorem capShouldHalt_finished (s : State) : (capShouldHalt s).2.finished = s.finished :=
  congrArg Executor.finished (capShouldHalt_exe s)

/-! ## One equation for each outcome -/

/-- R110: a true check halts the run. -/
theorem executorStep_of_halt {s : State} (h : (capShouldHalt s).1 = true) :
    executorStep s = .next (enterHalted (capShouldHalt s).2) := by
  simp [executorStep, beginStep, h]

/-- R125: a step that waits is not taken. -/
theorem executorStep_of_waits {s : State} (h : (capShouldHalt s).1 = false) (hw : waits (capShouldHalt s).2 = true) :
    executorStep s = .next s := by
  simp [executorStep, beginStep, h, hw]

/-- R111, R119: the instruction at `pc` is executed. -/
theorem executorStep_of_decode {s : State} {w : Word} {i : Instr} (h : (capShouldHalt s).1 = false)
    (hw : waits (capShouldHalt s).2 = false) (hp : peek s (s.pc : Int) = .ok w) (hd : decode w = .ok i) :
    executorStep s = exec i ((capShouldHalt s).2.setMem (s.mem.grow s.pc)) := by
  obtain ⟨-, hf⟩ := fetch_ok (s := (capShouldHalt s).2) (by rwa [capShouldHalt_peek, capShouldHalt_pc])
  rw [hd, capShouldHalt_mem, capShouldHalt_pc] at hf
  simp [executorStep, beginStep, h, hw, hf, attempt]

/-- An executor whose word at `pc` is no instruction does not wait. -/
theorem waits_of_illegal {s : State} (h : ∀ w i, peek s (s.pc : Int) = .ok w → decode w ≠ .ok i) : waits s = false := by
  rw [← Bool.not_eq_true, waits_iff]
  rintro ⟨w, m, d, hp, hd, -⟩
  exact h w _ hp hd

theorem executorStep_of_fetch_fault {s s' : State} {f : ExecFault} (h : (capShouldHalt s).1 = false)
    (hill : ∀ w i, peek s (s.pc : Int) = .ok w → decode w ≠ .ok i) (hf : fetch (capShouldHalt s).2 = .fault f s') :
    executorStep s = .next (enterFaulted f s') := by
  have hw : waits (capShouldHalt s).2 = false :=
    waits_of_illegal fun w i hp => hill w i (by rwa [capShouldHalt_peek, capShouldHalt_pc] at hp)
  simp [executorStep, beginStep, h, hw, hf]

/-- R111, R123: a word that cannot be fetched ends the run. -/
theorem executorStep_of_peek_error {s : State} {f : ExecFault} (h : (capShouldHalt s).1 = false)
    (hp : peek s (s.pc : Int) = .error f) : executorStep s = .next (enterFaulted f (capShouldHalt s).2) := by
  refine executorStep_of_fetch_fault h (fun w i hw => ?_) (fetch_error ?_)
  · rw [hp] at hw
    cases hw
  · rwa [capShouldHalt_peek, capShouldHalt_pc]

/-- R111, R123: so does a word that does not decode; memory has grown to it. -/
theorem executorStep_of_decode_error {s : State} {w : Word} {f : ExecFault} (h : (capShouldHalt s).1 = false)
    (hp : peek s (s.pc : Int) = .ok w) (hd : decode w = .error f) :
    executorStep s = .next (enterFaulted f ((capShouldHalt s).2.setMem (s.mem.grow s.pc))) := by
  obtain ⟨-, hf⟩ := fetch_ok (s := (capShouldHalt s).2) (by rwa [capShouldHalt_peek, capShouldHalt_pc])
  rw [hd, capShouldHalt_mem, capShouldHalt_pc] at hf
  refine executorStep_of_fetch_fault h (fun w' i hw' hd' => ?_) hf
  rw [hp, Except.ok.injEq] at hw'
  rw [← hw', hd] at hd'
  cases hd'

/-- R111, R123: in both cases the fault is taken over a memory that has grown at most. -/
theorem executorStep_of_illegal {s : State} {f : ExecFault} (h : (capShouldHalt s).1 = false)
    (hill : peek s (s.pc : Int) = .error f ∨ ∃ w, peek s (s.pc : Int) = .ok w ∧ decode w = .error f) :
    ∃ m, s.mem.Grown m ∧ executorStep s = .next (enterFaulted f ((capShouldHalt s).2.setMem m)) := by
  rcases hill with hp | ⟨w, hp, hd⟩
  · exact ⟨(capShouldHalt s).2.mem, by simpa using Memory.Grown.refl s.mem, executorStep_of_peek_error h hp⟩
  · obtain ⟨n, hn, hb, -⟩ := memRead_peek_ok hp
    exact ⟨_, Memory.grown_grow s.mem (by omega), executorStep_of_decode_error h hp hd⟩

/-! ## The Halted transition of the executor (R120) -/

@[simp] theorem enterHalted_run (s : State) : (enterHalted s).run = .halted := by
  simp only [State.run, enterHalted_exe]
@[simp] theorem enterHalted_finished (s : State) : (enterHalted s).finished = true := by
  simp only [State.finished, enterHalted_exe]
@[simp] theorem enterHalted_pc (s : State) : (enterHalted s).pc = s.pc := by
  simp only [State.pc, enterHalted_exe]
@[simp] theorem enterHalted_rb (s : State) : (enterHalted s).rb = s.rb := by
  simp only [State.rb, enterHalted_exe]

/-! ## The step of the machine -/

theorem step_of_executorStep {s t : State} (hr : s.run = .running) (hx : executorStep s = .next t) :
    (s.job = .run ∨ (∃ k sig rest, s.job = .chain k sig rest) → step s = .next t) ∧
      (s.job = .ring → step s = .next t.nextTurn) :=
  ⟨fun hj => (step_eq_executorStep hj hr).trans hx, fun hj => by rw [step_ring_running hj hr, hx, thenNext]⟩

/-- Settles O39, by the equation for a word that decodes. -/
theorem stepRunsTheDecodedInstruction : Obligations.StepRunsTheDecodedInstruction := by
  intro s s1 w i hr hc hw hp hd
  obtain ⟨hno, rfl⟩ : (capShouldHalt s).1 = false ∧ (capShouldHalt s).2 = s1 := Prod.mk.inj hc
  have hx := executorStep_of_decode hno hw hp hd
  exact ⟨fun hj => (step_eq_executorStep hj hr).trans hx, fun hj => by rw [step_ring_running hj hr, hx]⟩

/-- Settles O40: one equation of the step for each outcome of the check, of the fetch and of the decode. -/
theorem shouldHaltComesFirst : Obligations.ShouldHaltComesFirst := by
  refine ⟨fun s s1 hr hc => ?_, fun s s1 hr hc hw => ⟨fun f hp => ?_, fun w hp => ?_⟩,
    fun s hr => ⟨fun hj => step_eq_executorStep hj hr, fun hj => step_ring_running hj hr⟩,
    fun s hj => ⟨fun hr => step_of_host (nextMove_run_halted hj hr), fun f pc hr t => ?_⟩⟩
  · exact ⟨_, executorStep_of_halt (congrArg Prod.fst hc), by simp⟩
  · obtain ⟨-, -, hjob, -⟩ := (capShouldHalt_sameJob s).trans (enterFaulted_sameJob f _)
    exact ⟨_, executorStep_of_peek_error (congrArg Prod.fst hc) hp, by simp, hjob⟩
  · obtain ⟨hno, rfl⟩ : (capShouldHalt s).1 = false ∧ (capShouldHalt s).2 = s1 := Prod.mk.inj hc
    cases hd : decode w with
    | ok i => exact executorStep_of_decode hno hw hp hd
    | error f => exact executorStep_of_decode_error hno hp hd
  · rw [step_of_stop (nextMove_run_faulted hj hr)]
    nofun

theorem nextMove_chain_faulted {s : State} {k : Nat} {sig : Word} {rest : List Word} {f : ExecFault} {pc : Nat}
    (hj : s.job = .chain k sig rest) (hr : s.run = .faulted f pc) :
    nextMove s = .host (finishJob (.fault (.executor f pc)) s) := by
  simp only [nextMove, hj, hr]

/-- Settles O42: the step is the Faulted transition over a memory that has only grown; what follows it is the move the machine makes
for a Faulted run, and in a ring the choice of the next stage, which changes no stage. -/
theorem illegalWordsEndTheRun : Obligations.IllegalWordsEndTheRun := by
  intro s s1 f hr hc hill
  obtain ⟨hno, rfl⟩ : (capShouldHalt s).1 = false ∧ (capShouldHalt s).2 = s1 := Prod.mk.inj hc
  obtain ⟨m, hm, hx⟩ := executorStep_of_illegal hno hill
  obtain ⟨alone, ring⟩ := step_of_executorStep hr hx
  have hshape := executorStep_shape hx
  obtain ⟨-, -, hjob, -⟩ := hshape.sameJob
  generalize ht : enterFaulted f ((capShouldHalt s).2.setMem m) = t at *
  have hrun : t.run = .faulted f s.pc := by simp [← ht]
  have hcap : t.cur.cap = (capShouldHalt s).2.cur.cap := by simp [← ht]
  have hpc : t.pc = s.pc := by simp [← ht]
  refine ⟨t, hx, hrun, ⟨hpc, by simp [← ht], by simp [← ht], fun a => by simp [← ht, hm.read]⟩, hcap, fun hj => ?_, ?_,
    fun hj => ?_⟩
  · exact ⟨alone (.inl hj), by simp only [observe, hrun], step_of_stop (nextMove_run_faulted (hjob.trans hj) hrun)⟩
  · rintro ⟨k, sig, rest, hj⟩
    exact ⟨alone (.inr ⟨k, sig, rest, hj⟩), _, step_of_host (nextMove_chain_faulted (hjob.trans hj) hrun),
      finishJob_fault _ _⟩
  · refine ⟨t.nextTurn, t.cur, ring hj, by rw [State.nextTurn_job, hjob, hj], ?_, ?_, hrun, hpc, hcap⟩
    · rw [State.nextTurn_stageCount, hshape.sameOthers.stageCount]
    · rw [State.nextTurn_stages, ← hshape.sameOthers.stageIndex, State.stages_stageIndex]

/-- Settles O45: cell 0 of the empty memory reads 0, which is no opcode. -/
theorem emptyProgramFaultsAtZero : Obligations.EmptyProgramFaultsAtZero := by
  have hx : executorStep State.reset =
      .next (enterFaulted (.unknownOpcode 0) (State.reset.setMem (Memory.empty.grow 0))) :=
    executorStep_of_decode_error (w := Word.zero) rfl rfl rfl
  exact ⟨_, (step_eq_executorStep (.inl rfl) rfl).trans hx, rfl, rfl, rfl, step_of_stop (nextMove_run_faulted rfl rfl)⟩

/-! ## Waiting -/

/-- R321: only buffered replay, on an empty queue, raises `InputExhausted`. -/
theorem capRead_exhausted {s : State} (h : capRead s = .exhausted) : ∃ outl, s.cur.cap = .replay [] outl := by
  unfold capRead at h
  split at h
  · cases h
  · next outl hc => exact ⟨outl, hc⟩
  · split at h <;> cases h
  · split at h <;> cases h

/-- R325, R333: under the two policies that can block, a read is blocked exactly when it has no answer. -/
theorem capRead_blocked_iff {s : State} (hc : ∀ inq outl, s.cur.cap ≠ .replay inq outl) :
    capRead s = .blocked ↔ answerOf s = none := by
  cases ha : answerOf s with
  | some v => simp [capRead_of_answer ha]
  | none =>
    rcases capRead_of_no_answer ha with hr | hr
    · simp [hr]
    · obtain ⟨outl, h⟩ := capRead_exhausted hr
      exact absurd h (hc [] outl)

/-- Settles O41: a step that waits is the identity, and waiting is a blocked read behind a legal address. -/
theorem waitingHoldsTheExecutor : Obligations.WaitingHoldsTheExecutor := by
  refine ⟨fun s hr hno hw => step_of_executorStep hr (executorStep_of_waits hno hw),
    fun s last => capShouldHalt_of_stage, fun s m w d hp hd ha hc => ?_⟩
  rw [waits_iff, ← capRead_blocked_iff hc]
  refine ⟨fun ⟨_, _, _, _, _, _, hr⟩ => hr, fun hr => ⟨w, m, d, hp, hd, ha, hr⟩⟩

end Sys2Proof.Machine
end

section
/-! PROOF. The invariant of every executor (R127): the start of a run has it, a step of an executor keeps it, and no move of the host
touches an executor but by starting one. -/

namespace Sys2Proof.Machine

/-! ## At the start of a run -/

theorem Executor.inv_start {prog : List Word} (h : prog.length ≤ maxAddr + 1) :
    (Executor.start (Memory.ofProgram prog)).inv prog :=
  ⟨Memory.wf_ofProgram prog h, Nat.zero_le _, Nat.le_refl _, by simp [Executor.start]⟩

/-- R344, R400: stages that are all at the start of a run. -/
theorem State.inv_of_started {s : State} (h : s.prog.length ≤ maxAddr + 1)
    (hs : ∀ st ∈ s.stages, ∃ cap ch, st = Stage.start s.prog cap ch) : s.Inv := by
  intro st hst
  obtain ⟨cap, ch, rfl⟩ := hs st hst
  exact Executor.inv_start h

theorem State.inv_start (cfg : Config) {prog : List Word} (cap : Capability) (job : Job)
    (h : prog.length ≤ maxAddr + 1) : (State.start cfg prog cap job).Inv := by
  refine State.inv_of_started h fun st hst => ?_
  obtain rfl : st = Stage.start prog cap (Channel.fresh []) := by simpa [State.start, State.stages] using hst
  exact ⟨cap, _, rfl⟩

/-- Settles O48: the reset state is the start of a run of the empty program (R38). -/
theorem invariantAtReset : Obligations.InvariantAtReset :=
  ⟨State.inv_start Config.standard (.replay [] []) .run (Nat.zero_le _), fun cfg _ cap job => State.inv_start cfg cap job⟩

/-! ## A step of an executor -/

theorem ExecShape.pc_le {i : Instr} {s t : State} (h : ExecShape i s t) (hs : s.pc ≤ maxAddr) : t.pc ≤ maxAddr := by
  cases h with
  | completes s1 m rb pc called mem hpc hrb => exact hpc
  | faults s1 m f called mem => simpa [State.pc, called.exe] using hs
  | halts hi => simpa using hs
  | held m hi hb => exact hs

theorem StepShape.pc_le {s t : State} (h : StepShape s t) (hs : s.pc ≤ maxAddr) : t.pc ≤ maxAddr := by
  cases h with
  | halts h => simpa using hs
  | held h hw => exact hs
  | fetchFaults f m h hw hm => simpa using hs
  | executes w i t h hw hp hd hb hx => exact (exec_shape hx).pc_le (by simpa using hs)

/-- R24, R121, R122: the latch is set by the Halted transition and by nothing else. -/
theorem ExecShape.latch {i : Instr} {s t : State} (h : ExecShape i s t) (hs : s.finished = true ↔ s.run = .halted)
    (hr : s.run = .running) : t.finished = true ↔ t.run = .halted := by
  cases h with
  | completes s1 m rb pc called mem hpc hrb => simpa [State.finished, State.run, called.exe] using hs
  | faults s1 m f called mem => simpa [State.finished, State.run, called.exe, hr] using hs
  | halts hi => simp
  | held m hi hb => exact hs

theorem StepShape.latch {s t : State} (h : StepShape s t) (hs : s.finished = true ↔ s.run = .halted)
    (hr : s.run = .running) : t.finished = true ↔ t.run = .halted := by
  cases h with
  | halts h => simp
  | held h hw => exact hs
  | fetchFaults f m h hw hm => simpa [hr] using hs
  | executes w i t h hw hp hd hb hx => exact (exec_shape hx).latch (by simpa using hs) (by simpa using hr)

theorem StepShape.executor_inv {s t : State} {prog : List Word} (h : StepShape s t) (hr : s.run = .running)
    (hs : s.cur.exe.inv prog) : t.cur.exe.inv prog := by
  obtain ⟨hwf, hpc, hlen, hlatch⟩ := hs
  obtain ⟨hlen', hwf'⟩ := h.mem_onward
  exact ⟨hwf' hwf, h.pc_le hpc, hlen.trans hlen', h.latch hlatch hr⟩

/-! ## The stages -/

/-- The invariant speaks of the executors alone. -/
theorem State.inv_iff_executors (s : State) : s.Inv ↔ ∀ e ∈ s.executors, e.1.inv s.prog := by
  simp [State.Inv, State.executors]

theorem State.Inv.of_executors {s t : State} (h : s.Inv) (he : t.executors = s.executors) (hp : t.prog = s.prog) :
    t.Inv := by
  rw [State.inv_iff_executors] at h ⊢
  rwa [he, hp]

theorem State.Inv.of_stages {s t : State} (h : s.Inv) (hst : t.stages = s.stages) (hp : t.prog = s.prog) : t.Inv :=
  h.of_executors (by simp only [State.executors, hst]) hp

theorem State.Inv.cur {s : State} (h : s.Inv) : s.cur.exe.inv s.prog := h s.cur (by simp [State.stages])

/-- R51: a state with the invariant runs a program that fits the address range. -/
theorem State.Inv.prog_length {s : State} (h : s.Inv) : s.prog.length ≤ maxAddr + 1 := by
  obtain ⟨hwf, -, hlen, -⟩ := h.cur
  exact hlen.trans ((Memory.wf_iff _).1 hwf).2

theorem mem_map_own_exe {xs ys : List Stage} (h : ys.map Stage.own = xs.map Stage.own) {st : Stage} (hst : st ∈ ys) :
    ∃ st0 ∈ xs, st0.exe = st.exe := by
  have hown : st.own ∈ xs.map Stage.own := h ▸ List.mem_map_of_mem hst
  obtain ⟨st0, h0, he⟩ := List.mem_map.1 hown
  exact ⟨st0, h0, congrArg Prod.fst he⟩

/-- A change of the stage in focus alone keeps the invariant if its executor has it. -/
theorem SameOthers.inv {s t : State} (h : SameOthers s t) (hp : t.prog = s.prog) (hs : s.Inv)
    (hcur : t.cur.exe.inv s.prog) : t.Inv := by
  obtain ⟨hbefore, hafter, -⟩ := h
  intro st hst
  rw [hp]
  simp only [State.stages, List.mem_append, List.mem_cons] at hst
  rcases hst with hst | rfl | hst
  · obtain ⟨st0, h0, he⟩ := mem_map_own_exe hbefore hst
    exact he ▸ hs st0 (by simp [State.stages, h0])
  · exact hcur
  · obtain ⟨st0, h0, he⟩ := mem_map_own_exe hafter hst
    exact he ▸ hs st0 (by simp [State.stages, h0])

theorem StepShape.inv {s t : State} (h : StepShape s t) (hr : s.run = .running) (hs : s.Inv) : t.Inv := by
  obtain ⟨-, hprog, -⟩ := h.sameJob
  exact h.sameOthers.inv hprog hs (h.executor_inv hr hs.cur)

/-! ## The moves of the host -/

@[simp] theorem finishJob_prog (r : JobResult) (s : State) : (finishJob r s).prog = s.prog := by
  unfold finishJob
  split
  · rfl
  · split <;> rfl

theorem State.Inv.finishJob {s : State} (h : s.Inv) (r : JobResult) : (finishJob r s).Inv :=
  h.of_stages (finishJob_stages r s) (finishJob_prog r s)

theorem State.Inv.nextTurn {s : State} (h : s.Inv) : s.nextTurn.Inv := h.of_stages s.nextTurn_stages s.nextTurn_prog

theorem State.Inv.afterTurn {s : State} (h : s.Inv) : (afterTurn s).Inv := by
  by_cases hj : s.job = .ring
  · simpa only [Machine.afterTurn, hj] using h.nextTurn
  · rwa [afterTurn_of_job_ne hj]

theorem State.Inv.joinStage {s : State} (h : s.Inv) : (joinStage s).Inv := h.of_executors (joinStage_executors s) rfl

theorem State.Inv.joinAll {s : State} (h : s.Inv) : (joinAll s).Inv := h.of_executors (joinAll_executors s) rfl

/-- R404, R344: a launch starts every executor, or none. -/
theorem State.Inv.launchRing {s : State} (h : s.Inv) (phases : List Word) : (launchRing phases s).Inv := by
  unfold Machine.launchRing
  split
  · exact h.finishJob _
  · split
    · exact h.finishJob _
    · next p0 rest =>
      refine State.Inv.nextTurn (State.inv_of_started h.prog_length fun st hst => ?_)
      simp only [State.stages, List.nil_append, List.mem_cons, List.mem_map] at hst
      obtain rfl | ⟨p, -, rfl⟩ := hst
      · exact ⟨_, _, rfl⟩
      · exact ⟨_, _, rfl⟩

theorem State.Inv.startRun {s : State} (h : s.Inv) (cap : Capability) : (s.startRun cap).Inv := by
  refine State.inv_of_started h.prog_length fun st hst => ?_
  obtain rfl : st = Stage.start s.prog cap (Channel.fresh []) := by simpa [State.startRun, State.stages] using hst
  exact ⟨cap, _, rfl⟩

/-- R351: the chain goes on with a fresh run, or ends. -/
theorem State.Inv.chainFrom {s : State} (h : s.Inv) (i : Nat) (signal : Word) (phases : List Word) :
    (chainFrom i signal phases s).Inv := by
  unfold Machine.chainFrom
  split
  · exact h.finishJob _
  · exact (h.startRun _).of_stages rfl rfl

theorem State.Inv.chainNext {s : State} (h : s.Inv) (i : Nat) (rest : List Word) : (chainNext i rest s).Inv := by
  unfold Machine.chainNext
  split
  · exact h.chainFrom _ _ _
  · exact h.finishJob _

theorem State.Inv.nextEvaluation {s : State} (h : s.Inv) : (nextEvaluation s).Inv := by
  unfold Machine.nextEvaluation
  split
  · exact h.of_stages rfl rfl
  · split <;> exact h.of_stages rfl rfl

theorem State.Inv.host {s t : State} (h : s.Inv) (hm : nextMove s = .host t) : t.Inv := by
  unfold nextMove at hm
  split at hm
  · split at hm <;> cases hm
    exact h
  · cases hm
    exact h.launchRing _
  · split at hm
    · cases hm
      exact h.joinAll.finishJob _
    · split at hm <;> cases hm <;> exact h.joinStage.nextTurn
  · cases hm
    exact h.chainFrom _ _ _
  · split at hm <;> cases hm
    · exact h.chainNext _ _
    · exact h.finishJob _
  · cases hm
    exact h.nextEvaluation
  · split at hm <;> cases hm <;> exact h

/-- R110, R23: an executor moves only while it is Running. -/
theorem nextMove_executor {s : State} (h : nextMove s = .executor) : s.run = .running := by
  unfold nextMove at h
  split at h
  · split at h
    · assumption
    all_goals cases h
  · cases h
  · split at h
    · cases h
    · split at h
      · assumption
      all_goals cases h
  · cases h
  · split at h
    · assumption
    all_goals cases h
  · cases h
  · split at h <;> cases h

/-- Settles O49: a move of an executor keeps the invariant of the stage in focus and of the others, and so does every move of the
host. -/
theorem stepsKeepTheInvariant : Obligations.StepsKeepTheInvariant := by
  intro s t hs hx
  cases h : nextMove s with
  | executor =>
    obtain ⟨u, hshape, hu⟩ := step_of_executor h
    rw [hu, Host.Outcome.next.injEq] at hx
    exact hx ▸ (hshape.inv (nextMove_executor h) hs).afterTurn
  | host u =>
    rw [step_of_host h, Host.Outcome.next.injEq] at hx
    exact hx ▸ hs.host h
  | stop f =>
    rw [step_of_stop h] at hx
    cases hx

end Sys2Proof.Machine
end

section
/-! PROOF. The calls a controller is told of (R121, R126): `State.callHistory` is a controller's history, and each operation appends a
list of calls to it. -/

namespace Sys2Proof.Machine

/-! ## The history of the capability in focus -/

/-- The calls a controller has had, none under another policy. -/
def State.callHistory (s : State) : Option (List CapEvent) :=
  match s.cur.cap with
  | .replay _ _ => none
  | .stage _ => none
  | .controller c => some c.history

theorem callHistory_of_controller {s : State} {c : Controller} (h : s.cur.cap = .controller c) :
    s.callHistory = some c.history := by
  simp only [State.callHistory, h]

theorem callHistory_eq_some {s : State} {calls : List CapEvent} (h : s.callHistory = some calls) :
    ∃ c, s.cur.cap = .controller c ∧ c.history = calls := by
  unfold State.callHistory at h
  split at h
  · cases h
  · cases h
  · next c hc => exact ⟨c, hc, Option.some.inj h⟩

theorem callHistory_congr {s t : State} (h : t.cur.cap = s.cur.cap) : t.callHistory = s.callHistory := by
  simp only [State.callHistory, h]

/-- `t` comes after `s` and these calls. -/
def AfterCalls (s : State) (calls : List CapEvent) (t : State) : Prop :=
  t.callHistory = s.callHistory.map (· ++ calls)

theorem AfterCalls.of_cap_eq {s t : State} (h : t.cur.cap = s.cur.cap) : AfterCalls s [] t := by
  simp [AfterCalls, callHistory_congr h]

theorem AfterCalls.trans {s t u : State} {calls more : List CapEvent} (h : AfterCalls s calls t)
    (h' : AfterCalls t more u) : AfterCalls s (calls ++ more) u := by
  unfold AfterCalls at *
  rw [h', h, Option.map_map]
  congr 1
  funext hist
  simp

theorem AfterCalls.controller {s t : State} {calls : List CapEvent} {c : Controller} (h : AfterCalls s calls t)
    (hc : s.cur.cap = .controller c) : ∃ c', t.cur.cap = .controller c' ∧ c'.history = c.history ++ calls := by
  unfold AfterCalls at h
  rw [callHistory_of_controller hc] at h
  exact callHistory_eq_some h

theorem AfterCalls.controller_before {s t : State} {calls : List CapEvent} {c' : Controller} (h : AfterCalls s calls t)
    (hc : t.cur.cap = .controller c') : ∃ c, s.cur.cap = .controller c ∧ c'.history = c.history ++ calls := by
  unfold AfterCalls at h
  rw [callHistory_of_controller hc, eq_comm, Option.map_eq_some_iff] at h
  obtain ⟨hist, hs, he⟩ := h
  obtain ⟨c, hc', rfl⟩ := callHistory_eq_some hs
  exact ⟨c, hc', he.symm⟩

/-! ## The calls of each operation -/

/-- R126, R330: the check is one call, with its answer. -/
theorem capShouldHalt_calls (s : State) : AfterCalls s [.shouldHalt (capShouldHalt s).1] (capShouldHalt s).2 := by
  cases hc : s.cur.cap with
  | replay inq outl => simp [AfterCalls, State.callHistory, capShouldHalt, hc]
  | stage last => simp [AfterCalls, State.callHistory, capShouldHalt, hc]
  | controller c =>
    have history : c.answerHalt.2.history = c.history ++ [.shouldHalt c.answerHalt.1] := by
      unfold Controller.answerHalt
      split <;> rfl
    simp [AfterCalls, State.callHistory, capShouldHalt, hc, history]

theorem capRead_calls {s t : State} {v : Word} (h : capRead s = .value v t) : AfterCalls s [.read v] t := by
  rw [(answer_of_capRead h).2]
  cases hc : s.cur.cap <;> simp [AfterCalls, State.callHistory, answered, hc, Controller.afterRead]

theorem capWrite_calls (v : Word) (s : State) : AfterCalls s [.write v] (capWrite v s) := by
  cases hc : s.cur.cap <;> simp [AfterCalls, State.callHistory, capWrite, hc, Controller.note]

theorem capOnFinished_calls (s : State) : AfterCalls s [.finished] (capOnFinished s) := by
  cases hc : s.cur.cap with
  | replay inq outl => simp [AfterCalls, State.callHistory, capOnFinished, hc]
  | stage last => simp [AfterCalls, State.callHistory, capOnFinished_of_stage hc, hc]
  | controller c => simp [AfterCalls, State.callHistory, capOnFinished, hc, Controller.note]

/-- R120, R121: the Halted transition makes one call. -/
theorem enterHalted_calls (s : State) : AfterCalls s [.finished] (enterHalted s) :=
  (capOnFinished_calls (s.setRun .halted)).trans (.of_cap_eq (by simp [enterHalted]))

/-- The calls an instruction makes while it runs: a read, a write or none (R152). -/
def Transfers (calls : List CapEvent) : Prop := CapEvent.finished ∉ calls ∧ ∀ b, CapEvent.shouldHalt b ∉ calls

theorem Called.calls {i : Instr} {s s1 : State} (h : Called i s s1) : ∃ calls, AfterCalls s calls s1 ∧ Transfers calls := by
  obtain rfl | ⟨m, v, -, rfl⟩ | ⟨m, v, -, h⟩ := h
  · exact ⟨[], .of_cap_eq rfl, by simp [Transfers]⟩
  · exact ⟨_, capWrite_calls v s, by simp [Transfers]⟩
  · exact ⟨_, capRead_calls h, by simp [Transfers]⟩

/-! ## on_finished comes once and last -/

/-- R121, R122: the calls of a run that stands at `r`. -/
def ToldLast (r : RunState) (calls : List CapEvent) : Prop :=
  (r ≠ .halted → CapEvent.finished ∉ calls) ∧
    (r = .halted → ∃ earlier, calls = earlier ++ [.finished] ∧ CapEvent.finished ∉ earlier)

theorem State.finishedLast_iff (s : State) :
    s.FinishedLast ↔ ∀ c, s.cur.cap = .controller c → ToldLast s.run c.history := Iff.rfl

theorem ToldLast.of_not_halted {r : RunState} {calls : List CapEvent} (hr : r ≠ .halted)
    (h : CapEvent.finished ∉ calls) : ToldLast r calls :=
  ⟨fun _ => h, fun e => absurd e hr⟩

theorem ToldLast.finished : ToldLast .halted [.finished] := ⟨fun h => absurd rfl h, fun _ => ⟨[], rfl, by simp⟩⟩

theorem ToldLast.append {r : RunState} {earlier calls : List CapEvent} (h : ToldLast r calls)
    (he : CapEvent.finished ∉ earlier) : ToldLast r (earlier ++ calls) := by
  obtain ⟨hno, hlast⟩ := h
  refine ⟨fun hr => by simp [he, hno hr], fun hr => ?_⟩
  obtain ⟨more, rfl, hm⟩ := hlast hr
  exact ⟨earlier ++ more, by simp, by simp [he, hm]⟩

/-- R152, R121: the calls of an instruction of a Running executor. -/
theorem ExecShape.calls {i : Instr} {s t : State} (h : ExecShape i s t) (hr : s.run = .running) :
    ∃ calls, AfterCalls s calls t ∧ (∀ b, CapEvent.shouldHalt b ∉ calls) ∧ ToldLast t.run calls := by
  cases h with
  | completes s1 m rb pc called mem hpc hrb =>
    obtain ⟨calls, hcalls, hfin, hsh⟩ := called.calls
    have hrun : s1.run = .running := (congrArg Executor.run called.exe).trans hr
    exact ⟨calls, hcalls, hsh, .of_not_halted (by simp [hrun]) hfin⟩
  | faults s1 m f called mem =>
    obtain ⟨calls, hcalls, hfin, hsh⟩ := called.calls
    refine ⟨calls, ?_, hsh, .of_not_halted (by simp) hfin⟩
    simpa using hcalls.trans (.of_cap_eq (t := enterFaulted f (s1.setMem m)) (by simp))
  | halts hi => exact ⟨_, enterHalted_calls s, by simp, by simpa using ToldLast.finished⟩
  | held m hi hb => exact ⟨[], .of_cap_eq rfl, by simp, .of_not_halted (by simp [hr]) (by simp)⟩

/-- R125: a step is held exactly when the check would answer false and the executor would then wait. -/
theorem StepShape.eq_of_held {s t : State} (h : StepShape s t) (hno : (capShouldHalt s).1 = false)
    (hw : waits (capShouldHalt s).2 = true) : t = s := by
  cases h with
  | halts h => rw [h] at hno; cases hno
  | held h hw => rfl
  | fetchFaults f m h hw' hm => rw [hw] at hw'; cases hw'
  | executes w i t h hw' hp hd hb hx => rw [hw] at hw'; cases hw'

/-- R126: the calls of a step that is taken: the check, and what follows it. -/
theorem StepShape.calls_of_taken {s t : State} (h : StepShape s t) (hr : s.run = .running)
    (htaken : (capShouldHalt s).1 = true ∨ waits (capShouldHalt s).2 = false) :
    ∃ calls, AfterCalls s (.shouldHalt (capShouldHalt s).1 :: calls) t ∧ (∀ b, CapEvent.shouldHalt b ∉ calls) ∧
      ToldLast t.run calls := by
  have check := capShouldHalt_calls s
  cases h with
  | halts h =>
    exact ⟨_, check.trans (enterHalted_calls _), by simp, by simpa using ToldLast.finished⟩
  | held h hw => simp [h, hw] at htaken
  | fetchFaults f m h hw hm =>
    exact ⟨[], check.trans (.of_cap_eq (by simp)), by simp, .of_not_halted (by simp) (by simp)⟩
  | executes w i t h hw hp hd hb hx =>
    obtain ⟨calls, hcalls, hsh, htold⟩ := (exec_shape hx).calls (by simpa using hr)
    exact ⟨calls, check.trans (hcalls : AfterCalls (capShouldHalt s).2 calls t), hsh, htold⟩

theorem held_or_taken (s : State) :
    ((capShouldHalt s).1 = false ∧ waits (capShouldHalt s).2 = true) ∨
      ((capShouldHalt s).1 = true ∨ waits (capShouldHalt s).2 = false) := by
  cases (capShouldHalt s).1 <;> cases waits (capShouldHalt s).2 <;> simp

/-- A step of a single run is that of its executor, or leaves the run that has halted. -/
theorem step_run_cases {s t : State} (hj : s.job = .run) (hx : step s = .next t) :
    (s.run = .running ∧ StepShape s t) ∨ (s.run = .halted ∧ t = s) := by
  cases hr : s.run with
  | running => exact .inl ⟨rfl, executorStep_shape ((step_eq_executorStep (.inl hj) hr).symm.trans hx)⟩
  | halted =>
    rw [step_of_host (nextMove_run_halted hj hr), Host.Outcome.next.injEq] at hx
    exact .inr ⟨rfl, hx.symm⟩
  | faulted f pc =>
    rw [step_of_stop (nextMove_run_faulted hj hr)] at hx
    cases hx

theorem StepShape.finishedLast {s t : State} (h : StepShape s t) (hr : s.run = .running) (hs : s.FinishedLast) :
    t.FinishedLast := by
  rcases held_or_taken s with ⟨hno, hw⟩ | htaken
  · exact h.eq_of_held hno hw ▸ hs
  · obtain ⟨calls, hcalls, -, htold⟩ := h.calls_of_taken hr htaken
    rw [State.finishedLast_iff] at hs ⊢
    intro c' hc'
    obtain ⟨c, hc, he⟩ := hcalls.controller_before hc'
    obtain ⟨hnone, -⟩ := hs c hc
    have hcheck : CapEvent.finished ∉ c.history ++ [.shouldHalt (capShouldHalt s).1] := by simp [hnone (by simp [hr])]
    rw [he, show ∀ e, c.history ++ e :: calls = (c.history ++ [e]) ++ calls by simp]
    exact htold.append hcheck

/-- Settles O51: a run starts with no call, and the calls a step appends to those of a Running executor hold on_finished only as the
last one of a halt. -/
theorem finishedIsCalledOnceAndLast : Obligations.FinishedIsCalledOnceAndLast := by
  refine ⟨fun cfg prog c hc c' hc' => ?_, fun s t hj hs hx => ?_⟩
  · obtain rfl : c = c' := Capability.controller.inj hc'
    rw [hc]
    exact ToldLast.of_not_halted (r := .running) nofun (by simp)
  · rcases step_run_cases hj hx with ⟨hr, hshape⟩ | ⟨-, rfl⟩
    · exact hshape.finishedLast hr hs
    · exact hs

/-- Settles O35, by the calls of a step that is held and of one that is taken. -/
theorem shouldHaltOncePerStep : Obligations.ShouldHaltOncePerStep := by
  refine ⟨fun s t c hc hr hx => ?_, fun s t hj hr hx => ?_⟩
  · have hshape := executorStep_shape hx
    rcases held_or_taken s with ⟨hno, hw⟩ | htaken
    · obtain rfl := hshape.eq_of_held hno hw
      exact ⟨c, hc, fun _ => rfl, fun h => by simp [hno, hw] at h⟩
    · obtain ⟨calls, hcalls, hsh, -⟩ := hshape.calls_of_taken hr htaken
      obtain ⟨c', hc', he⟩ := hcalls.controller hc
      exact ⟨c', hc', fun ⟨hno, hw⟩ => by simp [hno, hw] at htaken, fun _ => ⟨calls, he, hsh⟩⟩
  · rcases step_run_cases hj hx with ⟨hr', -⟩ | ⟨-, rfl⟩
    · exact absurd hr' hr
    · rfl

end Sys2Proof.Machine
end

section
/-! PROOF. What instructions leave: a source operand's value in each mode (R112 to R114), the frame of the three-operand instructions
(R116, R303) and the advance of `pc` (R118). -/

namespace Sys2Proof.Machine

/-! ## Source operands -/

/-- Settles O13: the clauses of the pure operand, and the laws that tie the fetching operand to it. -/
theorem sourceOperandValues : Obligations.SourceOperandValues := by
  refine ⟨fun k s p h => ?_, fun k m s f h => ?_, fun k m s v h => ?_, fun k m s f h => ?_⟩
  · simp only [operandValue, h, and_self]
  · simp only [operandValue, h]
  · obtain ⟨-, hok⟩ := sourceOperand_ok h
    exact hok
  · obtain ⟨mem, ⟨hcells, hlen, -⟩, hfault⟩ := sourceOperand_error h
    exact ⟨mem, hfault, hcells, hlen⟩

/-! ## The three-operand instructions -/

theorem enterFaulted_result (f : ExecFault) (s : State) : (enterFaulted f s).result = s.result :=
  releaseEndpoints_result _

/-- R123: a run that goes on has taken no fault. -/
theorem enterFaulted_run_ne_running (f : ExecFault) (s : State) : (enterFaulted f s).run ≠ .running := by simp

theorem settle_computeInto_cases {f : Word → Word → Except ExecFault Word} {m1 m2 m3 : Mode} {s t : State}
    (h : settle (computeInto f m1 m2 m3 s) = .next t) :
    (∃ d r, operandAddress 3 m3 s = .ok d ∧ s.pc + 4 ≤ maxAddr ∧
        t = s.storing (reach3 m1 m2 s) d r (s.pc + 4)) ∨
      (∃ e m, s.mem.Grown m ∧ t = enterFaulted e (s.setMem m)) := by
  cases ho : computeOutcome f m1 m2 m3 s with
  | ok dr =>
    obtain ⟨-, hp, -, hd, hx⟩ := computeInto_ok (d := dr.1) (r := dr.2) ho
    rw [hx] at h
    cases h
    exact .inl ⟨dr.1, dr.2, hd, hp, rfl⟩
  | error e =>
    obtain ⟨m, hm, hx⟩ := computeInto_error ho
    rw [hx] at h
    cases h
    exact .inr ⟨e, m, hm, rfl⟩

/-- ADD, MUL, LT and EQ are one instruction over four computations. -/
theorem exec_compute {m1 m2 m3 : Mode} {i : Instr}
    (h : i ∈ [Instr.add m1 m2 m3, Instr.mul m1 m2 m3, Instr.lt m1 m2 m3, Instr.eq m1 m2 m3]) (s : State) :
    ∃ f, exec i s = settle (computeInto f m1 m2 m3 s) := by
  simp only [List.mem_cons, List.not_mem_nil, or_false] at h
  obtain rfl | rfl | rfl | rfl := h
  · exact ⟨sumResult, rfl⟩
  · exact ⟨productResult, rfl⟩
  · exact ⟨lessResult, rfl⟩
  · exact ⟨equalResult, rfl⟩

/-- Settles O26: the instruction stores to its destination's address alone, or faults over a memory that has only grown. -/
theorem computeFrame : Obligations.ComputeFrame := by
  intro m1 m2 m3 s t i hi hx
  obtain ⟨f, hf⟩ := exec_compute hi s
  rcases settle_computeInto_cases (hf.symm.trans hx) with ⟨d, r, hd, -, rfl⟩ | ⟨e, m, hm, rfl⟩
  · refine ⟨rfl, rfl, rfl, rfl, fun d' hd' a ha => ?_, fun hno => absurd hd (hno d), fun _ _ => rfl⟩
    obtain rfl : d = d' := Except.ok.inj (hd.symm.trans hd')
    exact (s.mem.grow (reach3 m1 m2 s)).read_write_other r ha
  · have same : ∀ a, (enterFaulted e (s.setMem m)).mem.read a = s.mem.read a := fun a => by simp [hm.read]
    exact ⟨by simp, by simp, by simp, enterFaulted_result _ _, fun _ _ a _ => same a, fun _ => same,
      fun _ hr => absurd hr (enterFaulted_run_ne_running _ _)⟩

/-! ## The advance -/

theorem nextPc_of_overflow {len : Nat} {s : State} (h : maxAddr < s.pc + len) :
    nextPc len s = .error (.addressOverflow ((s.pc + len : Nat) : Int)) := if_neg (Nat.not_le.2 h)

theorem advance_of_overflow {len : Nat} {s : State} (h : maxAddr < s.pc + len) :
    advance len s = .fault (.addressOverflow ((s.pc + len : Nat) : Int)) s := by
  simp only [advance, nextPc_of_overflow h, attempt, Attempt.andThen]

/-- R118, R125: what an instruction that neither jumps nor halts leaves: it has gone on by its length, its run has ended
(R123), or it is an IN that is held. -/
inductive Advanced (i : Instr) (s t : State) : Prop where
  | byLength (hpc : t.pc = s.pc + i.opcode.length) (hle : s.pc + i.opcode.length ≤ maxAddr)
  | ended (hr : t.run ≠ .running)
  | held (ht : t = s) (hi : ∃ m, i = .inp m)

theorem compute_advanced {m1 m2 m3 : Mode} {i : Instr} {s t : State}
    (hi : i ∈ [Instr.add m1 m2 m3, Instr.mul m1 m2 m3, Instr.lt m1 m2 m3, Instr.eq m1 m2 m3])
    (hx : exec i s = .next t) : Advanced i s t := by
  have hlen : i.opcode.length = 4 := by
    simp only [List.mem_cons, List.not_mem_nil, or_false] at hi
    obtain rfl | rfl | rfl | rfl := hi <;> rfl
  obtain ⟨f, hf⟩ := exec_compute hi s
  rcases settle_computeInto_cases (hf.symm.trans hx) with ⟨d, r, -, hp, rfl⟩ | ⟨e, m, -, rfl⟩
  · rw [← hlen] at hp ⊢
    exact .byLength rfl hp
  · exact .ended (enterFaulted_run_ne_running _ _)

/-- R160, R161: a jump whose condition does not hold goes on by 3. -/
theorem jump_advanced {taken : Word → Bool} {m1 m2 : Mode} {i : Instr} {s t : State} (hlen : i.opcode.length = 3)
    (hno : ∀ c, operandValue 1 m1 s = .ok c → taken c = false) (hx : settle (jumpWhen taken m1 m2 s) = .next t) :
    Advanced i s t := by
  cases ho : jumpOutcome taken m1 m2 s with
  | error e =>
    obtain ⟨m, -, hj⟩ := jumpWhen_error ho
    rw [hj] at hx
    cases hx
    exact .ended (enterFaulted_run_ne_running _ _)
  | ok p =>
    obtain ⟨-, -, hj⟩ := jumpWhen_ok ho
    rw [hj] at hx
    cases hx
    have hnext : nextPc 3 s = .ok p := by
      unfold jumpOutcome at ho
      split at ho
      · cases ho
      next c hc =>
      split at ho
      · cases ho
      · rwa [hno c hc, if_neg Bool.false_ne_true] at ho
    obtain ⟨rfl, hle⟩ := nextPc_ok hnext
    rw [← hlen] at hle ⊢
    exact .byLength rfl hle

theorem arb_advanced {m : Mode} {s t : State} (hx : exec (.arb m) s = .next t) : Advanced (.arb m) s t := by
  rcases execArb_cases m s with ⟨v, r, hv, hr, hp⟩ | ⟨f, m', -, hf, -⟩
  · obtain ⟨-, ho⟩ := execArb_ok hv hr hp
    cases ho.symm.trans hx
    exact .byLength rfl hp
  · cases hf.symm.trans hx
    exact .ended (enterFaulted_run_ne_running _ _)

theorem out_advanced {m : Mode} {s t : State} (hx : exec (.out m) s = .next t) : Advanced (.out m) s t := by
  rcases execOut_cases m s with ⟨v, hv, hp⟩ | ⟨v, f, -, -, -, hf⟩ | ⟨f, m', -, -, hf⟩
  · obtain ⟨-, ho⟩ := execOut_ok hv hp
    cases ho.symm.trans hx
    exact .byLength rfl hp
  all_goals
    cases hf.symm.trans hx
    exact .ended (enterFaulted_run_ne_running _ _)

theorem inp_advanced {m : Mode} {s t : State} (hx : exec (.inp m) s = .next t) : Advanced (.inp m) s t := by
  rcases execInp_cases m s with
    ⟨d, v, u, hd, hr, ha, hp⟩ | ⟨d, -, -, hh⟩ | ⟨d, v, u, f, m', -, -, -, hf, -⟩ | ⟨f, m', -, hf, -⟩
  · obtain ⟨-, -, ho⟩ := execInp_ok hd hr ha hp
    cases ho.symm.trans hx
    exact .byLength rfl hp
  · cases hh.symm.trans hx
    exact .held rfl ⟨m, rfl⟩
  all_goals
    cases hf.symm.trans hx
    exact .ended (enterFaulted_run_ne_running _ _)

theorem exec_advanced {i : Instr} {s t : State} (hx : exec i s = .next t) (hhalt : i ≠ .halt)
    (hjnz : ∀ m1 m2 c, i = .jnz m1 m2 → operandValue 1 m1 s = .ok c → c.val = 0)
    (hjz : ∀ m1 m2 c, i = .jz m1 m2 → operandValue 1 m1 s = .ok c → c.val ≠ 0) : Advanced i s t := by
  cases i with
  | add m1 m2 m3 => exact compute_advanced (m1 := m1) (m2 := m2) (m3 := m3) (by simp) hx
  | mul m1 m2 m3 => exact compute_advanced (m1 := m1) (m2 := m2) (m3 := m3) (by simp) hx
  | lt m1 m2 m3 => exact compute_advanced (m1 := m1) (m2 := m2) (m3 := m3) (by simp) hx
  | eq m1 m2 m3 => exact compute_advanced (m1 := m1) (m2 := m2) (m3 := m3) (by simp) hx
  | jnz m1 m2 => exact jump_advanced rfl (fun c hc => by simp [hjnz m1 m2 c rfl hc]) hx
  | jz m1 m2 => exact jump_advanced rfl (fun c hc => by simp [hjz m1 m2 c rfl hc]) hx
  | inp m => exact inp_advanced hx
  | out m => exact out_advanced hx
  | arb m => exact arb_advanced hx
  | halt => exact absurd rfl hhalt

/-- R118, R302 item 8: the advance of an OUT at the last two cells. -/
theorem out_faults_at_overflow {m : Mode} {s : State} {v : Word} (hv : operandValue 1 m s = .ok v)
    (hp : maxAddr < s.pc + 2) : FaultsWith (.out m) s (.addressOverflow ((s.pc + 2 : Nat) : Int)) := by
  rcases execOut_cases m s with ⟨_, -, hle⟩ | ⟨u, f, -, hf, hb, hx⟩ | ⟨f, m', hf, -, -⟩
  · exact absurd hp (Nat.not_lt.2 hle)
  · obtain rfl : _ = f := Except.error.inj ((nextPc_of_overflow hp).symm.trans hf)
    exact faultsWith_of_called (Memory.grown_grow s.mem hb) (capWrite_exe u s) hx
  · rw [hv] at hf
    cases hf

/-- Settles O31, by what each instruction leaves and the check of the advance. -/
theorem pcAdvancesByTheLength : Obligations.PcAdvancesByTheLength := by
  refine ⟨fun i s t _ hx hr hhalt hjnz hjz => ?_, fun _ _ => advance_of_overflow, fun _ _ _ => out_faults_at_overflow⟩
  cases exec_advanced hx hhalt hjnz hjz with
  | byLength hpc hle => exact .inl ⟨hpc, hpc ▸ hle⟩
  | ended hne => exact absurd hr hne
  | held ht hi => exact .inr ⟨ht, hi⟩

end Sys2Proof.Machine
end

section
/-! PROOF. The Halted transition under each policy (R120, R190, R329), and what the caller observes of it (R39, R32). -/

namespace Sys2Proof.Machine

theorem enterHalted_of_replay {s : State} {inq outl : List Word} (h : s.cur.cap = .replay inq outl) :
    enterHalted s = (s.setRun .halted).setFinished true := by
  simp [enterHalted, capOnFinished, releaseEndpoints, h]

theorem enterHalted_of_controller {s : State} {c : Controller} (h : s.cur.cap = .controller c) :
    enterHalted s = ((s.setRun .halted).setCap (.controller (c.note .finished))).setFinished true := by
  simp [enterHalted, capOnFinished, releaseEndpoints, h]

theorem enterHalted_of_stage {s : State} {last : Option Word} (h : s.cur.cap = .stage last) :
    enterHalted s = releaseEndpoints
      { (s.setRun .halted).setFinished true with result := if s.after = [] then last else s.result } := by
  rw [enterHalted, capOnFinished_of_stage (s := s.setRun .halted) h]
  rfl

/-- What a change of the outbound channel keeps, the inbound one keeps, though in a ring of one stage they are the same. -/
theorem State.mapOutbound_inbound {α : Type} (part : Channel → α) {f : Channel → Channel}
    (hf : ∀ ch, part (f ch) = part ch) (s : State) : part (s.mapOutbound f).cur.inbound = part s.cur.inbound := by
  unfold State.mapOutbound
  split
  · rfl
  · split
    · rfl
    · exact hf _

/-- R328, R32: the host state of a stage that has released its endpoints. -/
theorem releaseEndpoints_hostState {s : State} {last : Option Word} (h : s.cur.cap = .stage last) :
    (releaseEndpoints s).hostState = .stage last s.cur.inbound.queue false false := by
  have kept : ∀ {α : Type} (part : Channel → α), (∀ ch : Channel, part { ch with senderConnected := false } = part ch) →
      part ((s.mapInbound fun ch => { ch with receiverAlive := false }).mapOutbound
        fun ch => { ch with senderConnected := false }).cur.inbound = part { s.cur.inbound with receiverAlive := false } :=
    fun part hpart => State.mapOutbound_inbound part hpart _
  simp only [releaseEndpoints, h, State.hostState, State.mapOutbound_cap, State.mapInbound_cap,
    State.mapOutbound_outbound, kept Channel.queue fun _ => rfl, kept Channel.receiverAlive fun _ => rfl]

/-- Settles O25: the executor's part of the transition, its host side under each policy, and the step of a true check. -/
theorem haltEntersHalted : Obligations.HaltEntersHalted := by
  refine ⟨fun s => ⟨enterHalted s, rfl, by simp, by simp, by simp, by simp, by simp, ?_, ?_, ?_, ?_⟩,
    fun s hj hr hc => ?_⟩
  · simp only [observe, enterHalted_run, enterHalted_mem]
  · intro inq outl h
    rw [enterHalted_of_replay h]
    exact ⟨rfl, rfl, by simp [State.hostState, h]⟩
  · intro last h
    rw [enterHalted_of_stage h]
    exact ⟨releaseEndpoints_cap _, releaseEndpoints_result _, releaseEndpoints_hostState h⟩
  · intro c h
    rw [enterHalted_of_controller h]
    exact ⟨rfl, rfl, rfl⟩
  · exact (step_eq_executorStep (.inl hj) hr).trans (executorStep_of_halt hc)

end Sys2Proof.Machine
end

section
/-! PROOF. ADD and MUL: the exact result where it is an `int64`, else `ArithmeticOverflow` with it (R140 to R142). -/

namespace Sys2Proof.Machine

/-! ## The exact result as a word -/

theorem exactResult_val (r : Word) : exactResult r.val = .ok r := by
  simp only [exactResult, Word.ofInt?, dif_pos r.property]

theorem exactResult_of_overflow {x : Int} (h : x < minInt64 ∨ maxInt64 < x) :
    exactResult x = .error (.arithmeticOverflow x) := by
  have hx : ¬(minInt64 ≤ x ∧ x ≤ maxInt64) := by omega
  simp only [exactResult, Word.ofInt?, dif_neg hx]

/-! ## A three-operand instruction whose operands resolve -/

section Resolved

variable {f : Word → Word → Except ExecFault Word} {m1 m2 m3 : Mode} {s : State} {a b : Word} {d : Nat}

theorem computeOutcome_of_resolved (ha : operandValue 1 m1 s = .ok a) (hb : operandValue 2 m2 s = .ok b)
    (hd : operandAddress 3 m3 s = .ok d) {r : Word} (hr : f a b = .ok r) (hacc : accessCheck s.cfg (d : Int) = .ok d)
    (hp : s.pc + 4 ≤ maxAddr) : computeOutcome f m1 m2 m3 s = .ok (d, r) := by
  have hn : nextPc 4 s = .ok (s.pc + 4) := if_pos hp
  simp only [computeOutcome, ha, hb, hd, hr, hacc, hn]

theorem computeOutcome_of_result_error (ha : operandValue 1 m1 s = .ok a) (hb : operandValue 2 m2 s = .ok b)
    (hd : operandAddress 3 m3 s = .ok d) {e : ExecFault} (hr : f a b = .error e) :
    computeOutcome f m1 m2 m3 s = .error e := by
  simp only [computeOutcome, ha, hb, hd, hr]

end Resolved

/-! ## The outcome of an instruction that computes -/

section Compute

variable {f : Word → Word → Except ExecFault Word} {m1 m2 m3 : Mode} {i : Instr} {s : State}

theorem exec_of_computeOutcome_ok (hi : exec i s = settle (computeInto f m1 m2 m3 s)) {d : Nat} {r : Word}
    (h : computeOutcome f m1 m2 m3 s = .ok (d, r)) :
    exec i s = .next (s.storing (reach3 m1 m2 s) d r (s.pc + 4)) := by
  obtain ⟨-, -, -, -, hx⟩ := computeInto_ok h
  rw [hi, hx]
  rfl

theorem faultsWith_of_computeOutcome_error (hi : exec i s = settle (computeInto f m1 m2 m3 s)) {e : ExecFault}
    (h : computeOutcome f m1 m2 m3 s = .error e) : FaultsWith i s e := by
  obtain ⟨m, hm, hx⟩ := computeInto_error h
  refine faultsWith_of_grown hm ?_
  rw [hi, hx]
  rfl

end Compute

/-- Settles O15: both instructions compute an `exactResult`, which is the word of that value or the fault with it. -/
theorem arithmeticIsExactOrFaults : Obligations.ArithmeticIsExactOrFaults := by
  intro m1 m2 m3 s a b d ha hb hd
  have hadd : exec (.add m1 m2 m3) s = settle (computeInto sumResult m1 m2 m3 s) := rfl
  have hmul : exec (.mul m1 m2 m3) s = settle (computeInto productResult m1 m2 m3 s) := rfl
  refine ⟨fun r hr hacc hp => ?_, fun r hr hacc hp => ?_, fun hover => ?_, fun hover => ?_⟩
  · have hsum : sumResult a b = .ok r := by rw [sumResult, ← hr, exactResult_val]
    exact exec_of_computeOutcome_ok hadd (computeOutcome_of_resolved ha hb hd hsum hacc hp)
  · have hprod : productResult a b = .ok r := by rw [productResult, ← hr, exactResult_val]
    exact exec_of_computeOutcome_ok hmul (computeOutcome_of_resolved ha hb hd hprod hacc hp)
  · exact faultsWith_of_computeOutcome_error hadd
      (computeOutcome_of_result_error ha hb hd (exactResult_of_overflow hover))
  · exact faultsWith_of_computeOutcome_error hmul
      (computeOutcome_of_result_error ha hb hd (exactResult_of_overflow hover))

end Sys2Proof.Machine
end

section
/-! PROOF. IN and OUT with their one capability call (R150 to R152), the frames of the instructions that store nothing (R163,
R180, R190), and the calls each instruction makes. -/

namespace Sys2Proof.Machine

/-! ## What a call leaves to the executor (R331) -/

@[simp] theorem emitted_exe (v : Word) (s : State) : (emitted v s).cur.exe = s.cur.exe := by
  rw [← capWrite_emitted, capWrite_exe]

theorem answered_exe {s : State} {v : Word} (h : answerOf s = some v) : (answered v s).cur.exe = s.cur.exe :=
  capRead_exe (capRead_of_answer h)

theorem answered_result {s : State} {v : Word} (h : answerOf s = some v) : (answered v s).result = s.result :=
  capRead_result (capRead_of_answer h)

theorem answerOf_eq_none {s : State} (h : ∀ v t, capRead s ≠ .value v t) : answerOf s = none := by
  cases ha : answerOf s with
  | none => rfl
  | some v => exact absurd (capRead_of_answer ha) (h _ _)

/-! ## The faults of a store and its advance (R302, items 7 and 8) -/

theorem storeAndAdvance_of_access_error {s : State} {d len : Nat} {v : Word} {f : ExecFault}
    (h : accessCheck s.cfg (d : Int) = .error f) : storeAndAdvance d v len s = .fault f s := by
  simp only [storeAndAdvance, memWrite, h, Attempt.andThen]

theorem storeAndAdvance_of_overflow {s : State} {d len : Nat} {v : Word} (h : accessCheck s.cfg (d : Int) = .ok d)
    (hp : maxAddr < s.pc + len) :
    storeAndAdvance d v len s = .fault (.addressOverflow ((s.pc + len : Nat) : Int)) s := by
  simp only [storeAndAdvance, memWrite, h, nextPc_of_overflow hp, attempt, Attempt.andThen]

/-! ## IN -/

theorem inp_faults_of_address_error {m : Mode} {s : State} {f : ExecFault} (h : operandAddress 1 m s = .error f) :
    FaultsWith (.inp m) s f := by
  obtain ⟨mem, hm, hx⟩ := destOperand_error h
  exact faultsWith_of_grown hm (by simp only [exec, execInp, hx])

/-- R150: an IN whose address resolves and whose read is answered comes to the store and the advance. -/
theorem exec_inp_of_answer {m : Mode} {s : State} {d : Nat} {v : Word} (hd : operandAddress 1 m s = .ok d)
    (ha : answerOf s = some v) :
    exec (.inp m) s = settle (storeAndAdvance d v 2 ((answered v s).setMem (s.mem.grow (s.pc + 1)))) := by
  obtain ⟨-, -, hdest⟩ := destOperand_ok hd
  simp only [exec, execInp, hdest, capRead_setMem, capRead_of_answer ha]

/-- R303: a fault of the store or of the advance leaves the executor as it was, though the answer is taken. -/
theorem inp_faults_of_store_fault {m : Mode} {s : State} {d : Nat} {v : Word} {f : ExecFault}
    (hd : operandAddress 1 m s = .ok d) (ha : answerOf s = some v)
    (hf : ∀ u : State, u.cfg = s.cfg → u.pc = s.pc → storeAndAdvance d v 2 u = .fault f u) : FaultsWith (.inp m) s f := by
  obtain ⟨hb, -, -⟩ := destOperand_ok hd
  have hcfg : (answered v s).cfg = s.cfg := (capRead_sameJob (capRead_of_answer ha)).1
  have hpc : (answered v s).pc = s.pc := congrArg Executor.pc (answered_exe ha)
  refine faultsWith_of_called (Memory.grown_grow s.mem hb) (answered_exe ha) ?_
  rw [exec_inp_of_answer hd ha, hf ((answered v s).setMem (s.mem.grow (s.pc + 1))) hcfg hpc]
  rfl

/-- Settles O18: the address comes before the read, and the read before the store and the advance. -/
theorem inStoresTheAnswer : Obligations.InStoresTheAnswer := by
  refine fun m s => ⟨fun f => inp_faults_of_address_error, fun d v hd ha =>
    ⟨fun f hf => ?_, fun hacc => ⟨fun hp => ?_, fun hp => ?_⟩⟩⟩
  · exact inp_faults_of_store_fault hd ha fun u hcfg _ => storeAndAdvance_of_access_error (hcfg ▸ hf)
  · obtain ⟨-, -, hx⟩ := execInp_ok hd (capRead_of_answer ha) hacc hp
    exact hx
  · refine inp_faults_of_store_fault hd ha fun u hcfg hpc => ?_
    rw [← hpc] at hp ⊢
    exact storeAndAdvance_of_overflow (hcfg ▸ hacc) hp

/-- What an IN can leave: the answer stored; a fault after the read or before it; or the state as it was (R125). -/
inductive InpShape (m : Mode) (s : State) : State → Prop where
  | stored (d : Nat) (v : Word) (hd : operandAddress 1 m s = .ok d) (ha : answerOf s = some v) :
      InpShape m s ((answered v s).storing (s.pc + 1) d v (s.pc + 2))
  | faultsAfterRead (d : Nat) (v : Word) (f : ExecFault) (mem : Memory) (hd : operandAddress 1 m s = .ok d)
      (ha : answerOf s = some v) (hm : s.mem.Grown mem) : InpShape m s (enterFaulted f ((answered v s).setMem mem))
  | faultsBeforeRead (f : ExecFault) (mem : Memory) (hm : s.mem.Grown mem)
      (hno : (∀ d, operandAddress 1 m s ≠ .ok d) ∨ answerOf s = none) : InpShape m s (enterFaulted f (s.setMem mem))
  | held (hno : answerOf s = none) : InpShape m s s

theorem exec_inp_shape {m : Mode} {s t : State} (hx : exec (.inp m) s = .next t) : InpShape m s t := by
  rcases execInp_cases m s with
    ⟨d, v, u, hd, hr, hacc, hp⟩ | ⟨d, -, hr, hh⟩ | ⟨d, v, u, f, mem, hd, hr, hm, hf, -⟩ | ⟨f, mem, hm, hf, hwhy⟩
  · obtain ⟨-, -, ho⟩ := execInp_ok hd hr hacc hp
    obtain ⟨ha, rfl⟩ := answer_of_capRead hr
    cases ho.symm.trans hx
    exact .stored d v hd ha
  · cases hh.symm.trans hx
    exact .held (answerOf_eq_none (by simp [hr]))
  · obtain ⟨ha, rfl⟩ := answer_of_capRead hr
    cases hf.symm.trans hx
    exact .faultsAfterRead d v f mem hd ha hm
  · cases hf.symm.trans hx
    refine .faultsBeforeRead f mem hm (hwhy.imp (fun he d => by simp [he]) ?_)
    rintro ⟨d, -, hr, -⟩
    exact answerOf_eq_none (by simp [hr])

/-- Settles O28: an IN stores to its destination alone, or leaves a memory that has grown at most. -/
theorem inFrame : Obligations.InFrame := by
  intro m s t hx
  cases exec_inp_shape hx with
  | stored d v hd ha =>
    have hexe := answered_exe ha
    have hrb : (answered v s).rb = s.rb := congrArg Executor.rb hexe
    have hfin : (answered v s).finished = s.finished := congrArg Executor.finished hexe
    refine ⟨hrb, hfin, answered_result ha, fun d' hd' a hne => ?_, fun hno => absurd hd (hno d),
      fun _ _ => .inr ⟨v, ha, rfl⟩⟩
    obtain rfl : d = d' := Except.ok.inj (hd.symm.trans hd')
    have hmem : (answered v s).mem = s.mem := congrArg Executor.mem hexe
    rw [← hmem]
    exact Memory.read_write_other _ v hne
  | faultsAfterRead d v f mem hd ha hm =>
    have hexe := answered_exe ha
    have same : ∀ a, (enterFaulted f ((answered v s).setMem mem)).mem.read a = s.mem.read a := fun a => by simp [hm.read]
    exact ⟨by simp [State.rb, hexe], by simp [State.finished, hexe], (enterFaulted_result _ _).trans (answered_result ha),
      fun _ _ a _ => same a, fun _ => same, fun _ hr => absurd hr (enterFaulted_run_ne_running _ _)⟩
  | faultsBeforeRead f mem hm hno =>
    have same : ∀ a, (enterFaulted f (s.setMem mem)).mem.read a = s.mem.read a := fun a => by simp [hm.read]
    exact ⟨by simp, by simp, enterFaulted_result _ _,
      fun _ _ a _ => same a, fun _ => same, fun _ hr => absurd hr (enterFaulted_run_ne_running _ _)⟩
  | held hno => exact ⟨rfl, rfl, rfl, fun _ _ _ _ => rfl, fun _ _ => rfl, fun _ _ => .inl rfl⟩

/-! ## OUT -/

/-- Settles O20: the operand comes before the write, and the write before the advance. -/
theorem outWritesTheOperand : Obligations.OutWritesTheOperand := by
  refine fun m s => ⟨fun v hv hp => ?_, fun f hf => ?_⟩
  · obtain ⟨-, hx⟩ := execOut_ok hv hp
    rw [capWrite_emitted] at hx
    exact hx
  · obtain ⟨mem, hm, hx⟩ := sourceOperand_error hf
    exact faultsWith_of_grown hm (by simp only [exec, execOut, hx, Attempt.andThen, settle, settled])

/-! ## The instructions that store nothing -/

theorem Memory.Grown.len_le {m m' : Memory} (h : m.Grown m') : m.len ≤ m'.len := by
  obtain ⟨-, hlen, -⟩ := h
  exact hlen

/-- What an instruction that stores nothing leaves of the state `s` its capability call left: memory has grown at most, and it
goes on at `pc` with the base `rb`, or a fault ends the run. -/
inductive StoresNothing (rb : Word) (s : State) : State → Prop where
  | goesOn (m : Memory) (pc : Nat) (hm : s.mem.Grown m) : StoresNothing rb s (((s.setMem m).setRb rb).setPc pc)
  | faults (f : ExecFault) (m : Memory) (hm : s.mem.Grown m) : StoresNothing rb s (enterFaulted f (s.setMem m))

section StoresNothing

variable {rb : Word} {s t : State}

theorem StoresNothing.mem (h : StoresNothing rb s t) : s.mem.Grown t.mem := by
  cases h with
  | goesOn m pc hm => exact hm
  | faults f m hm => rwa [enterFaulted_mem]

theorem StoresNothing.finished (h : StoresNothing rb s t) : t.finished = s.finished := by
  cases h with
  | goesOn m pc hm => rfl
  | faults f m hm => exact enterFaulted_finished _ _

theorem StoresNothing.cap (h : StoresNothing rb s t) : t.cur.cap = s.cur.cap := by
  cases h with
  | goesOn m pc hm => rfl
  | faults f m hm => exact enterFaulted_cap _ _

theorem StoresNothing.result (h : StoresNothing rb s t) : t.result = s.result := by
  cases h with
  | goesOn m pc hm => rfl
  | faults f m hm => exact enterFaulted_result _ _

theorem StoresNothing.rb_eq (h : StoresNothing s.rb s t) : t.rb = s.rb := by
  cases h with
  | goesOn m pc hm => rfl
  | faults f m hm => exact enterFaulted_rb _ _

theorem StoresNothing.eq_of_running (h : StoresNothing rb s t) (hr : t.run = .running) :
    t = ((s.setMem t.mem).setRb t.rb).setPc t.pc := by
  cases h with
  | goesOn m pc hm => rfl
  | faults f m hm => exact absurd hr (enterFaulted_run_ne_running _ _)

theorem StoresNothing.eq_of_base_kept (h : StoresNothing s.rb s t) (hr : t.run = .running) :
    t = (s.setMem t.mem).setPc t.pc :=
  (h.eq_of_running hr).trans (by rw [h.rb_eq]; rfl)

end StoresNothing

theorem jump_storesNothing {taken : Word → Bool} {m1 m2 : Mode} {s t : State}
    (hx : settle (jumpWhen taken m1 m2 s) = .next t) : StoresNothing s.rb s t := by
  cases ho : jumpOutcome taken m1 m2 s with
  | ok p =>
    obtain ⟨-, hb, hj⟩ := jumpWhen_ok ho
    rw [hj] at hx
    cases hx
    exact .goesOn _ p (Memory.grown_grow s.mem hb)
  | error e =>
    obtain ⟨m, hm, hj⟩ := jumpWhen_error ho
    rw [hj] at hx
    cases hx
    exact .faults e m hm

theorem arb_storesNothing {m : Mode} {s t : State} (hx : exec (.arb m) s = .next t) : ∃ rb, StoresNothing rb s t := by
  rcases execArb_cases m s with ⟨v, r, hv, hr, hp⟩ | ⟨f, mem, hm, hf, -⟩
  · obtain ⟨hb, ho⟩ := execArb_ok hv hr hp
    cases ho.symm.trans hx
    exact ⟨r, .goesOn _ _ (Memory.grown_grow s.mem hb)⟩
  · cases hf.symm.trans hx
    exact ⟨s.rb, .faults f mem hm⟩

/-- JNZ, JZ and ARB make no call and store nothing, and a jump keeps the base. -/
theorem silent_storesNothing {m1 m2 : Mode} {i : Instr} {s t : State}
    (hi : i ∈ [Instr.jnz m1 m2, Instr.jz m1 m2, Instr.arb m1]) (hx : exec i s = .next t) :
    ∃ rb, StoresNothing rb s t ∧ ((∀ m, i ≠ .arb m) → rb = s.rb) := by
  simp only [List.mem_cons, List.not_mem_nil, or_false] at hi
  obtain rfl | rfl | rfl := hi
  · exact ⟨s.rb, jump_storesNothing hx, fun _ => rfl⟩
  · exact ⟨s.rb, jump_storesNothing hx, fun _ => rfl⟩
  · obtain ⟨rb, h⟩ := arb_storesNothing hx
    exact ⟨rb, h, fun hno => absurd rfl (hno m1)⟩

/-- The state the call of an OUT leaves: its operand is written, if it resolves. -/
def afterOut (m : Mode) (s : State) : State :=
  match operandValue 1 m s with
  | .ok v => emitted v s
  | .error _ => s

theorem afterOut_of_value {m : Mode} {s : State} {v : Word} (hv : operandValue 1 m s = .ok v) :
    afterOut m s = emitted v s := by
  simp only [afterOut, hv]

theorem afterOut_of_error {m : Mode} {s : State} {f : ExecFault} (hv : operandValue 1 m s = .error f) :
    afterOut m s = s := by
  simp only [afterOut, hv]

theorem afterOut_exe (m : Mode) (s : State) : (afterOut m s).cur.exe = s.cur.exe := by
  cases hv : operandValue 1 m s with
  | ok v => rw [afterOut_of_value hv, emitted_exe]
  | error f => rw [afterOut_of_error hv]

theorem out_storesNothing {m : Mode} {s t : State} (hx : exec (.out m) s = .next t) :
    StoresNothing s.rb (afterOut m s) t := by
  rcases execOut_cases m s with ⟨v, hv, hp⟩ | ⟨v, f, hv, -, hb, hf⟩ | ⟨f, mem, hv, hm, hf⟩
  · obtain ⟨hb, ho⟩ := execOut_ok hv hp
    cases ho.symm.trans hx
    rw [afterOut_of_value hv, ← capWrite_emitted, ← show (capWrite v s).rb = s.rb by simp [State.rb]]
    exact .goesOn _ _ (Memory.grown_grow _ hb)
  · cases hf.symm.trans hx
    rw [afterOut_of_value hv, ← capWrite_emitted]
    refine .faults f _ ?_
    rw [State.mem, capWrite_exe]
    exact Memory.grown_grow s.mem hb
  · cases hf.symm.trans hx
    rw [afterOut_of_error hv]
    exact .faults f mem hm

theorem pc_of_out_running {m : Mode} {s t : State} (hx : exec (.out m) s = .next t) (hr : t.run = .running) :
    t.pc = s.pc + 2 := by
  cases out_advanced hx with
  | byLength hpc hle => exact hpc
  | ended hne => exact absurd hr hne
  | held ht hi => obtain ⟨_, hi⟩ := hi; cases hi

/-- Settles O27: HALT keeps the memory and the registers, and the four others grow memory at most, an OUT from the state in which
its operand is written. -/
theorem nonStoringFrame : Obligations.NonStoringFrame := by
  intro s t i hi hx
  obtain rfl | ⟨m1, m2, hi⟩ := hi
  · obtain rfl : enterHalted s = t := Host.Outcome.next.inj hx
    exact ⟨by simp, by simp, fun _ => by simp, fun hne => absurd rfl hne, fun _ => by simp,
      fun _ hne => absurd rfl hne, fun _ hr => by simp at hr, fun _ hr => by simp at hr⟩
  · obtain rfl | hi := List.mem_cons.1 hi
    · have h := out_storesNothing hx
      have hexe := afterOut_exe m1 s
      have hbase : (afterOut m1 s).rb = s.rb := congrArg Executor.rb hexe
      have hmem : s.mem.Grown t.mem := by simpa [State.mem, hexe] using h.mem
      rw [← hbase] at h
      refine ⟨hmem.read, hmem.len_le, fun _ => h.rb_eq.trans hbase,
        fun _ => h.finished.trans (congrArg Executor.finished hexe), nofun, fun hno => absurd rfl (hno m1),
        fun _ _ hno => absurd rfl (hno m1), fun _ hr m v hm hv => ?_⟩
      obtain rfl : m1 = m := Instr.out.inj hm
      rw [← pc_of_out_running hx hr, ← afterOut_of_value hv]
      exact h.eq_of_base_kept hr
    · obtain ⟨rb, h, hrb⟩ := silent_storesNothing hi hx
      have hkept : (∀ m, i ≠ .arb m) → t.rb = s.rb := fun hno => (hrb hno ▸ h).rb_eq
      have notHalt : i ≠ .halt := by rintro rfl; simp at hi
      have notOut : ∀ m, i ≠ .out m := by rintro m rfl; simp at hi
      exact ⟨h.mem.read, h.mem.len_le, hkept, fun _ => h.finished, fun he => absurd he notHalt,
        fun _ _ => ⟨h.cap, h.result⟩, fun _ hr _ => h.eq_of_running hr, fun _ _ m v he _ => absurd he (notOut m)⟩

/-! ## The calls of an instruction (R152) -/

/-- The calls instruction `i` makes in state `s`: one read for an IN that resolves and is answered, one write for an OUT that
resolves, and the call of a HALT. -/
def callsOf (i : Instr) (s : State) : List CapEvent :=
  match i with
  | .inp m =>
    match operandAddress 1 m s, answerOf s with
    | .ok _, some v => [.read v]
    | _, _ => []
  | .out m =>
    match operandValue 1 m s with
    | .ok v => [.write v]
    | .error _ => []
  | .halt => [.finished]
  | _ => []

theorem callsOf_inp_of_answer {m : Mode} {s : State} {d : Nat} {v : Word} (hd : operandAddress 1 m s = .ok d)
    (ha : answerOf s = some v) : callsOf (.inp m) s = [.read v] := by
  simp only [callsOf, hd, ha]

theorem callsOf_inp_of_no_read {m : Mode} {s : State}
    (hno : (∀ d, operandAddress 1 m s ≠ .ok d) ∨ answerOf s = none) : callsOf (.inp m) s = [] := by
  simp only [callsOf]
  split
  · next d v hd ha => simp [hd, ha] at hno
  · rfl

theorem callsOf_other {i : Instr} {s : State} (hin : ∀ m, i ≠ .inp m) (hout : ∀ m, i ≠ .out m) (hhalt : i ≠ .halt) :
    callsOf i s = [] := by
  unfold callsOf
  split
  · exact absurd rfl (hin _)
  · exact absurd rfl (hout _)
  · exact absurd rfl hhalt
  · rfl

theorem inp_calls {m : Mode} {s t : State} (hx : exec (.inp m) s = .next t) : AfterCalls s (callsOf (.inp m) s) t := by
  cases exec_inp_shape hx with
  | stored d v hd ha =>
    rw [callsOf_inp_of_answer hd ha]
    exact (capRead_calls (capRead_of_answer ha)).trans (.of_cap_eq rfl)
  | faultsAfterRead d v f mem hd ha hm =>
    rw [callsOf_inp_of_answer hd ha]
    exact (capRead_calls (capRead_of_answer ha)).trans (.of_cap_eq (by simp))
  | faultsBeforeRead f mem hm hno =>
    rw [callsOf_inp_of_no_read hno]
    exact .of_cap_eq (by simp)
  | held hno =>
    rw [callsOf_inp_of_no_read (.inr hno)]
    exact .of_cap_eq rfl

theorem out_calls {m : Mode} {s t : State} (hx : exec (.out m) s = .next t) : AfterCalls s (callsOf (.out m) s) t := by
  have hcap := (out_storesNothing hx).cap
  cases hv : operandValue 1 m s with
  | ok v =>
    rw [afterOut_of_value hv, ← capWrite_emitted] at hcap
    simp only [callsOf, hv]
    exact (capWrite_calls v s).trans (.of_cap_eq hcap)
  | error f =>
    rw [afterOut_of_error hv] at hcap
    simp only [callsOf, hv]
    exact .of_cap_eq hcap

/-- An instruction other than IN, OUT and HALT leaves the capability as it was. -/
theorem ExecShape.cap_eq {i : Instr} {s t : State} (h : ExecShape i s t) (hin : ∀ m, i ≠ .inp m) (hout : ∀ m, i ≠ .out m)
    (hhalt : i ≠ .halt) : t.cur.cap = s.cur.cap := by
  have silent : ∀ {u}, Called i s u → u = s := by
    rintro u (rfl | ⟨m, v, hi, -⟩ | ⟨m, v, hi, -⟩)
    · rfl
    · exact absurd hi (hout m)
    · exact absurd hi (hin m)
  cases h with
  | completes u m rb pc called mem hpc hrb => rw [silent called]; rfl
  | faults u m f called mem => simp [silent called]
  | halts hi => exact absurd hi hhalt
  | held m hi hb => exact absurd hi (hin m)

theorem exec_calls {i : Instr} {s t : State} (hx : exec i s = .next t) : AfterCalls s (callsOf i s) t := by
  by_cases hin : ∃ m, i = .inp m
  · obtain ⟨m, rfl⟩ := hin
    exact inp_calls hx
  by_cases hout : ∃ m, i = .out m
  · obtain ⟨m, rfl⟩ := hout
    exact out_calls hx
  by_cases hhalt : i = .halt
  · subst hhalt
    obtain rfl : enterHalted s = t := Host.Outcome.next.inj hx
    exact enterHalted_calls s
  simp only [not_exists] at hin hout
  rw [callsOf_other hin hout hhalt]
  exact .of_cap_eq ((exec_shape hx).cap_eq hin hout hhalt)

/-- Settles O34: a controller's history grows by `callsOf`. -/
theorem oneCallPerInstruction : Obligations.OneCallPerInstruction := by
  intro i s t c hc hx
  obtain ⟨c', hc', hhist⟩ := (exec_calls hx).controller hc
  refine ⟨c', callsOf i s, hc', hhist, ?_, ?_, ?_, callsOf_other⟩
  · rintro m rfl
    exact ⟨fun d v => callsOf_inp_of_answer, fun f hf => callsOf_inp_of_no_read (.inl (by simp [hf])),
      fun hno => callsOf_inp_of_no_read (.inr hno)⟩
  · rintro m rfl
    exact ⟨fun v hv => by simp only [callsOf, hv], fun f hf => by simp only [callsOf, hf]⟩
  · rintro rfl
    rfl

end Sys2Proof.Machine
end

section
/-! PROOF. JNZ and JZ: the outcome of a jump clause by clause, in the order of its checks (R302, items 4, 5 and 8), and the
instruction by that outcome (R160 to R162). -/

namespace Sys2Proof.Machine

/-! ## The outcome of a jump -/

section Outcome

variable {taken : Word → Bool} {m1 m2 : Mode} {s : State} {c t : Word} {e : ExecFault}

theorem jumpOutcome_of_condition_error (hc : operandValue 1 m1 s = .error e) :
    jumpOutcome taken m1 m2 s = .error e := by
  simp only [jumpOutcome, hc]

theorem jumpOutcome_of_target_error (hc : operandValue 1 m1 s = .ok c) (ht : operandValue 2 m2 s = .error e) :
    jumpOutcome taken m1 m2 s = .error e := by
  simp only [jumpOutcome, hc, ht]

theorem jumpOutcome_of_taken (hc : operandValue 1 m1 s = .ok c) (ht : operandValue 2 m2 s = .ok t)
    (hk : taken c = true) (h0 : 0 ≤ t.val) : jumpOutcome taken m1 m2 s = .ok t.val.toNat := by
  simp only [jumpOutcome, hc, ht, hk, if_true, if_neg (Int.not_lt.2 h0)]

theorem jumpOutcome_of_taken_negative (hc : operandValue 1 m1 s = .ok c) (ht : operandValue 2 m2 s = .ok t)
    (hk : taken c = true) (hneg : t.val < 0) : jumpOutcome taken m1 m2 s = .error (.negativeAddress t.val) := by
  simp only [jumpOutcome, hc, ht, hk, if_true, if_pos hneg]

theorem jumpOutcome_of_not_taken (hc : operandValue 1 m1 s = .ok c) (ht : operandValue 2 m2 s = .ok t)
    (hk : taken c = false) : jumpOutcome taken m1 m2 s = nextPc 3 s := by
  simp only [jumpOutcome, hc, ht, hk, Bool.false_eq_true, if_false]

end Outcome

/-! ## The instruction by its outcome -/

section Jump

variable {taken : Word → Bool} {m1 m2 : Mode} {i : Instr} {s : State}

theorem exec_of_jumpOutcome_ok (hi : exec i s = settle (jumpWhen taken m1 m2 s)) {p : Nat}
    (h : jumpOutcome taken m1 m2 s = .ok p) : exec i s = .next (s.goingOn (reach2 m1 m2 s) p) := by
  obtain ⟨-, -, hx⟩ := jumpWhen_ok h
  rw [hi, hx]
  rfl

theorem faultsWith_of_jumpOutcome_error (hi : exec i s = settle (jumpWhen taken m1 m2 s)) {e : ExecFault}
    (h : jumpOutcome taken m1 m2 s = .error e) : FaultsWith i s e := by
  obtain ⟨m, hm, hx⟩ := jumpWhen_error h
  refine faultsWith_of_grown hm ?_
  rw [hi, hx]
  rfl

variable {c t : Word}

/-- R160, R161: a jump not taken, whatever its target is. -/
theorem exec_of_not_taken (hi : exec i s = settle (jumpWhen taken m1 m2 s)) (hc : operandValue 1 m1 s = .ok c)
    (ht : operandValue 2 m2 s = .ok t) (hk : taken c = false) (hp : s.pc + 3 ≤ maxAddr) :
    exec i s = .next (s.goingOn (reach2 m1 m2 s) (s.pc + 3)) :=
  exec_of_jumpOutcome_ok hi ((jumpOutcome_of_not_taken hc ht hk).trans (if_pos hp))

theorem faultsWith_of_not_taken (hi : exec i s = settle (jumpWhen taken m1 m2 s)) (hc : operandValue 1 m1 s = .ok c)
    (ht : operandValue 2 m2 s = .ok t) (hk : taken c = false) (hp : maxAddr < s.pc + 3) :
    FaultsWith i s (.addressOverflow ((s.pc + 3 : Nat) : Int)) :=
  faultsWith_of_jumpOutcome_error hi ((jumpOutcome_of_not_taken hc ht hk).trans (nextPc_of_overflow hp))

end Jump

theorem exec_jnz (m1 m2 : Mode) (s : State) :
    exec (.jnz m1 m2) s = settle (jumpWhen (fun c => decide (c.val ≠ 0)) m1 m2 s) := rfl

theorem exec_jz (m1 m2 : Mode) (s : State) :
    exec (.jz m1 m2) s = settle (jumpWhen (fun c => decide (c.val = 0)) m1 m2 s) := rfl

/-- Settles O22: a fault of the condition, then of the target, then the branch the condition chooses. -/
theorem jumpsGoToTheTarget : Obligations.JumpsGoToTheTarget := by
  intro m1 m2 s
  have jnz := exec_jnz m1 m2 s
  have jz := exec_jz m1 m2 s
  refine ⟨fun f hf => ?_, fun c hc => ⟨fun f hf => ?_, fun t ht => ⟨fun hk h0 => ?_, fun hk hp => ?_, fun hk hp => ?_,
    fun hk h0 => ?_, fun hk hp => ?_, fun hk hp => ?_⟩⟩⟩
  · exact ⟨faultsWith_of_jumpOutcome_error jnz (jumpOutcome_of_condition_error hf),
      faultsWith_of_jumpOutcome_error jz (jumpOutcome_of_condition_error hf)⟩
  · exact ⟨faultsWith_of_jumpOutcome_error jnz (jumpOutcome_of_target_error hc hf),
      faultsWith_of_jumpOutcome_error jz (jumpOutcome_of_target_error hc hf)⟩
  · exact exec_of_jumpOutcome_ok jnz (jumpOutcome_of_taken hc ht (decide_eq_true hk) h0)
  · exact exec_of_not_taken jnz hc ht (decide_eq_false (not_not_intro hk)) hp
  · exact faultsWith_of_not_taken jnz hc ht (decide_eq_false (not_not_intro hk)) hp
  · exact exec_of_jumpOutcome_ok jz (jumpOutcome_of_taken hc ht (decide_eq_true hk) h0)
  · exact exec_of_not_taken jz hc ht (decide_eq_false hk) hp
  · exact faultsWith_of_not_taken jz hc ht (decide_eq_false hk) hp

/-- Settles O23: the target's sign is checked in the taken branch alone. -/
theorem negativeTargetsFaultAtTheJump : Obligations.NegativeTargetsFaultAtTheJump := by
  intro m1 m2 s c t hc ht hneg
  have jnz := exec_jnz m1 m2 s
  have jz := exec_jz m1 m2 s
  refine ⟨fun hk => ?_, fun hk => ?_, fun hk hp => ?_, fun hk hp => ?_⟩
  · exact faultsWith_of_jumpOutcome_error jnz (jumpOutcome_of_taken_negative hc ht (decide_eq_true hk) hneg)
  · exact faultsWith_of_jumpOutcome_error jz (jumpOutcome_of_taken_negative hc ht (decide_eq_true hk) hneg)
  · exact exec_of_not_taken jnz hc ht (decide_eq_false (not_not_intro hk)) hp
  · exact exec_of_not_taken jz hc ht (decide_eq_false hk) hp

end Sys2Proof.Machine
end

section
/-! PROOF. LT and EQ: the result is the truth value of the comparison, as the `int64` 1 or 0 (R170 to R172). -/

namespace Sys2Proof.Machine

/-! ## The truth value of a comparison -/

theorem truthWord_decide (p : Prop) [Decidable p] : truthWord (decide p) = if p then word 1 else word 0 := by
  simp only [truthWord, decide_eq_true_eq]

theorem lessResult_eq (a b : Word) : lessResult a b = .ok (if a.val < b.val then word 1 else word 0) := by
  rw [lessResult, truthWord_decide]

theorem equalResult_eq (a b : Word) : equalResult a b = .ok (if a.val = b.val then word 1 else word 0) := by
  rw [equalResult, truthWord_decide]

/-- Settles O16: a comparison never faults by its result, so an instruction whose operands resolve stores it. -/
theorem comparisonsStoreOneOrZero : Obligations.ComparisonsStoreOneOrZero := by
  intro m1 m2 m3 s a b d ha hb hd hacc hp
  have hlt : exec (.lt m1 m2 m3) s = settle (computeInto lessResult m1 m2 m3 s) := rfl
  have heq : exec (.eq m1 m2 m3) s = settle (computeInto equalResult m1 m2 m3 s) := rfl
  constructor
  · exact exec_of_computeOutcome_ok hlt (computeOutcome_of_resolved ha hb hd (lessResult_eq a b) hacc hp)
  · exact exec_of_computeOutcome_ok heq (computeOutcome_of_resolved ha hb hd (equalResult_eq a b) hacc hp)

end Sys2Proof.Machine
end

section
/-! PROOF. The relative base: ARB by its outcome, in the order of its checks (R180, R302, items 4, 5 and 8), and nothing else
writes the base (R181). -/

namespace Sys2Proof.Machine

/-! ## ARB -/

/-- R302, items 4, 5 and 8, for ARB: the first fault, or the new base. -/
def arbOutcome (m : Mode) (s : State) : Except ExecFault Word :=
  match operandValue 1 m s with
  | .error e => .error e
  | .ok v =>
    match sumResult s.rb v with
    | .error e => .error e
    | .ok r =>
      match nextPc 2 s with
      | .error e => .error e
      | .ok _ => .ok r

theorem arbOutcome_of_operand_error {m : Mode} {s : State} {e : ExecFault} (hv : operandValue 1 m s = .error e) :
    arbOutcome m s = .error e := by
  simp only [arbOutcome, hv]

theorem arbOutcome_of_sum_error {m : Mode} {s : State} {v : Word} {e : ExecFault} (hv : operandValue 1 m s = .ok v)
    (hr : sumResult s.rb v = .error e) : arbOutcome m s = .error e := by
  simp only [arbOutcome, hv, hr]

theorem arbOutcome_of_advance_error {m : Mode} {s : State} {v r : Word} {e : ExecFault}
    (hv : operandValue 1 m s = .ok v) (hr : sumResult s.rb v = .ok r) (hp : nextPc 2 s = .error e) :
    arbOutcome m s = .error e := by
  simp only [arbOutcome, hv, hr, hp]

/-- R303: an ARB that faults does so with the fault of its outcome, and leaves the base. -/
theorem arb_faults_of_outcome_error {m : Mode} {s : State} {e : ExecFault} (h : arbOutcome m s = .error e) :
    FaultsWith (.arb m) s e := by
  rcases execArb_cases m s with ⟨v, r, hv, hr, hp⟩ | ⟨f, mem, hm, hx, hf⟩
  · have hn : nextPc 2 s = .ok (s.pc + 2) := if_pos hp
    simp only [arbOutcome, hv, hr, hn, reduceCtorEq] at h
  · have hout : arbOutcome m s = .error f := by
      rcases hf with hv | ⟨v, hv, hr⟩ | ⟨v, r, hv, hr, hp⟩
      · exact arbOutcome_of_operand_error hv
      · exact arbOutcome_of_sum_error hv hr
      · exact arbOutcome_of_advance_error hv hr hp
    obtain rfl : f = e := Except.error.inj (hout.symm.trans h)
    exact faultsWith_of_grown hm hx

/-- Settles O24: a fault of the operand, then of the sum, then of the advance, or the new base. -/
theorem arbAddsToTheBase : Obligations.ArbAddsToTheBase := by
  refine fun m s => ⟨fun f hf => ?_, fun v hv => ⟨fun r hr => ?_, fun hover => ?_⟩⟩
  · exact arb_faults_of_outcome_error (arbOutcome_of_operand_error hf)
  · have hsum : sumResult s.rb v = .ok r := by rw [sumResult, ← hr, exactResult_val]
    refine ⟨fun hp => ?_, fun hp => ?_⟩
    · obtain ⟨-, hx⟩ := execArb_ok hv hsum hp
      exact hx
    · exact arb_faults_of_outcome_error (arbOutcome_of_advance_error hv hsum (nextPc_of_overflow hp))
  · exact arb_faults_of_outcome_error (arbOutcome_of_sum_error hv (exactResult_of_overflow hover))

/-! ## The only writer of the base -/

/-- R181: by the shape of its next state, an instruction other than ARB keeps the base. -/
theorem ExecShape.rb_eq {i : Instr} {s t : State} (h : ExecShape i s t) (hi : ∀ m, i ≠ .arb m) : t.rb = s.rb := by
  cases h with
  | completes u m rb pc called mem hpc hrb => exact hrb hi
  | faults u m f called mem =>
    rw [enterFaulted_rb, State.setMem_rb]
    exact congrArg Executor.rb called.exe
  | halts hi => exact enterHalted_rb s
  | held m hi hb => rfl

/-- R181: a step of an executor keeps the base, or executes the ARB it has fetched. -/
theorem StepShape.rb_eq_or_arb {s t : State} (h : StepShape s t) :
    t.rb = s.rb ∨ ∃ w m, peek s (s.pc : Int) = .ok w ∧ decode w = .ok (.arb m) := by
  cases h with
  | halts h => exact .inl (by simp)
  | held h hw => exact .inl rfl
  | fetchFaults f m h hw hm => exact .inl (by simp)
  | executes w i t h hw hp hd hb hx =>
    by_cases hi : ∃ m, i = .arb m
    · obtain ⟨m, rfl⟩ := hi
      exact .inr ⟨w, m, (capShouldHalt_peek s _).symm.trans hp, hd⟩
    · have hkept := (exec_shape hx).rb_eq (not_exists.1 hi)
      exact .inl (by rw [hkept, State.setMem_rb, capShouldHalt_rb])

/-! ## The stages out of focus (R20, R341) -/

/-- A change of the stage in focus alone, in the list of executors. -/
theorem SameOthers.executors_eq_set {s t : State} (h : SameOthers s t) :
    t.executors = s.executors.set s.stageIndex (t.cur.exe, t.cur.cap) := by
  have pair : ∀ u : State, u.executors = (u.stages.map Stage.own).map fun o => (o.1, o.2.1) := fun u => by
    rw [List.map_map]
    rfl
  rw [pair t, pair s, h.own]
  simp [State.stages, State.stageIndex, Stage.own]

/-- What two lists of executors say of one stage. -/
theorem stage_of_executors_eq {s t : State} {k : Nat} {st : Stage} (h : t.executors[k]? = s.executors[k]?)
    (hst : s.stages[k]? = some st) : ∃ st', t.stages[k]? = some st' ∧ st'.exe = st.exe ∧ st'.cap = st.cap := by
  simp only [State.executors, List.getElem?_map, hst, Option.map_some, Option.map_eq_some_iff, Prod.mk.injEq] at h
  exact h

theorem State.executors_of_stages {s t : State} (h : t.stages = s.stages) : t.executors = s.executors := by
  simp only [State.executors, h]

/-- R341: a move of a ring changes the executor and the capability of the stage in focus alone, and only while it is Running. -/
theorem ringStep_keeps_executor {s t : State} {k : Nat} (hj : s.job = .ring) (hx : step s = .next t)
    (hk : k ≠ s.stageIndex ∨ s.run ≠ .running) : t.executors[k]? = s.executors[k]? := by
  rcases ringStep_cases hj hx with ⟨-, rfl⟩ | ⟨-, hr, u, -, hshape, -, rfl⟩ | ⟨-, -, rfl⟩
  · rw [State.executors_of_stages (finishJob_stages _ _), joinAll_executors]
  · have hne : k ≠ s.stageIndex := hk.resolve_right (not_not_intro hr)
    rw [State.executors_of_stages u.nextTurn_stages, hshape.sameOthers.executors_eq_set, List.getElem?_set_ne hne.symm]
  · rw [State.executors_of_stages (State.nextTurn_stages _), joinStage_executors]

/-- Settles O30, by the shapes of an instruction and of a step, the frame of the calls, and the moves of a ring. -/
theorem onlyArbWritesTheBase : Obligations.OnlyArbWritesTheBase := by
  refine ⟨fun i s t hi hx => (exec_shape hx).rb_eq hi, fun s v => ?_, fun s t hx hne => ?_,
    fun s t k st hj hx hst hk => stage_of_executors_eq (ringStep_keeps_executor hj hx hk) hst, fun _ _ _ => rfl⟩
  · have kept : ∀ {u : State}, u.cur.exe = s.cur.exe → u.rb = s.rb := congrArg Executor.rb
    exact ⟨capShouldHalt_rb s, kept (capWrite_exe v s), kept (capOnFinished_exe s), fun w t h => kept (capRead_exe h)⟩
  · exact (executorStep_shape hx).rb_eq_or_arb.resolve_left hne

end Sys2Proof.Machine
end

section
/-! PROOF. The order of faults of ADD, MUL, LT and EQ (R302, R116), and IN under buffered replay (R321). -/

namespace Sys2Proof.Machine

/-- Each of the four instructions is `computeInto` of its own computation. -/
theorem exec_eq_computeInto {m1 m2 m3 : Mode} {p : Instr × (Word → Word → Except ExecFault Word)}
    (h : p ∈ [(Instr.add m1 m2 m3, sumResult), (Instr.mul m1 m2 m3, productResult), (Instr.lt m1 m2 m3, lessResult),
      (Instr.eq m1 m2 m3, equalResult)]) (s : State) : exec p.1 s = settle (computeInto p.2 m1 m2 m3 s) := by
  simp only [List.mem_cons, List.not_mem_nil, or_false] at h
  obtain rfl | rfl | rfl | rfl := h <;> rfl

/-- Settles O17: `computeOutcome` is the outcome of `computeInto`, which each of the four instructions is. -/
theorem computeReportsFirstFault : Obligations.ComputeReportsFirstFault := by
  intro m1 m2 m3 s p hp
  have hi := exec_eq_computeInto hp s
  exact ⟨fun f => faultsWith_of_computeOutcome_error hi, fun d r => exec_of_computeOutcome_ok hi⟩

/-- R150, R65: an answered IN leaves the answer in its cell. -/
theorem read_of_storing {s : State} {a d pc : Nat} {v : Word} (hw : s.mem.wf = true) (ha : a ≤ maxAddr) :
    (s.storing a d v pc).mem.read d = v :=
  Memory.read_write_same (Memory.wf_grow hw ha) d v

/-- R321: an empty queue of buffered replay. -/
theorem inp_faults_of_exhausted {m : Mode} {s : State} {d : Nat} (hd : operandAddress 1 m s = .ok d)
    (hr : capRead s = .exhausted) : FaultsWith (.inp m) s .inputExhausted := by
  obtain ⟨hb, -, hdest⟩ := destOperand_ok hd
  exact faultsWith_of_grown (Memory.grown_grow s.mem hb) (by simp only [exec, execInp, hdest, capRead_setMem, hr])

/-- Settles O19: the answer of a nonempty queue is its head, an empty queue has none, and a halt leaves the queue. -/
theorem replayGivesInputsInOrder : Obligations.ReplayGivesInputsInOrder := by
  refine ⟨fun m s d v rest outl hc hd hacc hp => ?_, fun m s d outl hc hd => ?_, fun s inq outl hc => ?_⟩
  · have hr : capRead s = .value v (s.setCap (.replay rest outl)) := by simp only [capRead, hc]
    obtain ⟨hb, -, hx⟩ := execInp_ok hd hr hacc hp
    exact ⟨_, hx, rfl, rfl, fun hw => read_of_storing (s := s.setCap (.replay rest outl)) hw hb⟩
  · exact inp_faults_of_exhausted hd (by simp only [capRead, hc])
  · refine ⟨enterHalted s, rfl, by simp, ?_⟩
    rw [enterHalted_of_replay hc]
    exact hc

end Sys2Proof.Machine
end

section
/-! PROOF. Channels: the two operations case by case (R325), and the send of a stage to its successor (R327, R340). -/

namespace Sys2Proof.Machine

theorem Channel.send_alive {ch : Channel} (h : ch.receiverAlive = true) (v : Word) :
    ch.send v = { ch with queue := ch.queue ++ [v] } := if_pos h

theorem Channel.send_gone {ch : Channel} (h : ch.receiverAlive = false) (v : Word) : ch.send v = ch := by
  simp only [Channel.send, h, Bool.false_eq_true, if_false]

theorem Channel.receive_cons {ch : Channel} {v : Word} {rest : List Word} (h : ch.queue = v :: rest) (r : ReadOnClosed) :
    ch.receive r = .value v { ch with queue := rest } := by
  simp only [Channel.receive, h]

/-- R325, R11: a receive blocks on an empty channel alone, while the sender is connected or for good under `Block`. -/
theorem Channel.receive_blocked_iff {ch : Channel} {r : ReadOnClosed} :
    ch.receive r = .blocked ↔ ch.queue = [] ∧ (ch.senderConnected = true ∨ r = .block) := by
  unfold Channel.receive
  split
  · next h => simp [h]
  · next h =>
    cases hs : ch.senderConnected with
    | true => simp [h]
    | false => cases r <;> simp [h]

theorem Channel.receive_closed {ch : Channel} (h : ch.queue = []) (hs : ch.senderConnected = false) :
    ch.receive .zero = .value Word.zero ch := by
  simp only [Channel.receive, h, hs, Bool.false_eq_true, if_false]

/-- Sends to a live receiver queue up in their order. -/
theorem Channel.foldl_send {ch : Channel} (h : ch.receiverAlive = true) (vs : List Word) :
    vs.foldl (fun ch w => ch.send w) ch = { ch with queue := ch.queue ++ vs } := by
  induction vs generalizing ch with
  | nil => simp
  | cons v vs ih =>
    rw [List.foldl_cons, Channel.send_alive h, ih (ch := { ch with queue := ch.queue ++ [v] }) h]
    simp

/-- Settles O36: the cases of the two operations, and the induction over the values sent. -/
theorem channelsAreFifo : Obligations.ChannelsAreFifo := by
  refine ⟨fun v ch h => Channel.send_alive h v, fun v ch h => Channel.send_gone h v,
    fun r v rest ch h => Channel.receive_cons h r, fun r ch h hs => ?_, fun ch h hs => ?_, fun vs v ch h ha r => ?_⟩
  · exact Channel.receive_blocked_iff.2 ⟨h, .inl hs⟩
  · exact ⟨Channel.receive_closed h hs, Channel.receive_blocked_iff.2 ⟨h, .inr rfl⟩⟩
  · rw [Channel.foldl_send ha, h]
    exact Channel.receive_cons rfl r

/-! ## The OUT of a stage -/

theorem map_modify {α β : Type} {g : α → β} {f : α → α} {f' : β → β} (h : ∀ a, g (f a) = f' (g a)) (xs : List α) (k : Nat) :
    (xs.modify k f).map g = (xs.map g).modify k f' := by
  refine List.ext_getElem? fun i => ?_
  simp only [List.getElem?_map, List.getElem?_modify]
  cases xs[i]? with
  | none => rfl
  | some a => by_cases e : k = i <;> simp [e, h]

/-- R340, R327: of all inbound channels, a stage's write changes that of stage (i+1) mod N, which is sent the value. -/
theorem capWrite_inbounds {s : State} {last : Option Word} (hc : s.cur.cap = .stage last) (v : Word) :
    (capWrite v s).stages.map Stage.inbound =
      (s.stages.map Stage.inbound).modify ((s.stageIndex + 1) % s.stageCount) (Channel.send v) := by
  have hset : (s.setCap (.stage (some v))).stages.map Stage.inbound = s.stages.map Stage.inbound := by
    simp [State.stages, State.setCap]
  simp only [capWrite, hc]
  rw [State.stages_mapOutbound, map_modify (g := Stage.inbound) (Stage.mapInbound_inbound (Channel.send v)), hset]
  rfl

theorem Channel.send_eq_ite (v : Word) (ch : Channel) :
    ch.send v = if ch.receiverAlive = true then { ch with queue := ch.queue ++ [v] } else ch := rfl

/-- R327, R340: the channels after an OUT that goes on, stage by stage. -/
theorem goingOn_capWrite_inbound {s : State} {last : Option Word} (hc : s.cur.cap = .stage last) (v : Word) (reach pc : Nat)
    {k : Nat} {st : Stage} (hk : s.stages[k]? = some st) :
    ∃ st', ((capWrite v s).goingOn reach pc).stages[k]? = some st' ∧
      st'.inbound = if k = (s.stageIndex + 1) % s.stageCount then st.inbound.send v else st.inbound := by
  have hexe : ((capWrite v s).goingOn reach pc).stages.map Stage.inbound = (capWrite v s).stages.map Stage.inbound := by
    simp [State.stages, State.goingOn, State.setMem, State.setPc]
  rw [capWrite_inbounds hc] at hexe
  have hget := congrArg (fun inbounds => inbounds[k]?) hexe
  simp only [List.getElem?_map, List.getElem?_modify, hk, Option.map_some, Option.map_eq_some_iff,
    Option.map_eq_map] at hget
  obtain ⟨st', hst', he⟩ := hget
  exact ⟨st', hst', he.trans (by simp only [eq_comm (a := k)])⟩

/-- Settles O21: an OUT that completes is the write and a change of the executor; the write sends on one channel, and changes
nothing else of the other stages. -/
theorem stageOutSendsToSuccessor : Obligations.StageOutSendsToSuccessor := by
  intro m s t v last hc hv hp hx
  obtain ⟨-, ho⟩ := execOut_ok hv hp
  cases ho.symm.trans hx
  have hturn : WithinTurn s ((capWrite v s).goingOn (sourceReach 1 m s) (s.pc + 2)) :=
    ((WithinTurn.refl ⟨last, hc⟩).called (i := .out m) (.inr (.inl ⟨m, v, rfl, rfl⟩))).setExe _
  refine ⟨by simp [State.goingOn, capWrite, hc], hturn.others.stageCount, fun k st hk => ?_⟩
  obtain ⟨st', hk', hin⟩ := goingOn_capWrite_inbound hc v (sourceReach 1 m s) (s.pc + 2) hk
  obtain ⟨st0, hk0, -, hjoin, hother, -⟩ := hturn.others.pointwise hturn.flags hk'
  obtain rfl : st = st0 := Option.some.inj (hk.symm.trans hk0)
  refine ⟨st', hk', fun hne => ⟨(hother hne).1, (hother hne).2, hjoin⟩, ?_⟩
  rw [hin, Channel.send_eq_ite, ite_and]

end Sys2Proof.Machine
end

section
/-! PROOF. Faults are precise (R303): an instruction that faults has grown memory at most, and the host sides are those its one
call left (R152). -/

namespace Sys2Proof.Machine

/-- R123: an instruction that ends the run with a fault has taken it in the state its call left, over a memory that has grown at
most. -/
theorem ExecShape.faulted {i : Instr} {s t : State} {f : ExecFault} {pc : Nat} (h : ExecShape i s t)
    (hr : s.run = .running) (ht : t.run = .faulted f pc) :
    ∃ u m, Called i s u ∧ s.mem.Grown m ∧ t = enterFaulted f (u.setMem m) := by
  cases h with
  | completes u m rb pc' called mem hpc hrb =>
    have hu : u.run = .running := (congrArg Executor.run called.exe).trans hr
    exact absurd (hu.symm.trans ht) nofun
  | faults u m g called mem =>
    rw [enterFaulted_run, RunState.faulted.injEq] at ht
    obtain ⟨rfl, -⟩ := ht
    exact ⟨u, m, called, mem, rfl⟩
  | halts hi => simp at ht
  | held m hi hb => exact absurd (hr.symm.trans ht) nofun

theorem sameExecutor_of_called {i : Instr} {s u : State} {f : ExecFault} {m : Memory} (h : Called i s u)
    (hm : s.mem.Grown m) : SameExecutor s (enterFaulted f (u.setMem m)) :=
  ⟨by simp [State.pc, h.exe], by simp [State.rb, h.exe], by simp [State.finished, h.exe], fun a => by simp [hm.read]⟩

/-! ## The host sides -/

@[simp] theorem State.setExe_hostSides (s : State) (e : Executor) : (s.setExe e).hostSides = s.hostSides := by
  simp only [State.hostSides, State.stages, State.setExe, List.map_append, List.map_cons]

theorem StoresNothing.hostSides {rb : Word} {s t : State} (h : StoresNothing rb s t) : t.hostSides = s.hostSides := by
  cases h with
  | goesOn m pc hm => exact s.setExe_hostSides { s.cur.exe with mem := m, rb := rb, pc := pc }
  | faults f m hm => simp

/-- R303: an IN that ends the run has consumed the answer exactly when its address resolves and its read is answered. -/
theorem inp_ended_hostSides {m : Mode} {s t : State} (hx : exec (.inp m) s = .next t) (hr : s.run = .running)
    (ht : t.run ≠ .running) :
    (∀ d v, operandAddress 1 m s = .ok d → answerOf s = some v → t.hostSides = (answered v s).hostSides) ∧
      ((∀ d, operandAddress 1 m s ≠ .ok d) ∨ answerOf s = none → t.hostSides = s.hostSides) := by
  cases exec_inp_shape hx with
  | stored d v hd ha => exact absurd ((congrArg Executor.run (answered_exe ha)).trans hr) ht
  | faultsAfterRead d v f mem hd ha hm =>
    refine ⟨fun d' v' _ ha' => ?_, fun hno => ?_⟩
    · obtain rfl : v = v' := Option.some.inj (ha.symm.trans ha')
      simp
    · simp [hd, ha] at hno
  | faultsBeforeRead f mem hm hno =>
    refine ⟨fun d v hd ha => ?_, fun _ => by simp⟩
    simp [hd, ha] at hno
  | held hno => exact absurd hr ht

/-- R303, R29: an OUT has written its operand exactly when it resolves. -/
theorem out_hostSides {m : Mode} {s t : State} (hx : exec (.out m) s = .next t) :
    (∀ v, operandValue 1 m s = .ok v → t.hostSides = (emitted v s).hostSides) ∧
      ((∀ v, operandValue 1 m s ≠ .ok v) → t.hostSides = s.hostSides) := by
  have h := (out_storesNothing hx).hostSides
  refine ⟨fun v hv => by rwa [afterOut_of_value hv] at h, fun hno => ?_⟩
  cases hv : operandValue 1 m s with
  | ok v => exact absurd hv (hno v)
  | error f => rwa [afterOut_of_error hv] at h

/-- R152: an instruction other than IN and OUT makes no transfer. -/
theorem Called.eq_of_silent {i : Instr} {s u : State} (h : Called i s u) (hin : ∀ m, i ≠ .inp m) (hout : ∀ m, i ≠ .out m) :
    u = s := by
  obtain rfl | ⟨m, v, hi, -⟩ | ⟨m, v, hi, -⟩ := h
  · rfl
  · exact absurd hi (hout m)
  · exact absurd hi (hin m)

/-- Settles O29: the fault is taken in the state the call left, and the call is that of IN, of OUT, or none. -/
theorem faultsArePrecise : Obligations.FaultsArePrecise := by
  intro i s t f pc hr hx ht
  obtain ⟨u, m, called, hm, rfl⟩ := (exec_shape hx).faulted hr ht
  have hpc : u.pc = s.pc := congrArg Executor.pc called.exe
  rw [enterFaulted_run, RunState.faulted.injEq] at ht
  obtain ⟨-, rfl⟩ := ht
  refine ⟨hpc, sameExecutor_of_called called hm, by simpa using hm.len_le, ?_, ?_, fun hin hout => ?_⟩
  · rintro md rfl
    exact inp_ended_hostSides hx hr (enterFaulted_run_ne_running _ _)
  · rintro md rfl
    exact out_hostSides hx
  · rw [called.eq_of_silent hin hout]
    simp

end Sys2Proof.Machine
end

section
/-! PROOF. The executor and the host side do not see each other: a capability call is the same whatever the executor is (R331), and
an instruction leaves the same executor whatever the host side is (R29). -/

namespace Sys2Proof.Machine

/-! ## The calls commute with a change of the executor -/

theorem mapOutbound_setExe (f : Channel → Channel) (s : State) (e : Executor) :
    (s.setExe e).mapOutbound f = (s.mapOutbound f).setExe e := by
  obtain ⟨cfg, prog, before, cur, after, result, job, search, schedule, turns⟩ := s
  cases after with
  | cons next rest => rfl
  | nil => cases before <;> rfl

theorem capShouldHalt_setExe (s : State) (e : Executor) :
    capShouldHalt (s.setExe e) = ((capShouldHalt s).1, (capShouldHalt s).2.setExe e) := by
  have hcap : (s.setExe e).cur.cap = s.cur.cap := rfl
  cases hc : s.cur.cap with
  | replay inq outl => simp only [capShouldHalt, hcap, hc]
  | stage last => simp only [capShouldHalt, hcap, hc]
  | controller c => simp only [capShouldHalt, hcap, hc]; rfl

theorem capWrite_setExe (v : Word) (s : State) (e : Executor) : capWrite v (s.setExe e) = (capWrite v s).setExe e := by
  have hcap : (s.setExe e).cur.cap = s.cur.cap := rfl
  cases hc : s.cur.cap with
  | replay inq outl => simp only [capWrite, hcap, hc]; rfl
  | stage last =>
    simp only [capWrite, hcap, hc]
    exact mapOutbound_setExe (Channel.send v) (s.setCap (.stage (some v))) e
  | controller c => simp only [capWrite, hcap, hc]; rfl

theorem capOnFinished_setExe (s : State) (e : Executor) : capOnFinished (s.setExe e) = (capOnFinished s).setExe e := by
  have hcap : (s.setExe e).cur.cap = s.cur.cap := rfl
  have hafter : (s.setExe e).after = s.after := rfl
  cases hc : s.cur.cap with
  | replay inq outl => simp only [capOnFinished, hcap, hc]
  | stage last => by_cases h : s.after = [] <;> (simp only [capOnFinished, hcap, hafter, hc, h]; rfl)
  | controller c => simp only [capOnFinished, hcap, hc]; rfl

/-- An answer with another executor in focus after the call. -/
def ReadAnswer.setExe (e : Executor) : ReadAnswer → ReadAnswer
  | .value v t => .value v (t.setExe e)
  | .blocked => .blocked
  | .exhausted => .exhausted

theorem capRead_setExe (s : State) (e : Executor) : capRead (s.setExe e) = (capRead s).setExe e := by
  have hcap : (s.setExe e).cur.cap = s.cur.cap := rfl
  have hin : (s.setExe e).cur.inbound.receive (s.setExe e).cfg.readOnClosed = s.cur.inbound.receive s.cfg.readOnClosed := rfl
  cases hc : s.cur.cap with
  | replay inq outl => cases inq <;> (simp only [capRead, hcap, hc]; rfl)
  | stage last => cases hr : s.cur.inbound.receive s.cfg.readOnClosed <;> (simp only [capRead, hcap, hc, hin, hr]; rfl)
  | controller c => cases hr : c.pendingRead <;> (simp only [capRead, hcap, hc, hr]; rfl)

/-- Settles O32: each call commutes with a change of the executor. -/
theorem callsNeverTouchTheExecutor : Obligations.CallsNeverTouchTheExecutor := by
  refine ⟨fun s v => ⟨capShouldHalt_exe s, capWrite_exe v s, capOnFinished_exe s, releaseEndpoints_exe s,
    fun w t => capRead_exe⟩, fun s e v => ⟨capShouldHalt_setExe s e, capWrite_setExe v s e, capOnFinished_setExe s e, ?_⟩⟩
  rw [capRead_setExe]
  cases capRead s <;> rfl

/-! ## An instruction under two hosts -/

/-- The same executor and the same parameters, whatever the host side. -/
structure SameMachine (s t : State) : Prop where
  exe : t.cur.exe = s.cur.exe
  cfg : t.cfg = s.cfg

theorem SameMachine.setMem {s t : State} (h : SameMachine s t) (m : Memory) : SameMachine (s.setMem m) (t.setMem m) :=
  ⟨by simp only [State.setMem, h.exe], h.cfg⟩

theorem SameMachine.setPc {s t : State} (h : SameMachine s t) (pc : Nat) : SameMachine (s.setPc pc) (t.setPc pc) :=
  ⟨by simp only [State.setPc, h.exe], h.cfg⟩

theorem SameMachine.setRb {s t : State} (h : SameMachine s t) (rb : Word) : SameMachine (s.setRb rb) (t.setRb rb) :=
  ⟨by simp only [State.setRb, h.exe], h.cfg⟩

theorem SameMachine.mem {s t : State} (h : SameMachine s t) : t.mem = s.mem := congrArg Executor.mem h.exe
theorem SameMachine.pc {s t : State} (h : SameMachine s t) : t.pc = s.pc := congrArg Executor.pc h.exe
theorem SameMachine.rb {s t : State} (h : SameMachine s t) : t.rb = s.rb := congrArg Executor.rb h.exe

/-- Two attempts that go on with the same value, or stop with the same fault, over the same executor. -/
inductive Attempt.Agree {α : Type} : Attempt α → Attempt α → Prop where
  | ok (a : α) {s t : State} (h : SameMachine s t) : Agree (.ok a s) (.ok a t)
  | fault (f : ExecFault) {s t : State} (h : SameMachine s t) : Agree (.fault f s) (.fault f t)

theorem Attempt.Agree.andThen {α β : Type} {x y : Attempt α} {k k' : α → State → Attempt β} (h : x.Agree y)
    (hk : ∀ a {s t}, SameMachine s t → (k a s).Agree (k' a t)) : (x.andThen k).Agree (y.andThen k') := by
  cases h with
  | ok a h => exact hk a h
  | fault f h => exact .fault f h

theorem Attempt.Agree.of_fault {α : Type} {f : ExecFault} {s : State} {y : Attempt α}
    (h : (Attempt.fault f s : Attempt α).Agree y) : ∃ t, y = .fault f t ∧ SameMachine s t := by
  cases h with
  | fault _ h => exact ⟨_, rfl, h⟩

section Agree

variable {s t : State} (h : SameMachine s t)

include h

theorem attempt_agree {α : Type} (x : Except ExecFault α) : (attempt x s).Agree (attempt x t) := by
  cases x with
  | ok a => exact .ok a h
  | error f => exact .fault f h

theorem memRead_agree (a : Int) : (memRead a s).Agree (memRead a t) := by
  unfold memRead
  rw [h.cfg, h.mem]
  split
  · exact .fault _ h
  · exact .ok _ (h.setMem _)

theorem memWrite_agree (a : Int) (v : Word) : (memWrite a v s).Agree (memWrite a v t) := by
  unfold memWrite
  rw [h.cfg, h.mem]
  split
  · exact .fault _ h
  · exact .ok _ (h.setMem _)

theorem nextPc_agree (len : Nat) : nextPc len t = nextPc len s := by
  simp only [nextPc, h.pc]

theorem paramWord_agree (k : Nat) : (paramWord k s).Agree (paramWord k t) := by
  simp only [paramWord, h.pc]
  exact memRead_agree h _

theorem sourceOperand_agree (k : Nat) (m : Mode) : (sourceOperand k m s).Agree (sourceOperand k m t) := by
  refine (paramWord_agree h k).andThen fun p u w hu => ?_
  have readResolved : ∀ md, ((attempt (effectiveAddress k md p u.rb) u).andThen fun a s => memRead (a : Int) s).Agree
      ((attempt (effectiveAddress k md p w.rb) w).andThen fun a s => memRead (a : Int) s) := by
    intro md
    rw [hu.rb]
    exact (attempt_agree hu _).andThen fun a _ _ hu' => memRead_agree hu' a
  cases m with
  | imm => exact .ok p hu
  | pos => exact readResolved .pos
  | rel => exact readResolved .rel

theorem destOperand_agree (k : Nat) (m : Mode) : (destOperand k m s).Agree (destOperand k m t) := by
  refine (paramWord_agree h k).andThen fun p u w hu => ?_
  rw [hu.rb]
  exact attempt_agree hu _

theorem advance_agree (len : Nat) : (advance len s).Agree (advance len t) := by
  unfold advance
  rw [nextPc_agree h]
  exact (attempt_agree h _).andThen fun pc _ _ hu => .ok () (hu.setPc pc)

theorem storeAndAdvance_agree (d : Nat) (v : Word) (len : Nat) :
    (storeAndAdvance d v len s).Agree (storeAndAdvance d v len t) := by
  refine (memWrite_agree h d v).andThen fun _ u w hu => ?_
  rw [nextPc_agree h]
  exact (attempt_agree h _).andThen fun pc _ _ _ => .ok () (hu.setPc pc)

theorem rebaseAndAdvance_agree (rb : Word) (len : Nat) : (rebaseAndAdvance rb len s).Agree (rebaseAndAdvance rb len t) := by
  unfold rebaseAndAdvance
  rw [nextPc_agree h]
  exact (attempt_agree h _).andThen fun pc _ _ hu => .ok () ((hu.setRb rb).setPc pc)

theorem jumpTo_agree (target : Word) : (jumpTo target s).Agree (jumpTo target t) := by
  unfold jumpTo
  split
  · exact .fault _ h
  · exact .ok () (h.setPc _)

theorem computeInto_agree (f : Word → Word → Except ExecFault Word) (m1 m2 m3 : Mode) :
    (computeInto f m1 m2 m3 s).Agree (computeInto f m1 m2 m3 t) :=
  (sourceOperand_agree h 1 m1).andThen fun a _ _ h1 =>
    (sourceOperand_agree h1 2 m2).andThen fun b _ _ h2 =>
      (destOperand_agree h2 3 m3).andThen fun d _ _ h3 =>
        (attempt_agree h3 (f a b)).andThen fun r _ _ h4 => storeAndAdvance_agree h4 d r 4

theorem jumpWhen_agree (taken : Word → Bool) (m1 m2 : Mode) : (jumpWhen taken m1 m2 s).Agree (jumpWhen taken m1 m2 t) := by
  refine (sourceOperand_agree h 1 m1).andThen fun c _ _ h1 => (sourceOperand_agree h1 2 m2).andThen fun target _ _ h2 => ?_
  split
  · exact jumpTo_agree h2 target
  · exact advance_agree h2 3

theorem capWrite_agree (v : Word) : SameMachine (capWrite v s) (capWrite v t) :=
  ⟨by rw [capWrite_exe, capWrite_exe, h.exe], (capWrite_sameJob v t).1.trans (h.cfg.trans (capWrite_sameJob v s).1.symm)⟩

theorem operandAddress_agree (k : Nat) (m : Mode) : operandAddress k m t = operandAddress k m s := by
  simp only [operandAddress, peek_congr h.exe h.cfg, h.pc, h.rb]

theorem operandValue_agree (k : Nat) (m : Mode) : operandValue k m t = operandValue k m s := by
  simp only [operandValue, peek_congr h.exe h.cfg, h.pc, h.rb]

end Agree

theorem enterFaulted_agree {s t : State} (h : SameMachine s t) (f : ExecFault) :
    (enterFaulted f t).cur.exe = (enterFaulted f s).cur.exe := by
  simp only [enterFaulted, releaseEndpoints_exe, State.setRun, State.pc, h.exe]

/-- The next states of two attempts that agree have the same executor. -/
theorem Attempt.Agree.settle {x y : Attempt Unit} (h : x.Agree y) {s t : State} (hx : settle x = .next s)
    (hy : settle y = .next t) : t.cur.exe = s.cur.exe := by
  cases hx
  cases hy
  cases h with
  | ok a h => exact h.exe
  | fault f h => exact enterFaulted_agree h f

/-- R150: an IN that both hosts answer with the same value, or whose address faults. -/
theorem inp_agree {m : Mode} {s s' t t' : State} {v : Word} (h : SameMachine s s') (ha : answerOf s = some v)
    (ha' : answerOf s' = some v) (hx : exec (.inp m) s = .next t) (hx' : exec (.inp m) s' = .next t') :
    t'.cur.exe = t.cur.exe := by
  cases hd : operandAddress 1 m s with
  | ok d =>
    have hd' : operandAddress 1 m s' = .ok d := (operandAddress_agree h 1 m).trans hd
    rw [exec_inp_of_answer hd ha] at hx
    rw [exec_inp_of_answer hd' ha', h.mem, h.pc] at hx'
    have hans : SameMachine (answered v s) (answered v s') :=
      ⟨by rw [answered_exe ha, answered_exe ha', h.exe],
        (capRead_sameJob (capRead_of_answer ha')).1.trans (h.cfg.trans (capRead_sameJob (capRead_of_answer ha)).1.symm)⟩
    exact (storeAndAdvance_agree (hans.setMem _) d v 2).settle hx hx'
  | error f =>
    obtain ⟨mem, -, hdest⟩ := destOperand_error hd
    have hagree := destOperand_agree h 1 m
    rw [hdest] at hagree
    obtain ⟨u, hdest', hu⟩ := hagree.of_fault
    simp only [exec, execInp, hdest, Host.Outcome.next.injEq] at hx
    simp only [exec, execInp, hdest', Host.Outcome.next.injEq] at hx'
    rw [← hx, ← hx']
    exact enterFaulted_agree hu f

/-- R29, R331: an instruction leaves the same executor under two hosts, if an IN gets the same answer of both. -/
theorem exec_agree {i : Instr} {s s' t t' : State} (h : SameMachine s s')
    (hin : (∀ m, i ≠ .inp m) ∨ ∃ v, answerOf s = some v ∧ answerOf s' = some v) (hx : exec i s = .next t)
    (hx' : exec i s' = .next t') : t'.cur.exe = t.cur.exe := by
  cases i with
  | add m1 m2 m3 => exact (computeInto_agree h sumResult m1 m2 m3).settle hx hx'
  | mul m1 m2 m3 => exact (computeInto_agree h productResult m1 m2 m3).settle hx hx'
  | lt m1 m2 m3 => exact (computeInto_agree h lessResult m1 m2 m3).settle hx hx'
  | eq m1 m2 m3 => exact (computeInto_agree h equalResult m1 m2 m3).settle hx hx'
  | jnz m1 m2 => exact (jumpWhen_agree h _ m1 m2).settle hx hx'
  | jz m1 m2 => exact (jumpWhen_agree h _ m1 m2).settle hx hx'
  | out m =>
    exact ((sourceOperand_agree h 1 m).andThen fun v _ _ hu => advance_agree (capWrite_agree hu v) 2).settle hx hx'
  | arb m =>
    refine ((sourceOperand_agree h 1 m).andThen fun v u w hu => ?_).settle hx hx'
    rw [hu.rb]
    exact (attempt_agree hu _).andThen fun r _ _ hr => rebaseAndAdvance_agree hr r 2
  | halt =>
    cases hx
    cases hx'
    rw [enterHalted_exe, enterHalted_exe, h.exe]
  | inp m =>
    obtain ⟨v, ha, ha'⟩ := hin.resolve_left fun hno => hno m rfl
    exact inp_agree h ha ha' hx hx'

/-- Settles O33: a change of the capability and the inbound channel leaves the same machine. -/
theorem executorIsAgnosticOfTheHost : Obligations.ExecutorIsAgnosticOfTheHost :=
  fun _ s _ _ c ch hx hx' hin =>
    exec_agree (s := s) (s' := (s.setCap c).mapInbound fun _ => ch) ⟨rfl, rfl⟩ hin hx hx'

end Sys2Proof.Machine
end

section
/-! PROOF. Runs under a host transition system (R330): a step gives the host the calls it makes, in their order, and goes by the
host's own answers; buffered replay over a nonempty queue is one such system (R320 to R322). -/

namespace Sys2Proof.Machine

section Driven

variable {S : Type} (H : HostSystem S) (h : S) (s : State)

/-- The state a step under a host system starts from: the controller in focus gives the host's answers. -/
def HostSystem.driven : State := s.setCap (.controller (H.answers h))

/-- After the should_halt check. -/
def HostSystem.checked : State := (capShouldHalt (H.driven h s)).2

/-- After the fetch of a word that decodes. -/
def HostSystem.fetched : State := (H.checked h s).setMem (s.mem.grow s.pc)

theorem HostSystem.fetched_sameMachine : SameMachine (s.setMem (s.mem.grow s.pc)) (H.fetched h s) := ⟨rfl, rfl⟩

theorem HostSystem.checked_callHistory :
    (H.checked h s).callHistory = some [.shouldHalt (H.shouldHalt h).1] := rfl

theorem HostSystem.answerOf_checked : answerOf (H.checked h s) = (H.read (H.shouldHalt h).2).map Prod.fst := rfl

theorem HostSystem.answerOf_fetched : answerOf (H.fetched h s) = (H.read (H.shouldHalt h).2).map Prod.fst := rfl

end Driven

/-! ## One step -/

/-- R125: an executor whose word decodes waits only for the read of an IN. -/
theorem waits_of_decode {s : State} {w : Word} {i : Instr} (hp : peek s (s.pc : Int) = .ok w) (hd : decode w = .ok i)
    (hr : ∀ m, i = .inp m → capRead s ≠ .blocked) : waits s = false := by
  rw [← Bool.not_eq_true, waits_iff]
  rintro ⟨w', m, d, hp', hd', -, hblocked⟩
  obtain rfl : w = w' := Except.ok.inj (hp.symm.trans hp')
  exact hr m (Except.ok.inj (hd.symm.trans hd')) hblocked

section Step

variable {S : Type} {H : HostSystem S} {h : S} {s t : State}

/-- R330: the host makes the calls of the step. -/
theorem HostSystem.step_of_executorStep (hj : s.job = .run) (hr : s.run = .running)
    (hx : executorStep (H.driven h s) = .next t) {calls : List CapEvent} (hc : t.callHistory = some calls) :
    H.step h s = .next (calls.foldl H.call h, t) := by
  have hstep : Machine.step (s.setCap (.controller (H.answers h))) = .next t :=
    (step_eq_executorStep (s := H.driven h s) (.inl hj) hr).trans hx
  obtain ⟨c, hcap, rfl⟩ := callHistory_eq_some hc
  have hafter : H.afterCalls h t.cur.cap = c.history.foldl H.call h := by
    rw [hcap]
    rfl
  simp only [HostSystem.step, hstep, hafter]

theorem HostSystem.callHistory_of_calls {calls : List CapEvent} {u : State} (hu : u.cur.cap = (H.checked h s).cur.cap)
    (ht : AfterCalls u calls t) : t.callHistory = some (.shouldHalt (H.shouldHalt h).1 :: calls) := by
  unfold AfterCalls at ht
  rw [ht, callHistory_congr hu, HostSystem.checked_callHistory]
  rfl

/-- R110: a true answer halts the run. -/
theorem HostSystem.step_of_halt (hj : s.job = .run) (hr : s.run = .running) (hh : (H.shouldHalt h).1 = true) :
    H.step h s = .next (H.onFinished (H.shouldHalt h).2, enterHalted (H.checked h s)) :=
  HostSystem.step_of_executorStep hj hr (executorStep_of_halt hh)
    (HostSystem.callHistory_of_calls rfl (enterHalted_calls (H.checked h s)))

/-- R111, R119: after a false one the instruction is executed, and the host makes its calls. -/
theorem HostSystem.step_of_decode (hj : s.job = .run) (hr : s.run = .running) (hh : (H.shouldHalt h).1 = false)
    {w : Word} {i : Instr} (hp : peek s (s.pc : Int) = .ok w) (hd : decode w = .ok i)
    (hw : ∀ m, i = .inp m → capRead (H.checked h s) ≠ .blocked) (hx : exec i (H.fetched h s) = .next t) :
    H.step h s = .next ((callsOf i (H.fetched h s)).foldl H.call (H.shouldHalt h).2, t) :=
  HostSystem.step_of_executorStep hj hr
    ((executorStep_of_decode (s := H.driven h s) hh (waits_of_decode (s := H.checked h s) hp hd hw) hp hd).trans hx)
    (HostSystem.callHistory_of_calls (h := h) (s := s) (u := H.fetched h s) rfl (exec_calls hx))

/-- R125: a read that is not answered holds the step, and no call is made. -/
theorem HostSystem.step_of_held (hj : s.job = .run) (hr : s.run = .running) (hh : (H.shouldHalt h).1 = false)
    (hw : waits (H.checked h s) = true) : H.step h s = .next (h, H.driven h s) :=
  HostSystem.step_of_executorStep hj hr (executorStep_of_waits hh hw) (calls := []) rfl

/-- R111, R123: a fault of the fetch or the decode makes no further call. -/
theorem HostSystem.step_of_fault (hj : s.job = .run) (hr : s.run = .running) {f : ExecFault} {m : Memory}
    (hx : executorStep (H.driven h s) = .next (enterFaulted f ((H.checked h s).setMem m))) :
    H.step h s = .next ((H.shouldHalt h).2, enterFaulted f ((H.checked h s).setMem m)) :=
  HostSystem.step_of_executorStep hj hr hx
    (HostSystem.callHistory_of_calls (h := h) (s := s) (u := H.checked h s) rfl (.of_cap_eq (by simp)))

/-- The fetch changes no operand. -/
theorem HostSystem.operandAddress_fetched (hb : s.pc ≤ maxAddr) (k : Nat) (m : Mode) :
    operandAddress k m (H.fetched h s) = operandAddress k m s :=
  (operandAddress_agree (H.fetched_sameMachine h s) k m).trans (operandAddress_grown (Memory.grown_grow s.mem hb) k m)

theorem HostSystem.operandValue_fetched (hb : s.pc ≤ maxAddr) (k : Nat) (m : Mode) :
    operandValue k m (H.fetched h s) = operandValue k m s :=
  (operandValue_agree (H.fetched_sameMachine h s) k m).trans (operandValue_grown (Memory.grown_grow s.mem hb) k m)

/-- R150: an IN stores the host's own answer. -/
theorem HostSystem.step_of_inp (hj : s.job = .run) (hr : s.run = .running) (hh : (H.shouldHalt h).1 = false)
    {w : Word} {m : Mode} (hp : peek s (s.pc : Int) = .ok w) (hd : decode w = .ok (.inp m)) {d : Nat} {v : Word} {h' : S}
    (ha : operandAddress 1 m s = .ok d) (hread : H.read (H.shouldHalt h).2 = some (v, h'))
    (hacc : accessCheck s.cfg (d : Int) = .ok d) (hpc : s.pc + 2 ≤ maxAddr) :
    H.step h s = .next (h', (answered v (H.fetched h s)).storing (s.pc + 1) d v (s.pc + 2)) := by
  have hanswer : answerOf (H.fetched h s) = some v := by rw [HostSystem.answerOf_fetched, hread]; rfl
  have hchecked : capRead (H.checked h s) ≠ .blocked := by
    rw [capRead_of_answer (v := v) (by rw [HostSystem.answerOf_checked, hread]; rfl)]
    nofun
  have ha' : operandAddress 1 m (H.fetched h s) = .ok d :=
    (HostSystem.operandAddress_fetched (Nat.le_of_add_right_le hpc) 1 m).trans ha
  obtain ⟨-, -, hx⟩ := execInp_ok ha' (capRead_of_answer hanswer) hacc hpc
  rw [HostSystem.step_of_decode hj hr hh hp hd (fun _ _ => hchecked) hx, callsOf_inp_of_answer ha' hanswer]
  simp only [List.foldl_cons, List.foldl_nil, HostSystem.call, hread]
  rfl

/-- R151: an OUT hands the host its operand. -/
theorem HostSystem.step_of_out (hj : s.job = .run) (hr : s.run = .running) (hh : (H.shouldHalt h).1 = false)
    {w : Word} {m : Mode} (hp : peek s (s.pc : Int) = .ok w) (hd : decode w = .ok (.out m)) {v : Word}
    (hv : operandValue 1 m s = .ok v) (hpc : s.pc + 2 ≤ maxAddr) :
    ∃ reach, H.step h s =
      .next (H.write v (H.shouldHalt h).2, (capWrite v (H.fetched h s)).goingOn reach (s.pc + 2)) := by
  have hv' : operandValue 1 m (H.fetched h s) = .ok v :=
    (HostSystem.operandValue_fetched (Nat.le_of_add_right_le hpc) 1 m).trans hv
  obtain ⟨-, hx⟩ := execOut_ok hv' hpc
  refine ⟨sourceReach 1 m (H.fetched h s), ?_⟩
  rw [HostSystem.step_of_decode hj hr hh hp hd nofun hx]
  simp only [callsOf, hv', List.foldl_cons, List.foldl_nil, HostSystem.call]
  rfl

end Step

/-- Settles O37: the answers the driven controller gives are the host's, and the host makes the calls of the step. -/
theorem hostSystemsDriveTheRun : Obligations.HostSystemsDriveTheRun := by
  intro S H h s hj hr
  refine ⟨fun hh => ⟨_, HostSystem.step_of_halt hj hr hh, by simp, enterHalted_mem _, enterHalted_pc _⟩,
    fun hh w i hp hd => ⟨?_, ?_, ?_, ?_⟩⟩
  · rintro m d v h' rfl ha hread hacc hpc
    have hanswer : answerOf (H.fetched h s) = some v := by rw [HostSystem.answerOf_fetched, hread]; rfl
    have hexe := answered_exe hanswer
    have hmem : (answered v (H.fetched h s)).mem = s.mem.grow s.pc := congrArg Executor.mem hexe
    have hb : s.pc ≤ maxAddr := Nat.le_of_add_right_le hpc
    refine ⟨_, HostSystem.step_of_inp hj hr hh hp hd ha hread hacc hpc, (congrArg Executor.run hexe).trans hr, rfl,
      fun hw => read_of_storing (by rw [hmem]; exact Memory.wf_grow hw hb) (by omega)⟩
  · rintro m d rfl ha hread
    have hnone : answerOf (H.checked h s) = none := by rw [HostSystem.answerOf_checked, hread]; rfl
    have hblocked : capRead (H.checked h s) = .blocked := 
      (capRead_blocked_iff (by simp [HostSystem.checked, HostSystem.driven, capShouldHalt])).2 hnone
    exact ⟨_, HostSystem.step_of_held hj hr hh ((waits_iff _).2 ⟨w, m, d, hp, hd, ha, hblocked⟩), rfl⟩
  · rintro m v rfl hv hpc
    obtain ⟨reach, hx⟩ := HostSystem.step_of_out hj hr hh hp hd hv hpc
    exact ⟨_, hx, (congrArg Executor.run (capWrite_exe v (H.fetched h s))).trans hr, rfl⟩
  · rintro rfl
    exact ⟨_, HostSystem.step_of_decode hj hr hh hp hd nofun rfl, by simp⟩

/-! ## Buffered replay -/

/-- R320: the capability in focus is buffered replay with this input queue and output list. -/
def Replays (h : List Word × List Word) (s : State) : Prop := s.cur.cap = .replay h.1 h.2

theorem Replays.congr {h : List Word × List Word} {s t : State} (hs : Replays h s) (hc : t.cur.cap = s.cur.cap) :
    Replays h t :=
  hc.trans hs

theorem Replays.after_read {v : Word} {rest outl : List Word} {s : State} (hs : Replays (v :: rest, outl) s) :
    Replays (rest, outl) (answered v s) := by
  simp only [Replays] at hs ⊢
  simp [answered, hs]

theorem Replays.after_write {h : List Word × List Word} {s : State} (hs : Replays h s) (v : Word) :
    Replays (h.1, h.2 ++ [v]) (emitted v s) := by
  simp only [Replays] at hs ⊢
  simp [emitted, hs]

theorem Replays.answer {v : Word} {rest outl : List Word} {s : State} (hs : Replays (v :: rest, outl) s) :
    answerOf s = some v := by
  simp only [Replays] at hs
  simp [answerOf, hs]

theorem callsOf_congr {s t : State} (h : SameMachine s t) (ha : answerOf t = answerOf s) (i : Instr) :
    callsOf i t = callsOf i s := by
  cases i with
  | inp m => simp only [callsOf, operandAddress_agree h, ha]
  | out m => simp only [callsOf, operandValue_agree h]
  | _ => rfl

/-- R321, R322: an instruction changes the queue and the list of buffered replay as the host system's calls do. -/
theorem Replays.after_exec {v : Word} {rest outl : List Word} {i : Instr} {s t : State} (hs : Replays (v :: rest, outl) s)
    (hx : exec i s = .next t) :
    Replays ((callsOf i s).foldl HostSystem.bufferedReplay.call (v :: rest, outl)) t := by
  by_cases hin : ∃ m, i = .inp m
  · obtain ⟨m, rfl⟩ := hin
    have answer : ∀ {u}, answerOf s = some u → u = v := fun hu => Option.some.inj (hu.symm.trans hs.answer)
    cases exec_inp_shape hx with
    | stored d u hd ha =>
      rw [callsOf_inp_of_answer hd ha, answer ha]
      exact hs.after_read
    | faultsAfterRead d u f mem hd ha hm =>
      rw [callsOf_inp_of_answer hd ha, answer ha]
      exact hs.after_read.congr (enterFaulted_cap _ _)
    | faultsBeforeRead f mem hm hno =>
      rw [callsOf_inp_of_no_read hno]
      exact hs.congr (enterFaulted_cap _ _)
    | held hno => exact absurd (hno.symm.trans hs.answer) nofun
  by_cases hout : ∃ m, i = .out m
  · obtain ⟨m, rfl⟩ := hout
    have hcap := (out_storesNothing hx).cap
    cases hv : operandValue 1 m s with
    | ok u =>
      rw [afterOut_of_value hv] at hcap
      simp only [callsOf, hv]
      exact (hs.after_write u).congr hcap
    | error f =>
      rw [afterOut_of_error hv] at hcap
      simp only [callsOf, hv]
      exact hs.congr hcap
  simp only [not_exists] at hin hout
  by_cases hhalt : i = .halt
  · subst hhalt
    obtain rfl : enterHalted s = t := Host.Outcome.next.inj hx
    rw [enterHalted_of_replay hs]
    exact hs
  rw [callsOf_other hin hout hhalt]
  exact hs.congr ((exec_shape hx).cap_eq hin hout hhalt)

/-! ## The fetch under two hosts -/

theorem legal_or_illegal (s : State) :
    (∃ w i, peek s (s.pc : Int) = .ok w ∧ decode w = .ok i) ∨
      ∃ f, peek s (s.pc : Int) = .error f ∨ ∃ w, peek s (s.pc : Int) = .ok w ∧ decode w = .error f := by
  cases hp : peek s (s.pc : Int) with
  | error f => exact .inr ⟨f, .inl rfl⟩
  | ok w =>
    cases hd : decode w with
    | error f => exact .inr ⟨f, .inr ⟨w, rfl, hd⟩⟩
    | ok i => exact .inl ⟨w, i, rfl, hd⟩

/-- R111, R331: the memory a word that cannot be fetched or decoded leaves is the same under every host. -/
theorem executorStep_of_illegal_agree {s : State} {f : ExecFault}
    (hill : peek s (s.pc : Int) = .error f ∨ ∃ w, peek s (s.pc : Int) = .ok w ∧ decode w = .error f) :
    ∃ m, ∀ u, SameMachine s u → (capShouldHalt u).1 = false →
      executorStep u = .next (enterFaulted f ((capShouldHalt u).2.setMem m)) := by
  rcases hill with hp | ⟨w, hp, hd⟩
  · refine ⟨s.mem, fun u hu hno => ?_⟩
    rw [← hu.mem, ← capShouldHalt_mem, State.setMem_self]
    exact executorStep_of_peek_error hno (by rw [peek_congr hu.exe hu.cfg, hu.pc, hp])
  · refine ⟨s.mem.grow s.pc, fun u hu hno => ?_⟩
    rw [← hu.mem, ← hu.pc]
    exact executorStep_of_decode_error hno (by rw [peek_congr hu.exe hu.cfg, hu.pc, hp]) hd

/-- Settles O38: both steps fetch the same word, and its instruction leaves the same executor and makes the same calls. -/
theorem replayIsAHostSystem : Obligations.ReplayIsAHostSystem := by
  intro s t v rest outl hj hr hc hx
  have hs : Replays (v :: rest, outl) s := hc
  have hcheck : capShouldHalt s = (false, s) := by simp only [capShouldHalt, hc]
  have hanswer := hs.answer
  rw [step_eq_executorStep (.inl hj) hr] at hx
  rcases legal_or_illegal s with ⟨w, i, hp, hd⟩ | ⟨f, hill⟩
  · have hw : waits s = false := waits_of_decode hp hd fun _ _ => by rw [capRead_of_answer hanswer]; nofun
    rw [executorStep_of_decode (congrArg Prod.fst hcheck) (by rwa [hcheck]) hp hd, hcheck] at hx
    have same := HostSystem.bufferedReplay.fetched_sameMachine (v :: rest, outl) s
    have hdriven : answerOf (HostSystem.bufferedReplay.fetched (v :: rest, outl) s) = some v := rfl
    obtain ⟨t', hx', -⟩ := exec_cases i (HostSystem.bufferedReplay.fetched (v :: rest, outl) s)
    refine ⟨_, t', HostSystem.step_of_decode hj hr rfl hp hd (fun _ _ => nofun) hx',
      exec_agree same (.inr ⟨v, hanswer, hdriven⟩) hx hx', ?_⟩
    rw [callsOf_congr same (hdriven.trans hanswer.symm)]
    exact Replays.after_exec (s := s.setMem (s.mem.grow s.pc)) hs hx
  · obtain ⟨m, hm⟩ := executorStep_of_illegal_agree hill
    rw [hm s ⟨rfl, rfl⟩ (congrArg Prod.fst hcheck), hcheck, Host.Outcome.next.injEq] at hx
    subst hx
    have hx' := hm (HostSystem.bufferedReplay.driven (v :: rest, outl) s) ⟨rfl, rfl⟩ rfl
    exact ⟨_, _, HostSystem.step_of_fault hj hr hx',
      enterFaulted_agree (s := s.setMem m) (t := (HostSystem.checked _ _ s).setMem m) ⟨rfl, rfl⟩ f, (enterFaulted_cap f _).trans hc⟩

end Sys2Proof.Machine
end

section
/-! PROOF. The launch of a ring (R342 to R344, R404), and the choice of the stage that moves next (R345). -/

namespace Sys2Proof.Machine

/-! ## The premises -/

theorem launchPremise_eq_none_iff {n : Nat} {phases : List Word} :
    launchPremise n phases = none ↔ 1 ≤ n ∧ phases.length = n ∧ phases.Nodup := by
  unfold launchPremise
  split
  · next h => simp; omega
  · next h =>
    split
    · next hl => simp [hl]
    · next hl =>
      have hl' : phases.length = n := not_not.1 hl
      split
      · next hd => simp [hd, hl']; omega
      · next hd => simp [hd]

theorem launchPremise_eq_some_iff {n : Nat} {phases : List Word} :
    (∃ reason, launchPremise n phases = some reason) ↔ n < 1 ∨ phases.length ≠ n ∨ ¬ phases.Nodup := by
  rw [← Option.ne_none_iff_exists', ne_eq, launchPremise_eq_none_iff, not_and_or, not_and_or, Nat.not_le]

/-- R342: a refused launch. -/
theorem launchRing_refused {phases : List Word} {s : State} {reason : LaunchPremise}
    (h : launchPremise s.cfg.nStages phases = some reason) :
    launchRing phases s = finishJob (.fault (.badLaunch reason)) s := by
  simp only [launchRing, h]

/-- R343, R344: the ring as the orchestrator makes it, before the first choice of a stage. -/
def seededRing (p0 : Word) (rest : List Word) (s : State) : State :=
  { s with
    before := []
    cur := seededStage s.prog [p0, initialFeedback]
    after := rest.map fun p => seededStage s.prog [p]
    result := none
    job := .ring }

theorem launchRing_launched {phases : List Word} {s : State} (hn : 1 ≤ s.cfg.nStages)
    (hl : phases.length = s.cfg.nStages) (hd : phases.Nodup) :
    ∃ p0 rest, phases = p0 :: rest ∧ launchRing phases s = (seededRing p0 rest s).nextTurn := by
  have h := launchPremise_eq_none_iff.2 ⟨hn, hl, hd⟩
  cases phases with
  | nil => simp at hl; omega
  | cons p0 rest => exact ⟨p0, rest, rfl, by simp only [launchRing, h]; rfl⟩

theorem step_launchRing {s : State} {phases : List Word} (hj : s.job = .launchRing phases) :
    step s = .next (launchRing phases s) :=
  step_of_host (by simp only [nextMove, hj])

/-- Settles O52: a launch whose premises hold leaves a ring, and any other ends the job. -/
theorem badLaunchesAreRefused : Obligations.BadLaunchesAreRefused := by
  intro s t phases hj hx
  obtain rfl : launchRing phases s = t := Host.Outcome.next.inj ((step_launchRing hj).symm.trans hx)
  have launched : 1 ≤ s.cfg.nStages → phases.length = s.cfg.nStages → phases.Nodup → (launchRing phases s).job = .ring := by
    intro hn hl hd
    obtain ⟨p0, rest, -, he⟩ := launchRing_launched hn hl hd
    rw [he, State.nextTurn_job]
    rfl
  refine ⟨⟨fun hbad => ?_, fun ⟨reason, hdone⟩ => ?_⟩, launched⟩
  · obtain ⟨reason, hreason⟩ := launchPremise_eq_some_iff.2 hbad
    exact ⟨reason, by rw [launchRing_refused hreason, finishJob_fault]⟩
  · by_contra hgood
    have hring := launched (by omega) (by omega) (by by_contra hd; exact hgood (.inr (.inr hd)))
    rw [hdone] at hring
    cases hring

/-! ## The seeded stages -/

theorem seededRing_stages (p0 : Word) (rest : List Word) (s : State) :
    (seededRing p0 rest s).stages =
      seededStage s.prog [p0, initialFeedback] :: rest.map fun p => seededStage s.prog [p] := rfl

/-- Settles O53: the choice of the first stage changes none of those the launch has seeded. -/
theorem launchSeedsTheChannels : Obligations.LaunchSeedsTheChannels := by
  intro s t phases hj hn hl hd hx
  obtain ⟨p0, rest, rfl, he⟩ := launchRing_launched hn hl hd
  obtain rfl : (seededRing p0 rest s).nextTurn = t := Host.Outcome.next.inj (he ▸ (step_launchRing hj).symm.trans hx)
  refine ⟨State.nextTurn_job _, ?_, State.nextTurn_result _, fun k p hk => ?_⟩
  · rw [State.nextTurn_stageCount, ← State.stages_length, seededRing_stages, ← hl]
    simp
  · rw [State.nextTurn_stages, seededRing_stages]
    cases k with
    | zero =>
      obtain rfl : p0 = p := Option.some.inj hk
      rfl
    | succ k =>
      rw [List.getElem?_cons_succ] at hk ⊢
      rw [List.getElem?_map, hk]
      rfl

/-! ## The choice of the next stage -/

theorem State.nextTurn_of_schedule {s : State} {k : Nat} {rest : List Nat} (h : s.schedule = k :: rest) :
    s.nextTurn = { s.focus (k % s.stageCount) with schedule := rest, turns := s.turns + 1 } := by
  simp only [State.nextTurn, h]

/-- R345: the stage the schedule names is put in focus. -/
theorem State.nextTurn_stageIndex {s : State} {k : Nat} {rest : List Nat} (h : s.schedule = k :: rest) :
    s.nextTurn.stageIndex = k % s.stageCount := by
  rw [State.nextTurn_of_schedule h]
  exact State.focus_stageIndex (Nat.mod_lt k (Nat.zero_lt_of_lt s.stageIndex_lt))

/-- Settles O55: the entry of the schedule is put in focus and used up. -/
theorem anyStageMayMoveNext : Obligations.AnyStageMayMoveNext := by
  intro s k rest hk hsched
  have hindex : s.nextTurn.stageIndex = k := (State.nextTurn_stageIndex hsched).trans (Nat.mod_eq_of_lt hk)
  have hcur := State.stages_stageIndex s.nextTurn
  rw [hindex, State.nextTurn_stages] at hcur
  exact ⟨hindex, State.nextTurn_stages s, hcur, by rw [State.nextTurn_of_schedule hsched], State.nextTurn_job s,
    State.nextTurn_result s⟩

end Sys2Proof.Machine
end

section
/-! PROOF. The result of a ring, read at the join of all stages (R346, R347). -/

namespace Sys2Proof.Machine

theorem firstFault_cons_faulted {i : Nat} {st : Stage} {rest : List Stage} {f : ExecFault} {pc : Nat}
    (h : st.exe.run = .faulted f pc) : firstFault i (st :: rest) = some (.stageFaulted i f pc) := by
  simp only [firstFault, h]

theorem firstFault_cons_halted {i : Nat} {st : Stage} {rest : List Stage} (h : st.exe.run = .halted) :
    firstFault i (st :: rest) = firstFault (i + 1) rest := by
  simp only [firstFault, h]

/-- R347: the least faulted stage is the one before which all have halted. -/
theorem firstFault_of_least {stages : List Stage} {k : Nat} {st : Stage} {f : ExecFault} {pc : Nat}
    (hk : stages[k]? = some st) (hf : st.exe.run = .faulted f pc)
    (hbefore : ∀ j st', j < k → stages[j]? = some st' → st'.exe.run = .halted) (i : Nat) :
    firstFault i stages = some (.stageFaulted (i + k) f pc) := by
  induction stages generalizing k i with
  | nil => cases hk
  | cons first rest ih =>
    cases k with
    | zero =>
      obtain rfl : first = st := Option.some.inj hk
      exact firstFault_cons_faulted hf
    | succ k =>
      rw [firstFault_cons_halted (hbefore 0 first (Nat.succ_pos k) rfl),
        ih hk (fun j st' hj => hbefore (j + 1) st' (Nat.succ_lt_succ hj)) (i + 1), Nat.add_right_comm, Nat.add_assoc]

theorem firstFault_of_halted {stages : List Stage} (h : ∀ st ∈ stages, st.exe.run = .halted) (i : Nat) :
    firstFault i stages = none := by
  induction stages generalizing i with
  | nil => rfl
  | cons first rest ih =>
    rw [firstFault_cons_halted (h first List.mem_cons_self)]
    exact ih (fun st hst => h st (List.mem_cons_of_mem first hst)) (i + 1)

theorem ringResult_of_least_fault {s : State} {k : Nat} {st : Stage} {f : ExecFault} {pc : Nat}
    (hk : s.stages[k]? = some st) (hf : st.exe.run = .faulted f pc)
    (hbefore : ∀ j st', j < k → s.stages[j]? = some st' → st'.exe.run = .halted) :
    ringResult s = .fault (.stageFaulted k f pc) := by
  simp only [ringResult, firstFault_of_least hk hf hbefore, Nat.zero_add]

theorem ringResult_of_value {s : State} (h : ∀ st ∈ s.stages, st.exe.run = .halted) {v : Word} (hv : s.result = some v) :
    ringResult s = .value v := by
  simp only [ringResult, firstFault_of_halted h, hv]

theorem ringResult_of_none {s : State} (h : ∀ st ∈ s.stages, st.exe.run = .halted) (hn : s.result = none) :
    ringResult s = .fault .noResult := by
  simp only [ringResult, firstFault_of_halted h, hn]

/-- R346: once every stage has ended, the next step joins all and reports. -/
theorem step_of_allEnded {s : State} (hj : s.job = .ring) (h : ∀ st ∈ s.stages, st.ended = true) :
    step s = .next (finishJob (ringResult s) (joinAll s)) :=
  step_of_host (by simp only [nextMove, hj, (allEnded_iff s).2 h, if_true])

theorem Stage.ended_of_halted {st : Stage} (h : st.exe.run = .halted) : st.ended = true := by
  simp only [Stage.ended, h]

/-- Settles O57: a ring leaves its job only by the join of all stages, which reads the result. -/
theorem resultIsReadAfterTheJoin : Obligations.ResultIsReadAfterTheJoin := by
  refine ⟨fun s t hj hx hne => ?_, fun s t hj hr hx => ?_, fun s hj hended => ⟨fun k st f pc hk hf hbefore => ?_,
    fun hhalted => ⟨fun v hsearch hv => ?_, fun hn => ?_⟩⟩⟩
  · rcases ringStep_cases hj hx with ⟨hended, rfl⟩ | ⟨-, -, u, -, -, hu, rfl⟩ | ⟨-, -, rfl⟩
    · exact ⟨(allEnded_iff s).1 hended, by rw [finishJob_stages, joinAll_stages]; rfl⟩
    · exact absurd ((State.nextTurn_job u).trans hu) hne
    · exact absurd ((State.nextTurn_job (joinStage s)).trans hj) hne
  · exact List.ext_getElem? fun k => ringStep_keeps_executor hj hx (.inr hr)
  · exact ⟨_, step_of_allEnded hj hended, by rw [ringResult_of_least_fault hk hf hbefore, finishJob_fault]⟩
  · exact ⟨_, step_of_allEnded hj hended, by rw [ringResult_of_value hhalted hv, finishJob_value (s := joinAll s) hsearch]⟩
  · exact ⟨_, step_of_allEnded hj hended, by rw [ringResult_of_none hhalted hn, finishJob_fault]⟩

end Sys2Proof.Machine
end

section
/-! PROOF. Waiting in a ring: a deadlock is kept by every move (R348), and a stage that can take its step can take it after any
other stage's move, so a weakly fair schedule comes to it (R345, R325, R328). -/

namespace Sys2Proof.Machine

theorem State.focus_cur_eq {s : State} {k : Nat} {st : Stage} (h : s.stages[k]? = some st) : (s.focus k).cur = st := by
  have hk : k < s.stageCount := s.stages_length ▸ (List.getElem?_eq_some_iff.1 h).1
  exact Option.some.inj ((State.focus_cur hk).symm.trans h)

theorem State.focus_cfg (k : Nat) (s : State) : (s.focus k).cfg = s.cfg := (State.focus_sameJob k s).1

theorem State.focus_stageIndex_self (s : State) : s.focus s.stageIndex = s := by
  simp [State.focus, State.stages, State.stageIndex]

/-! ## The deadlock -/

/-- What a wait depends on, stage by stage. -/
def State.waitSides (s : State) : List (Executor × Capability × Channel) :=
  s.stages.map fun st => (st.exe, st.cap, st.inbound)

theorem stage_of_waitSides {s t : State} (h : t.waitSides = s.waitSides) {k : Nat} {st : Stage}
    (hk : s.stages[k]? = some st) :
    ∃ st', t.stages[k]? = some st' ∧ st'.exe = st.exe ∧ st'.cap = st.cap ∧ st'.inbound = st.inbound := by
  have hget := congrArg (fun sides => sides[k]?) h
  simpa only [State.waitSides, List.getElem?_map, hk, Option.map_some, Option.map_eq_some_iff, Prod.mk.injEq] using hget

theorem executors_of_waitSides {s t : State} (h : t.waitSides = s.waitSides) : t.executors = s.executors := by
  have hmap := congrArg (List.map fun side : Executor × Capability × Channel => (side.1, side.2.1)) h
  simp only [State.waitSides, List.map_map] at hmap
  exact hmap

theorem Stage.ended_congr {st st' : Stage} (h : st'.exe = st.exe) : st'.ended = st.ended := by
  simp only [Stage.ended, h]

/-- R310: the wait of stage `k` is one of its executor, its capability and its channel. -/
theorem channelWait_of_stage {s t : State} {k : Nat} {st st' : Stage} (hk : s.stages[k]? = some st)
    (hk' : t.stages[k]? = some st') (he : st'.exe = st.exe) (hc : st'.cap = st.cap) (hi : st'.inbound = st.inbound)
    (hg : t.cfg = s.cfg) (h : (s.focus k).channelWait) : (t.focus k).channelWait := by
  rw [← State.focus_cur_eq hk, ← State.focus_cur_eq hk'] at he hc hi
  obtain ⟨hrun, ⟨last, hcap⟩, hwaits⟩ := h
  exact ⟨(congrArg Executor.run he).trans hrun, ⟨last, hc.trans hcap⟩,
    waits_congr he hc hi (by rw [State.focus_cfg, State.focus_cfg, hg]) hwaits⟩

theorem State.Deadlocked.of_waitSides {s t : State} (h : s.Deadlocked) (hs : t.waitSides = s.waitSides)
    (hj : t.job = .ring) (hg : t.cfg = s.cfg) : t.Deadlocked := by
  obtain ⟨-, ⟨st, hst, hended⟩, hwait⟩ := h
  refine ⟨hj, ?_, fun k st' hk' hended' => ?_⟩
  · obtain ⟨k, hk⟩ := List.getElem?_of_mem hst
    obtain ⟨st', hk', he, -⟩ := stage_of_waitSides hs hk
    exact ⟨st', List.mem_of_getElem? hk', (Stage.ended_congr he).trans hended⟩
  · obtain ⟨st0, hk0, he, hc, hi⟩ := stage_of_waitSides hs.symm hk'
    exact channelWait_of_stage hk0 hk' he.symm hc.symm hi.symm hg (hwait k st0 hk0 ((Stage.ended_congr he).trans hended'))

@[simp] theorem State.nextTurn_waitSides (s : State) : s.nextTurn.waitSides = s.waitSides := by
  simp only [State.waitSides, State.nextTurn_stages]

theorem joinStage_waitSides (s : State) : (joinStage s).waitSides = s.waitSides := by
  simp only [State.waitSides, joinStage_stages]
  exact map_modify_same _ Stage.joined (fun _ => rfl) _ _

/-- R348: a turn of a deadlocked ring finds the stage in focus blocked, or ended. -/
theorem State.Deadlocked.step_waitSides {s t : State} (h : s.Deadlocked) (hx : step s = .next t) :
    t.waitSides = s.waitSides ∧ t.job = .ring ∧ t.cfg = s.cfg := by
  obtain ⟨hj, ⟨st, hst, hrunning⟩, hwait⟩ := h
  rcases ringStep_cases hj hx with ⟨hended, -⟩ | ⟨-, hr, u, hu, -, -, rfl⟩ | ⟨-, -, rfl⟩
  · exact absurd ((allEnded_iff s).1 hended st hst) (by simp [hrunning])
  · have hcur := hwait s.stageIndex s.cur s.stages_stageIndex (Stage.ended_eq_false.2 hr)
    rw [State.focus_stageIndex_self] at hcur
    obtain ⟨-, ⟨last, hc⟩, hw⟩ := hcur
    have hcheck := capShouldHalt_of_stage hc
    rw [executorStep_of_waits (congrArg Prod.fst hcheck) (by rwa [hcheck])] at hu
    obtain rfl := Host.Outcome.next.inj hu
    exact ⟨State.nextTurn_waitSides s, (State.nextTurn_job s).trans hj, State.nextTurn_cfg s⟩
  · exact ⟨(State.nextTurn_waitSides _).trans (joinStage_waitSides s), (State.nextTurn_job _).trans hj,
      State.nextTurn_cfg (joinStage s)⟩

/-- Settles O58: no move of a deadlocked ring changes what the waits depend on. -/
theorem deadlockIsPermanent : Obligations.DeadlockIsPermanent := by
  intro s t h hx
  obtain ⟨hsides, hj, hg⟩ := h.step_waitSides hx
  exact ⟨h.of_waitSides hsides hj hg, executors_of_waitSides hsides, hj⟩

/-! ## What other stages' moves do to a channel -/

/-- R325, R328: values have been appended and the sender may have gone: what a receiver sees of others' moves. -/
def Channel.FedTo (ch ch' : Channel) : Prop :=
  (∃ more, ch'.queue = ch.queue ++ more) ∧ (ch'.senderConnected = true → ch.senderConnected = true)

theorem Channel.FedTo.refl (ch : Channel) : ch.FedTo ch := ⟨⟨[], by simp⟩, id⟩

theorem Channel.FedTo.trans {a b c : Channel} (h : a.FedTo b) (h' : b.FedTo c) : a.FedTo c := by
  obtain ⟨⟨more, hb⟩, hs⟩ := h
  obtain ⟨⟨more', hc⟩, hs'⟩ := h'
  exact ⟨⟨more ++ more', by rw [hc, hb, List.append_assoc]⟩, hs ∘ hs'⟩

theorem Channel.fedTo_send (v : Word) (ch : Channel) : ch.FedTo (ch.send v) := by
  unfold Channel.send
  split
  · exact ⟨⟨[v], rfl⟩, id⟩
  · exact Channel.FedTo.refl ch

theorem Channel.fedTo_disconnected (ch : Channel) : ch.FedTo { ch with senderConnected := false } :=
  ⟨⟨[], by simp⟩, nofun⟩

/-- A receive that can be answered can still be answered. -/
theorem Channel.FedTo.blocked {ch ch' : Channel} {r : ReadOnClosed} (h : ch.FedTo ch') (hb : ch'.receive r = .blocked) :
    ch.receive r = .blocked := by
  obtain ⟨⟨more, hqueue⟩, hsender⟩ := h
  obtain ⟨hempty, hclosed⟩ := Channel.receive_blocked_iff.1 hb
  obtain ⟨hnil, -⟩ := List.append_eq_nil_iff.1 (hqueue.symm.trans hempty)
  exact Channel.receive_blocked_iff.2 ⟨hnil, hclosed.imp_left hsender⟩

/-- A stage that has not moved, while its channel may have been fed. -/
structure Stage.Fed (st st' : Stage) : Prop where
  exe : st'.exe = st.exe
  cap : st'.cap = st.cap
  inbound : st.inbound.FedTo st'.inbound

theorem Stage.Fed.refl (st : Stage) : st.Fed st := ⟨rfl, rfl, Channel.FedTo.refl _⟩

theorem Stage.Fed.trans {a b c : Stage} (h : a.Fed b) (h' : b.Fed c) : a.Fed c :=
  ⟨h'.exe.trans h.exe, h'.cap.trans h.cap, h.inbound.trans h'.inbound⟩

theorem capRead_blocked_of_fed {s t : State} (h : s.cur.Fed t.cur) (hg : t.cfg = s.cfg) (hb : capRead t = .blocked) :
    capRead s = .blocked := by
  cases hc : s.cur.cap with
  | replay inq outl => cases inq <;> simp [capRead, h.cap, hc] at hb
  | stage last =>
    have hreceive : ∀ u : State, u.cur.cap = .stage last →
        (capRead u = .blocked ↔ u.cur.inbound.receive u.cfg.readOnClosed = .blocked) := fun u hu => by
      cases hr : u.cur.inbound.receive u.cfg.readOnClosed <;> simp [capRead, hu, hr]
    rw [hreceive t (h.cap.trans hc), hg] at hb
    exact (hreceive s hc).2 (h.inbound.blocked hb)
  | controller c =>
    cases hr : c.pendingRead <;> simp [capRead, h.cap, hc, hr] at hb ⊢

theorem waits_of_fed {s t : State} (h : s.cur.Fed t.cur) (hg : t.cfg = s.cfg) (hw : waits t = true) : waits s = true := by
  have same : SameMachine s t := ⟨h.exe, hg⟩
  rw [waits_iff] at hw ⊢
  obtain ⟨w, m, d, hp, hd, ha, hb⟩ := hw
  rw [peek_congr h.exe hg, same.pc] at hp
  exact ⟨w, m, d, hp, hd, (operandAddress_agree same 1 m).symm.trans ha, capRead_blocked_of_fed h hg hb⟩

/-- R345: a stage that is fed stays enabled. -/
theorem State.enabled.of_fed {s t : State} {k : Nat} {st st' : Stage} (h : s.enabled k) (hk : s.stages[k]? = some st)
    (hk' : t.stages[k]? = some st') (hfed : st.Fed st') (hg : t.cfg = s.cfg) : t.enabled k := by
  rw [← State.focus_cur_eq hk, ← State.focus_cur_eq hk'] at hfed
  obtain ⟨-, hrun, hwaits⟩ := h
  refine ⟨t.stages_length ▸ (List.getElem?_eq_some_iff.1 hk').1, (congrArg Executor.run hfed.exe).trans hrun, ?_⟩
  rw [← Bool.not_eq_true] at hwaits ⊢
  exact fun hw => hwaits (waits_of_fed hfed (by rw [State.focus_cfg, State.focus_cfg, hg]) hw)

/-! ## A move feeds the other stages -/

/-- Every stage but the one in focus is as it was, but for what its channel has been fed. -/
structure OthersFed (s t : State) : Prop where
  index : t.stageIndex = s.stageIndex
  stage : ∀ k st, k ≠ s.stageIndex → s.stages[k]? = some st → ∃ st', t.stages[k]? = some st' ∧ st.Fed st'

/-- A change of the stage in focus alone. -/
theorem OthersFed.of_focus {s t : State} (hb : t.before = s.before) (ha : t.after = s.after) : OthersFed s t where
  index := by rw [State.stageIndex, hb, State.stageIndex]
  stage := fun k st hk hst => by
    have hset : t.stages = s.stages.set s.stageIndex t.cur := by simp [State.stages, State.stageIndex, hb, ha]
    exact ⟨st, by rw [hset, List.getElem?_set_ne (Ne.symm hk), hst], Stage.Fed.refl st⟩

theorem OthersFed.trans {s t u : State} (h : OthersFed s t) (h' : OthersFed t u) : OthersFed s u where
  index := h'.index.trans h.index
  stage := fun k st hk hst => by
    obtain ⟨st', hst', hfed⟩ := h.stage k st hk hst
    obtain ⟨st'', hst'', hfed'⟩ := h'.stage k st' (h.index ▸ hk) hst'
    exact ⟨st'', hst'', hfed.trans hfed'⟩

/-- R340: a change of the outbound channel feeds its receiver, if it feeds the channel. -/
theorem State.mapOutbound_othersFed {f : Channel → Channel} (hf : ∀ ch : Channel, ch.FedTo (f ch)) (s : State) :
    OthersFed s (s.mapOutbound f) where
  index := State.mapOutbound_stageIndex f s
  stage := fun k st _ hst => by
    rw [State.stages_mapOutbound, List.getElem?_modify, hst]
    refine ⟨_, rfl, ?_⟩
    dsimp only
    split
    · exact ⟨rfl, rfl, hf st.inbound⟩
    · exact Stage.Fed.refl st

theorem capShouldHalt_othersFed (s : State) : OthersFed s (capShouldHalt s).2 := by
  unfold capShouldHalt
  split <;> exact .of_focus rfl rfl

theorem capWrite_othersFed (v : Word) (s : State) : OthersFed s (capWrite v s) := by
  unfold capWrite
  split
  · exact .of_focus rfl rfl
  · exact OthersFed.trans (t := s.setCap (.stage (some v))) (.of_focus rfl rfl)
      (State.mapOutbound_othersFed (Channel.fedTo_send v) _)
  · exact .of_focus rfl rfl

theorem answered_othersFed (v : Word) (s : State) : OthersFed s (answered v s) := by
  unfold answered
  split <;> exact .of_focus rfl rfl

theorem Called.othersFed {i : Instr} {s u : State} (h : Called i s u) : OthersFed s u := by
  obtain rfl | ⟨m, v, -, rfl⟩ | ⟨m, v, -, h⟩ := h
  · exact .of_focus rfl rfl
  · exact capWrite_othersFed v s
  · obtain ⟨-, rfl⟩ := answer_of_capRead h
    exact answered_othersFed v s

theorem capOnFinished_othersFed (s : State) : OthersFed s (capOnFinished s) := by
  unfold capOnFinished
  split
  · exact .of_focus rfl rfl
  · split <;> exact .of_focus rfl rfl
  · exact .of_focus rfl rfl

/-- R328: the release of the endpoints disconnects the sender of the successor's channel. -/
theorem releaseEndpoints_othersFed (s : State) : OthersFed s (releaseEndpoints s) := by
  unfold releaseEndpoints
  split
  · exact OthersFed.trans (t := s.mapInbound _) (.of_focus rfl rfl)
      (State.mapOutbound_othersFed Channel.fedTo_disconnected _)
  · exact .of_focus rfl rfl
  · exact .of_focus rfl rfl

theorem enterFaulted_othersFed (f : ExecFault) (s : State) : OthersFed s (enterFaulted f s) :=
  OthersFed.trans (t := s.setRun (.faulted f s.pc)) (.of_focus rfl rfl) (releaseEndpoints_othersFed _)

theorem enterHalted_othersFed (s : State) : OthersFed s (enterHalted s) :=
  OthersFed.trans (t := s.setRun .halted) (.of_focus rfl rfl)
    ((capOnFinished_othersFed _).trans
      (OthersFed.trans (t := (capOnFinished (s.setRun .halted)).setFinished true) (.of_focus rfl rfl)
        (releaseEndpoints_othersFed _)))

theorem ExecShape.othersFed {i : Instr} {s t : State} (h : ExecShape i s t) : OthersFed s t := by
  cases h with
  | completes u m rb pc called mem hpc hrb => exact called.othersFed.trans (.of_focus rfl rfl)
  | faults u m f called mem =>
    exact called.othersFed.trans (OthersFed.trans (t := u.setMem m) (.of_focus rfl rfl) (enterFaulted_othersFed f _))
  | halts hi => exact enterHalted_othersFed s
  | held m hi hb => exact .of_focus rfl rfl

theorem StepShape.othersFed {s t : State} (h : StepShape s t) : OthersFed s t := by
  have check := capShouldHalt_othersFed s
  cases h with
  | halts h => exact check.trans (enterHalted_othersFed _)
  | held h hw => exact .of_focus rfl rfl
  | fetchFaults f m h hw hm =>
    exact check.trans (OthersFed.trans (t := (capShouldHalt s).2.setMem m) (.of_focus rfl rfl) (enterFaulted_othersFed f _))
  | executes w i t h hw hp hd hb hx =>
    exact check.trans (OthersFed.trans (t := (capShouldHalt s).2.setMem (s.mem.grow s.pc)) (.of_focus rfl rfl)
      (exec_shape hx).othersFed)

/-! ## An enabled stage under other stages' moves -/

theorem State.enabled.allEnded {s : State} {k : Nat} (h : s.enabled k) : allEnded s = false := by
  obtain ⟨hk, hrun, -⟩ := h
  exact allEnded_of_running (List.mem_of_getElem? (State.focus_cur hk)) hrun

/-- R345: after the move of a stage in focus, and before the choice of the next one. -/
theorem State.enabled.of_othersFed {s u : State} {k : Nat} (h : s.enabled k) (hk : k ≠ s.stageIndex) (hu : OthersFed s u)
    (hg : u.cfg = s.cfg) : u.nextTurn.enabled k := by
  have hst := State.focus_cur h.1
  obtain ⟨st', hst', hfed⟩ := hu.stage k _ hk hst
  exact h.of_fed hst ((State.nextTurn_stages u).symm ▸ hst') hfed ((State.nextTurn_cfg u).trans hg)

theorem ringStep_enabled {s t : State} {k : Nat} (hj : s.job = .ring) (h : s.enabled k) (hk : k ≠ s.stageIndex)
    (hx : step s = .next t) : t.enabled k ∧ t.job = .ring := by
  rcases ringStep_cases hj hx with ⟨hended, -⟩ | ⟨-, -, u, -, hshape, hu, rfl⟩ | ⟨-, -, rfl⟩
  · exact absurd (h.allEnded.symm.trans hended) nofun
  · exact ⟨h.of_othersFed hk hshape.othersFed hshape.sameJob.1, (State.nextTurn_job u).trans hu⟩
  · exact ⟨h.of_othersFed (u := joinStage s) hk (.of_focus rfl rfl) rfl, (State.nextTurn_job (joinStage s)).trans hj⟩

/-- R345: while some stage has not ended, a step of a ring puts the stage in focus that the schedule names. -/
theorem ringStep_focus {s t : State} {c : Nat} {rest : List Nat} (hj : s.job = .ring) (hended : allEnded s = false)
    (hsched : s.schedule = c :: rest) (hx : step s = .next t) :
    t.stageIndex = c % s.stageCount ∧ t.stageCount = s.stageCount := by
  rcases ringStep_cases hj hx with ⟨h, -⟩ | ⟨-, -, u, -, hshape, -, rfl⟩ | ⟨-, -, rfl⟩
  · exact absurd (hended.symm.trans h) nofun
  · have hcount := hshape.sameOthers.stageCount
    obtain ⟨-, -, -, -, hu, -⟩ := hshape.sameJob
    exact ⟨(State.nextTurn_stageIndex (hu.trans hsched)).trans (by rw [hcount]), (State.nextTurn_stageCount u).trans hcount⟩
  · exact ⟨State.nextTurn_stageIndex (s := joinStage s) hsched, State.nextTurn_stageCount (joinStage s)⟩

/-! ## Weak fairness -/

theorem scheduledRun_succ {choice : Nat → Nat} {n : Nat} {s t u : State} (h : scheduledRun choice n s = some t)
    (hx : step { t with schedule := [choice n] } = .next u) : scheduledRun choice (n + 1) s = some u := by
  simp only [scheduledRun, h, hx]

/-- The next state of a scheduled run in which stage `k` is enabled and has to wait for its turn. -/
theorem scheduledRun_enabled {choice : Nat → Nat} {n k : Nat} {s t : State} (h : scheduledRun choice n s = some t)
    (hj : t.job = .ring) (he : t.enabled k) (hk : k ≠ t.stageIndex) :
    ∃ u, scheduledRun choice (n + 1) s = some u ∧ u.job = .ring ∧ u.enabled k ∧ u.stageCount = t.stageCount ∧
      u.stageIndex = choice n % t.stageCount := by
  have hst := State.focus_cur he.1
  have he' : State.enabled k { t with schedule := [choice n] } := he.of_fed hst hst (Stage.Fed.refl _) rfl
  obtain ⟨u, hx⟩ := ringStep_next (s := { t with schedule := [choice n] }) hj
  obtain ⟨hue, huj⟩ := ringStep_enabled (s := { t with schedule := [choice n] }) hj he' hk hx
  obtain ⟨hindex, hcount⟩ := ringStep_focus (s := { t with schedule := [choice n] }) hj he'.allEnded rfl hx
  exact ⟨u, scheduledRun_succ h hx, huj, hue, hcount, hindex⟩

/-- Settles O56: were the stage never in focus, it would stay enabled throughout, and fairness would choose it. -/
theorem enabledStagesStayEnabledAndMove : Obligations.EnabledStagesStayEnabledAndMove := by
  refine ⟨fun s t k hj h hk => ringStep_enabled hj h hk, fun choice s k hj h hk hfair => ?_⟩
  by_contra hnever
  have notInFocus : ∀ {m t}, scheduledRun choice m s = some t → t.job = .ring → t.enabled k → k ≠ t.stageIndex :=
    fun hm hj he hk => hnever ⟨_, _, hm, hj, hk.symm, he⟩
  have goesOn : ∀ m, ∃ t, scheduledRun choice m s = some t ∧ t.job = .ring ∧ t.enabled k ∧ t.stageCount = s.stageCount := by
    intro m
    induction m with
    | zero => exact ⟨s, rfl, hj, h, rfl⟩
    | succ m ih =>
      obtain ⟨t, ht, htj, hte, hcount⟩ := ih
      obtain ⟨u, hu, huj, hue, hucount, -⟩ := scheduledRun_enabled ht htj hte (notInFocus ht htj hte)
      exact ⟨u, hu, huj, hue, hucount.trans hcount⟩
  have staysEnabled : ∀ m t, 0 ≤ m → scheduledRun choice m s = some t → t.enabled k := fun m t _ ht => by
    obtain ⟨u, hu, -, hue, -⟩ := goesOn m
    exact Option.some.inj (hu.symm.trans ht) ▸ hue
  obtain ⟨m, -, hm⟩ := hfair k 0 h.1 staysEnabled
  obtain ⟨t, ht, htj, hte, hcount⟩ := goesOn m
  obtain ⟨u, hu, huj, hue, -, hindex⟩ := scheduledRun_enabled ht htj hte (notInFocus ht htj hte)
  exact notInFocus hu huj hue (by rw [hindex, hcount, hm])

end Sys2Proof.Machine
end

section
/-! PROOF. The chain (R351, R352) and the search (R353): the move the host makes in each situation, and the job it leaves. -/

namespace Sys2Proof.Machine

/-! ## The chain -/

theorem step_launchChain {s : State} {phases : List Word} (hj : s.job = .launchChain phases) :
    step s = .next (chainFrom 0 Word.zero phases s) :=
  step_of_host (by simp only [nextMove, hj])

theorem step_chain_halted {s : State} {i : Nat} {sig : Word} {rest : List Word} (hj : s.job = .chain i sig rest)
    (hr : s.run = .halted) : step s = .next (chainNext i rest s) :=
  step_of_host (by simp only [nextMove, hj, hr])

/-- R351: a stage with one output hands it on. -/
theorem chainNext_of_output {s : State} {inq : List Word} {v : Word} (hc : s.cur.cap = .replay inq [v]) (i : Nat)
    (rest : List Word) : chainNext i rest s = chainFrom (i + 1) v rest s := by
  simp only [chainNext, State.outputs, hc]

/-- R352: a stage with another number of outputs. -/
theorem chainNext_of_count {s : State} {inq outl : List Word} (hc : s.cur.cap = .replay inq outl) (hl : outl.length ≠ 1)
    (i : Nat) (rest : List Word) :
    chainNext i rest s = finishJob (.fault (.chainOutputCount i outl.length)) s := by
  simp only [chainNext, State.outputs, hc]
  split
  · exact absurd rfl hl
  · rfl

/-- Settles O59: the move of the chain at its start, at a stage that has halted with each number of outputs, and at a faulted
one. -/
theorem chainFeedsEachOutputOn : Obligations.ChainFeedsEachOutputOn := by
  refine ⟨fun s p rest hj => ⟨_, step_launchChain hj, rfl, rfl⟩,
    fun s hj hsearch => ⟨_, step_launchChain hj, finishJob_value hsearch _⟩,
    fun s i sig p v rest inq hj hr hc => ⟨_, step_chain_halted hj hr, ?_⟩,
    fun s i sig v inq hj hsearch hr hc => ⟨_, step_chain_halted hj hr, ?_⟩,
    fun s i sig rest inq outl hj hr hc hl => ⟨_, step_chain_halted hj hr, ?_⟩,
    fun s i sig rest f pc hj hr => ⟨_, step_of_host (nextMove_chain_faulted hj hr), finishJob_fault _ _⟩⟩
  · rw [chainNext_of_output hc]
    exact ⟨rfl, rfl⟩
  · rw [chainNext_of_output hc]
    exact finishJob_value hsearch v
  · rw [chainNext_of_count hc hl, finishJob_fault]

/-! ## The search -/

theorem step_nextEvaluation {s : State} (hj : s.job = .nextEvaluation) : step s = .next (nextEvaluation s) :=
  step_of_host (by simp only [nextMove, hj])

theorem le_better (best : Option Word) (v : Word) : v.val ≤ (better best v).val := by
  unfold better
  split
  · exact le_refl _
  · split <;> omega

theorem better_some (old v : Word) :
    old.val ≤ (better (some old) v).val ∧ (better (some old) v = old ∨ better (some old) v = v) := by
  unfold better
  dsimp only
  split
  · exact ⟨by omega, .inr rfl⟩
  · exact ⟨le_refl _, .inl rfl⟩

/-- R353: within a search a value goes into the maximum. -/
theorem finishJob_value_in_search {s : State} {sr : Search} (h : s.search = some sr) (v : Word) :
    finishJob (.value v) s =
      { s with search := some { sr with best := some (better sr.best v) }, job := .nextEvaluation } := by
  simp only [finishJob, h]

theorem finishJob_fault_search (f : Fault) (s : State) : (finishJob (.fault f) s).search = none := by
  unfold finishJob
  split
  · assumption
  · rfl

/-- R351, R346: an evaluation of a search that ends with a value, as a chain or as a ring. -/
theorem step_of_evaluated {s : State} {v : Word}
    (h : (∃ i sig inq, s.job = .chain i sig [] ∧ s.run = .halted ∧ s.cur.cap = .replay inq [v]) ∨
      (s.job = .ring ∧ s.result = some v ∧ ∀ st ∈ s.stages, st.exe.run = .halted)) :
    ∃ u, u.search = s.search ∧ step s = .next (finishJob (.value v) u) := by
  rcases h with ⟨i, sig, inq, hj, hr, hc⟩ | ⟨hj, hv, hhalted⟩
  · refine ⟨s, rfl, ?_⟩
    rw [step_chain_halted hj hr, chainNext_of_output hc]
    rfl
  · refine ⟨joinAll s, joinAll_search s, ?_⟩
    rw [step_of_allEnded hj fun st hst => Stage.ended_of_halted (hhalted st hst), ringResult_of_value hhalted hv]

/-- Settles O60: the next permutation is launched, its value goes into the maximum, and a fault ends the search. -/
theorem searchTakesTheMaximum : Obligations.SearchTakesTheMaximum := by
  refine ⟨fun s sr p rest hj hsearch hpending => ⟨_, step_nextEvaluation hj, ?_⟩, fun s sr v hsearch h => ?_,
    fun s sr v hj hsearch hpending hbest => ⟨_, step_nextEvaluation hj, ?_⟩,
    fun s sr f hsearch => ⟨finishJob_fault f s, finishJob_fault_search f s⟩⟩
  · exact ⟨by simp only [nextEvaluation, hsearch, hpending],
      fun hk => by simp only [nextEvaluation, hsearch, hpending, hk],
      fun hk => by simp only [nextEvaluation, hsearch, hpending, hk]⟩
  · obtain ⟨u, hu, hx⟩ := step_of_evaluated h
    refine ⟨_, better sr.best v, hx, ?_⟩
    rw [finishJob_value_in_search (hu.trans hsearch)]
    refine ⟨rfl, rfl, le_better sr.best v, fun old hold => ?_, fun hnone => ?_⟩
    · rw [hold]
      exact better_some old v
    · rw [hnone]
      rfl
  · simp only [nextEvaluation, hsearch, hpending, hbest]

end Sys2Proof.Machine
end

section
/-! PROOF. The program and the parameters of a run (R403, R11): a step of an executor keeps the caller's data (`SameJob`), and each
move of the host keeps these two. -/

namespace Sys2Proof.Machine

/-- The program and the parameters are as before. -/
def SameProgram (s t : State) : Prop := t.prog = s.prog ∧ t.cfg = s.cfg

theorem SameProgram.refl (s : State) : SameProgram s s := ⟨rfl, rfl⟩

theorem SameProgram.trans {s t u : State} (h : SameProgram s t) (h' : SameProgram t u) : SameProgram s u :=
  ⟨h'.1.trans h.1, h'.2.trans h.2⟩

theorem SameJob.sameProgram {s t : State} (h : SameJob s t) : SameProgram s t := by
  obtain ⟨hcfg, hprog, -⟩ := h
  exact ⟨hprog, hcfg⟩

/-! ## The moves of the host -/

theorem State.nextTurn_sameProgram (s : State) : SameProgram s s.nextTurn := ⟨s.nextTurn_prog, s.nextTurn_cfg⟩

theorem afterTurn_sameProgram (s : State) : SameProgram s (afterTurn s) := by
  by_cases hj : s.job = .ring
  · simpa only [afterTurn, hj] using s.nextTurn_sameProgram
  · rw [afterTurn_of_job_ne hj]
    exact SameProgram.refl s

theorem finishJob_sameProgram (r : JobResult) (s : State) : SameProgram s (finishJob r s) := by
  refine ⟨finishJob_prog r s, ?_⟩
  unfold finishJob
  split
  · rfl
  · split <;> rfl

theorem launchRing_sameProgram (phases : List Word) (s : State) : SameProgram s (launchRing phases s) := by
  unfold launchRing
  split
  · exact finishJob_sameProgram _ s
  · cases phases with
    | nil => exact finishJob_sameProgram _ s
    | cons p0 rest => exact SameProgram.trans (t := seededRing p0 rest s) ⟨rfl, rfl⟩ (State.nextTurn_sameProgram _)

theorem chainFrom_sameProgram (i : Nat) (signal : Word) (phases : List Word) (s : State) :
    SameProgram s (chainFrom i signal phases s) := by
  unfold chainFrom
  split
  · exact finishJob_sameProgram _ s
  · exact ⟨rfl, rfl⟩

theorem chainNext_sameProgram (i : Nat) (rest : List Word) (s : State) : SameProgram s (chainNext i rest s) := by
  unfold chainNext
  split
  · exact chainFrom_sameProgram _ _ _ s
  · exact finishJob_sameProgram _ s

theorem nextEvaluation_sameProgram (s : State) : SameProgram s (nextEvaluation s) := by
  unfold nextEvaluation
  split
  · exact ⟨rfl, rfl⟩
  · split <;> exact ⟨rfl, rfl⟩

theorem nextMove_host_sameProgram {s t : State} (h : nextMove s = .host t) : SameProgram s t := by
  unfold nextMove at h
  split at h
  · split at h <;> cases h
    exact SameProgram.refl s
  · cases h
    exact launchRing_sameProgram _ s
  · split at h
    · cases h
      exact SameProgram.trans (t := joinAll s) ⟨rfl, rfl⟩ (finishJob_sameProgram _ _)
    · split at h <;> cases h <;>
        exact SameProgram.trans (t := joinStage s) ⟨rfl, rfl⟩ (State.nextTurn_sameProgram _)
  · cases h
    exact chainFrom_sameProgram _ _ _ s
  · split at h <;> cases h
    · exact chainNext_sameProgram _ _ s
    · exact finishJob_sameProgram _ s
  · cases h
    exact nextEvaluation_sameProgram s
  · split at h <;> cases h <;> exact SameProgram.refl s

/-- Settles O50: a step of an executor keeps all of the caller's data, and every move of the host the program and the parameters. -/
theorem programAndParametersStay : Obligations.ProgramAndParametersStay := by
  intro s t hx
  cases h : nextMove s with
  | executor =>
    obtain ⟨u, hshape, hu⟩ := step_of_executor h
    obtain rfl := Host.Outcome.next.inj (hu.symm.trans hx)
    exact hshape.sameJob.sameProgram.trans (afterTurn_sameProgram u)
  | host u =>
    obtain rfl := Host.Outcome.next.inj ((step_of_host h).symm.trans hx)
    exact nextMove_host_sameProgram h
  | stop f =>
    rw [step_of_stop h] at hx
    cases hx

end Sys2Proof.Machine
end

section
/-! PROOF. Runs under fuel (R124, R412): one equation of `runToEnd` for each way its next step can go; fuel that does not run out
decides nothing, and a hang uses up any. -/

namespace Sys2Proof.Machine

/-! ## The run, step by step -/

theorem runToEnd_of_endedNormally {s : State} (h : endedNormally s = true) (fuel : Nat) :
    runToEnd fuel s = some (.ok s) := by
  cases fuel <;> simp only [runToEnd, h, if_true]

theorem runToEnd_zero_of_not_ended {s : State} (h : endedNormally s = false) : runToEnd 0 s = none := by
  simp only [runToEnd, h, Bool.false_eq_true, if_false]

theorem runToEnd_succ_of_next {s t : State} (h : endedNormally s = false) (hx : step s = .next t) (fuel : Nat) :
    runToEnd (fuel + 1) s = runToEnd fuel t := by
  simp only [runToEnd, h, hx, Bool.false_eq_true, if_false]

theorem runToEnd_succ_of_fault {s : State} {f : Fault} (h : endedNormally s = false) (hx : step s = .fault f) (fuel : Nat) :
    runToEnd (fuel + 1) s = some (.error f) := by
  simp only [runToEnd, h, hx, Bool.false_eq_true, if_false]

theorem step_next_or_fault (s : State) : (∃ t, step s = .next t) ∨ ∃ f, step s = .fault f :=
  (stepStopsOnlyOnReportedFaults.2 s).imp_right fun ⟨f, hf, _⟩ => ⟨f, hf⟩

/-- R412: fuel beyond what a run needs does not change its end. -/
theorem runToEnd_add {s : State} {fuel : Nat} {r : Except Fault State} (h : runToEnd fuel s = some r) (more : Nat) :
    runToEnd (fuel + more) s = some r := by
  induction fuel generalizing s with
  | zero =>
    cases hended : endedNormally s with
    | true => rwa [runToEnd_of_endedNormally hended] at h ⊢
    | false => exact absurd ((runToEnd_zero_of_not_ended hended).symm.trans h) nofun
  | succ fuel ih =>
    rw [Nat.succ_add]
    cases hended : endedNormally s with
    | true => rwa [runToEnd_of_endedNormally hended] at h ⊢
    | false =>
      obtain ⟨t, hx⟩ | ⟨f, hx⟩ := step_next_or_fault s
      · rw [runToEnd_succ_of_next hended hx] at h ⊢
        exact ih h
      · rwa [runToEnd_succ_of_fault hended hx] at h ⊢

/-! ## A hang -/

theorem stepsFrom_succ_of_next {s t : State} (hx : step s = .next t) (n : Nat) : stepsFrom (n + 1) s = stepsFrom n t := by
  simp only [stepsFrom, hx]

theorem State.Hangs.running {s : State} (h : s.Hangs) : s.run = .running := by
  obtain ⟨t, ht, hr, -⟩ := h 0
  exact Option.some.inj ht ▸ hr

/-- R412: a hang goes on as a hang. -/
theorem State.Hangs.next {s t : State} (h : s.Hangs) (hx : step s = .next t) : t.Hangs := fun n =>
  stepsFrom_succ_of_next hx n ▸ h (n + 1)

theorem endedNormally_of_running {s : State} (hj : s.job = .run) (hr : s.run = .running) : endedNormally s = false := by
  simp [endedNormally, hj, hr]

theorem step_run_running {s : State} (hj : s.job = .run) (hr : s.run = .running) :
    ∃ t, step s = .next t ∧ t.job = .run := by
  obtain ⟨t, ht, hshape⟩ := executorStep_cases s
  obtain ⟨-, -, hjob, -⟩ := hshape.sameJob
  exact ⟨t, (step_eq_executorStep (.inl hj) hr).trans ht, hjob.trans hj⟩

theorem runToEnd_of_hangs {s : State} (hj : s.job = .run) (h : s.Hangs) (fuel : Nat) : runToEnd fuel s = none := by
  have hended := endedNormally_of_running hj h.running
  induction fuel generalizing s with
  | zero => exact runToEnd_zero_of_not_ended hended
  | succ fuel ih =>
    obtain ⟨t, hx, htj⟩ := step_run_running hj h.running
    rw [runToEnd_succ_of_next hended hx]
    exact ih htj (h.next hx) (endedNormally_of_running htj (h.next hx).running)

/-- Settles O46: both by induction on the fuel, along the run. -/
theorem fuelDecidesNothing : Obligations.FuelDecidesNothing :=
  ⟨fun _ hj h fuel => runToEnd_of_hangs hj h fuel, fun _ _ more _ h => runToEnd_add h more⟩

end Sys2Proof.Machine
end
